-- ==== Sys2Proof/Syntax.lean ====
section
/-!
DEFINITION. Syntax.lean: the command set, one constructor per row of spec/opcode_table.json
(30_encoding.md R92). A command has no register operands (R90); the three that take the small integer
argument ARG carry its value as a natural number (R91).
-/

namespace Sys2Proof

/-- The eight commands of "BM-RSA command set v1" (R1, R92). -/
inductive Instr where
  /-- MODEXP, opcode 0x01 (R127). -/
  | modexp
  /-- EGCD, opcode 0x02 (R142). -/
  | egcd
  /-- MODINV, opcode 0x03 (R144). -/
  | modinv
  /-- ISPRIME, opcode 0x04, ARG = rounds (R166). -/
  | isprime (rounds : Nat)
  /-- GENPRIME, opcode 0x05, ARG = bit_length (R178). -/
  | genprime (bitLength : Nat)
  /-- GENKEYS, opcode 0x06, ARG = bits (R193). -/
  | genkeys (bits : Nat)
  /-- ENCRYPT, opcode 0x07 (R207). -/
  | encrypt
  /-- DECRYPT, opcode 0x08 (R211). -/
  | decrypt
  deriving DecidableEq, Repr

end Sys2Proof
end

