-- ==== Sys2Proof/WellFormed.lean ====
section
/-!
DEFINITION. WellFormed.lean: which commands have an encoding. ARG is a 24-bit unsigned field
(30_encoding.md R90, R91: "0 to 2^24 - 1"); the other five commands have no operand to check.
-/

namespace Sys2Proof

/-- The bound of the ARG field (R91). -/
def argBound : Nat := 2 ^ 24

/-- A command is well formed when its argument fits the ARG field. -/
def Instr.wellFormed : Instr → Bool
  | .modexp => true
  | .egcd => true
  | .modinv => true
  | .isprime rounds => decide (rounds < argBound)
  | .genprime bitLength => decide (bitLength < argBound)
  | .genkeys bits => decide (bits < argBound)
  | .encrypt => true
  | .decrypt => true

end Sys2Proof
end

