-- ==== Sys2Proof/Word.lean ====
section
/-!
DEFINITION. Word.lean: the widths the spec fixes (10_state.md R31: control registers and bus words are
32 bits; R40: a message byte is 0 to 255; 00_scope.md R10: bit 0 is the least significant bit). The W-bit
big-number registers are natural numbers bounded by an invariant, as R12 and R21 write them, because W is
the spec's one open parameter (R5).
-/

namespace Sys2Proof

/-- A 32-bit bus word, control register or command word (R31, R61, R90). -/
abbrev Word := BitVec 32

/-- One byte of the message buffer (R40). -/
abbrev Byte := BitVec 8

end Sys2Proof
end

