-- ==== Sys2Proof/Decode.lean ====
section
/-!
DEFINITION. Decode.lean: the command decoder, total on the 2^32 command words and rejecting by name
(30_encoding.md R90 to R96), and the encoder written from the same table (R92).
-/

namespace Sys2Proof

/-- Why a command word selects no command. -/
inductive Illegal where
  /-- OPCODE is 0x00 or 0x09 to 0xFF (R93). -/
  | reservedOpcode
  /-- ARG is not 0 in a command that requires ARG = 0 (R94). -/
  | reservedArg
  deriving DecidableEq, Repr

/-- What the decoder makes of a command word. -/
inductive Decoded where
  | command (i : Instr)
  | illegal (why : Illegal)
  deriving DecidableEq, Repr

/-- OPCODE, bits 7:0 of the command word (R90). -/
def opcodeOf (w : Word) : Nat := w.toNat % 256

/-- ARG, bits 31:8 of the command word, zero-extended (R90, R91). -/
def argOf (w : Word) : Nat := w.toNat / 256

/-- A command without an argument: legal only with ARG = 0 (R94). -/
def withoutArg (arg : Nat) (i : Instr) : Decoded :=
  if arg = 0 then .command i else .illegal .reservedArg

/-- The decoder of R96: reserved opcodes first, then reserved arguments, then the eight commands. -/
def decode (w : Word) : Decoded :=
  if opcodeOf w = 0x01 then withoutArg (argOf w) .modexp
  else if opcodeOf w = 0x02 then withoutArg (argOf w) .egcd
  else if opcodeOf w = 0x03 then withoutArg (argOf w) .modinv
  else if opcodeOf w = 0x04 then .command (.isprime (argOf w))
  else if opcodeOf w = 0x05 then .command (.genprime (argOf w))
  else if opcodeOf w = 0x06 then .command (.genkeys (argOf w))
  else if opcodeOf w = 0x07 then withoutArg (argOf w) .encrypt
  else if opcodeOf w = 0x08 then withoutArg (argOf w) .decrypt
  else .illegal .reservedOpcode

/-- One row of the opcode map: a word w selects the row iff `(w AND mask) = match` (R92). -/
structure OpcodeRow where
  mnemonic : String
  mask : Word
  pattern : Word
  /-- The command the row stands for, from the word's ARG. -/
  command : Nat → Instr

/-- The opcode map of R92. -/
def opcodeTable : List OpcodeRow :=
  [ ⟨"MODEXP", 0xFFFFFFFF, 0x00000001, fun _ => .modexp⟩,
    ⟨"EGCD", 0xFFFFFFFF, 0x00000002, fun _ => .egcd⟩,
    ⟨"MODINV", 0xFFFFFFFF, 0x00000003, fun _ => .modinv⟩,
    ⟨"ISPRIME", 0x000000FF, 0x00000004, .isprime⟩,
    ⟨"GENPRIME", 0x000000FF, 0x00000005, .genprime⟩,
    ⟨"GENKEYS", 0x000000FF, 0x00000006, .genkeys⟩,
    ⟨"ENCRYPT", 0xFFFFFFFF, 0x00000007, fun _ => .encrypt⟩,
    ⟨"DECRYPT", 0xFFFFFFFF, 0x00000008, fun _ => .decrypt⟩ ]

/-- A command word of format C from its two fields: `arg * 256 + OPCODE` (R90, R98). -/
def formatC (opcode arg : Nat) : Word := BitVec.ofNat 32 (arg * 256 + opcode)

/-- The word of a well-formed command (R92). -/
def encode : Instr → Word
  | .modexp => formatC 0x01 0
  | .egcd => formatC 0x02 0
  | .modinv => formatC 0x03 0
  | .isprime rounds => formatC 0x04 rounds
  | .genprime bitLength => formatC 0x05 bitLength
  | .genkeys bits => formatC 0x06 bits
  | .encrypt => formatC 0x07 0
  | .decrypt => formatC 0x08 0

/-- The command word of a table row: `nbits` bits of `w`, every higher bit 0. -/
def tableWord (nbits w : Nat) : Word := BitVec.ofNat 32 (w % 2 ^ nbits)

/-- The command the decoder reads from a row's word. A command word is one bus word, so no byte order
intervenes (R61, R90); a row of more than 32 bits is no command word. -/
def decodeTableWord (nbits w : Nat) : Option Instr :=
  if 32 < nbits then none
  else
    match decode (tableWord nbits w) with
    | .command i => some i
    | .illegal _ => none

end Sys2Proof
end

