-- ==== Sys2Proof/Config.lean ====
section
/-!
DEFINITION. Config.lean: the implementation parameter the spec leaves OPEN, the register width W
(00_scope.md R5, 92_eei_decisions.md D2). Every meaning takes W from the state (`State.width`, what the CFG
register reads), so a statement about every state speaks of every W; only `State.reset` needs one value.
-/

namespace Sys2Proof.Config

/-- The constraints on W: "W mod 32 = 0 and 32 <= W <= 8192" (R5). -/
abbrev LegalWidth (w : Nat) : Prop := w % 32 = 0 ∧ 32 ≤ w ∧ w ≤ 8192

/-- DESIGN CHOICE (log entry 1): the W of `State.reset`, the one the spec's own vectors and programs use
(95_test_vectors.md parts 2 and 3, 93_implementation_defined.md U1). No statement rests on it. -/
def defaultWidth : Nat := 64

end Sys2Proof.Config
end

