-- ==== Sys2Proof/Machine/State.lean ====
section
/-!
DEFINITION. Machine/State.lean: the architectural state of the BM-RSA CORE (10_state.md R20), the inputs of
the two outside agents (00_scope.md R8: host and random source) as plain data, the reasons a step can stop,
and the state after reset (R55, R270).
-/

namespace Sys2Proof.Machine

/-- One request to the random source (R50). -/
inductive Request where
  /-- `RandBits(k)`: an integer v with 0 <= v < 2^k (R51). -/
  | randBits (k : Nat)
  /-- `RandRange(lo, hi)`: an integer v with lo <= v <= hi, both ends included (R52). -/
  | randRange (lo hi : Nat)
  deriving DecidableEq, Repr

/-- The sequencer state SEQ (R30). While BUSY the CORE holds the accepted command word (R37: "its ARG field
is held internally for the duration of the command only") and the request, if any, that it has made and the
random source has not answered (R53). -/
inductive Seq where
  | idle
  | busy (word : Word) (request : Option Request)
  deriving DecidableEq, Repr

/-- What the outside world can do to the block, one entry at a time (R8, R61, R270). -/
inductive Input where
  /-- `HostRead(addr)`, addr a byte offset from the block's base address (R61). -/
  | hostRead (addr : Nat)
  /-- `HostWrite(addr, data)` (R61). -/
  | hostWrite (addr : Nat) (data : Word)
  /-- The random source answers a request made after `epoch` resets (R53, R270; log entry 6). -/
  | answer (epoch v : Nat)
  /-- The reset input is asserted and released (R270). -/
  | reset
  /-- No outside event: the CORE takes its turn before the entries behind this one. -/
  | coreTurn
  deriving DecidableEq, Repr

/-- The bus response of a host access (R61). -/
inductive Resp where
  | okay
  | error
  deriving DecidableEq, Repr

/-- What the host port answered last: `HostRead` returns a pair, `HostWrite` a response (R61). -/
inductive HostResponse where
  | read (resp : Resp) (data : Word)
  | write (resp : Resp)
  deriving DecidableEq, Repr

/-- The message buffer, the one byte-addressed memory (R40, R70), as (index, byte) pairs in canonical form
(`Memory.wf`, Machine/Ops.lean). -/
abbrev Memory := List Host.Cell

/-- What an unlisted index of the message buffer reads as: its reset contents (R55: "every byte 0"). -/
def Memory.blank : Byte := 0

/-- The state. The fields down to `seq` are the spec's; `width` is the parameter W, read through CFG
(log entry 1); `answers`, `inputs`, `port` and `epoch` are the model's own record of the random source and of
the host port (log entries 2, 3, 4 and 6). -/
structure State where
  /-- W, the width in bits of a big-number register, the contents of CFG (R5, R33). -/
  width : Nat
  /-- Big-number register 0, operand A (R21). -/
  opa : Nat
  /-- Big-number register 1, operand B (R21). -/
  opb : Nat
  /-- Big-number register 2, operand C (R21). -/
  opc : Nat
  /-- Big-number register 3, result 0 (R21). -/
  res0 : Nat
  /-- Big-number register 4, result 1 (R21). -/
  res1 : Nat
  /-- Big-number register 5, result 2 (R21). -/
  res2 : Nat
  /-- Big-number register 6, PublicKey.n (R21, R26). -/
  pubN : Nat
  /-- Big-number register 7, PublicKey.e (R21, R26). -/
  pubE : Nat
  /-- Big-number register 8, PrivateKey.n (R21, R26). -/
  privN : Nat
  /-- Big-number register 9, PrivateKey.d (R21, R26). -/
  privD : Nat
  /-- The message buffer MSG (R40). -/
  msg : Memory
  /-- MSGLEN (R39). -/
  msglen : Word
  /-- SIGN.OPA_NEG, bit 0 (R38). -/
  opaNeg : Bool
  /-- SIGN.OPB_NEG, bit 1 (R38). -/
  opbNeg : Bool
  /-- SIGN.RES0_NEG, bit 8 (R38). -/
  res0Neg : Bool
  /-- SIGN.RES1_NEG, bit 9 (R38). -/
  res1Neg : Bool
  /-- SIGN.RES2_NEG, bit 10 (R38). -/
  res2Neg : Bool
  /-- MAXATT (R41). -/
  maxatt : Word
  /-- ATTCNT (R42). -/
  attcnt : Word
  /-- STATUS.DONE, bit 1 (R34). -/
  done : Bool
  /-- STATUS.ERR, bit 2 (R34). -/
  err : Bool
  /-- STATUS.PRIME, bit 3 (R34, R36). -/
  prime : Bool
  /-- STATUS.ERRCODE, bits 15:8 (R34). -/
  errcode : Byte
  /-- SEQ, seen as STATUS.BUSY, with the held command (R30, R37). -/
  seq : Seq
  /-- The random source's answers, in order, from the running command's first request on (R50, R53). -/
  answers : List Nat
  /-- What the outside world does next, in order (R8, R77). -/
  inputs : List Input
  /-- The host port's last response (R61). -/
  port : Option HostResponse
  /-- How many resets there have been, by which an answer tells the request it answers from one that a reset
  has made forgotten (R270). -/
  epoch : Nat
  deriving DecidableEq, Repr

/-- Why the machine stops with a fault. -/
inductive Fault where
  /-- Raised by `State.memRead` and `State.memWrite` for an access outside `MSG[0 .. MSG_BYTES-1]`, indices
  the spec says do not exist (R70: "Both require addr + n <= MSG_BYTES"). Safe; no state with the invariant
  of Safety.lean reaches it. -/
  | msgOutOfRange
  deriving DecidableEq, Repr

/-- Why the machine gives a step no meaning. -/
inductive Refusal where
  /-- Raised by an arm of `exec` whose command has no meaning yet; no arm is left. Safe. -/
  | notModelled (mnemonic : String)
  /-- Raised by a command that draws (ISPRIME, GENPRIME, GENKEYS) when the random source answers `req`
  outside its stated range (R53: "gives an out-of-range answer no meaning (refuse)"). Safe. -/
  | randomOutOfRange (req : Request)
  deriving DecidableEq, Repr

/-- The reset state of a block of register width `w` (R55): every register, flag and byte 0, SEQ idle; no
request outstanding, no answer held, the host port silent and no earlier reset counted (log entries 2, 3, 4
and 6). -/
def State.resetOf (w : Nat) : State where
  width := w
  opa := 0
  opb := 0
  opc := 0
  res0 := 0
  res1 := 0
  res2 := 0
  pubN := 0
  pubE := 0
  privN := 0
  privD := 0
  msg := []
  msglen := 0
  opaNeg := false
  opbNeg := false
  res0Neg := false
  res1Neg := false
  res2Neg := false
  maxatt := 0
  attcnt := 0
  done := false
  err := false
  prime := false
  errcode := 0
  seq := .idle
  answers := []
  inputs := []
  port := none
  epoch := 0

/-- The machine right after reset (R55, R270), at the width of log entry 1. -/
def State.reset : State := State.resetOf Config.defaultWidth

end Sys2Proof.Machine
end

