-- ==== Sys2Proof/Machine/Ops.lean ====
section
/-!
DEFINITION. Machine/Ops.lean: the constants of the block, the message buffer, byte order, the big-number
registers, and the acceptance and the two completions of a command (an error completion is this block's
exception entry, 60_exceptions.md R233; the next acceptance is its return, R243).
-/

namespace Sys2Proof.Machine

/-! ### Constants (00_scope.md R6, 10_state.md R32) -/

/-- GEN_ROUNDS: Miller-Rabin rounds per candidate of the prime generator (R6). -/
def genRounds : Nat := 16

/-- E_CANDIDATES: the public-exponent candidates, in the order they are tried (R6). -/
def eCandidates : List Nat := [65537, 3, 17]

/-- MIN_KEY_BITS: the least `bits` the key generator accepts (R6). -/
def minKeyBits : Nat := 8

/-- The ID register's constant, ASCII "BMR" and the command-set version (R32). -/
def idWord : Word := 0x424D5201

/-- L, the limbs of a big-number register (R5). -/
def State.limbs (s : State) : Nat := s.width / 32

/-- MSG_BYTES, the capacity of the message buffer (R5). -/
def State.msgBytes (s : State) : Nat := s.width / 8

/-! ### The message buffer (20_memory.md R40, R70) -/

/-- The byte at an index. -/
def Memory.read : Memory → Nat → Byte
  | [], _ => Memory.blank
  | (a, b) :: m, k => if a = k then b else Memory.read m k

/-- Store one byte. The list stays sorted, and a blank byte is not listed. -/
def Memory.write : Memory → Nat → Byte → Memory
  | [], k, v => if v = Memory.blank then [] else [(k, v)]
  | (a, b) :: m, k, v =>
    if k < a then (if v = Memory.blank then (a, b) :: m else (k, v) :: (a, b) :: m)
    else if k = a then (if v = Memory.blank then m else (k, v) :: m)
    else (a, b) :: Memory.write m k v

/-- Store a byte list from an index on. -/
def Memory.writeList : Memory → Nat → List Byte → Memory
  | m, _, [] => m
  | m, k, v :: vs => Memory.writeList (m.write k v) (k + 1) vs

/-- The byte list of `n` indices from `k` on. -/
def Memory.readList (m : Memory) : Nat → Nat → List Byte
  | _, 0 => []
  | k, n + 1 => m.read k :: Memory.readList m (k + 1) n

/-- The canonical form: indices strictly rising, no listed byte blank. -/
def Memory.wf : Memory → Bool
  | [] => true
  | (a, b) :: m => decide (b ≠ Memory.blank) && m.all (fun c => decide (a < c.1)) && Memory.wf m

/-- `MemRead(addr, n)` (R70): faults outside the buffer. -/
def State.memRead (s : State) (addr n : Nat) : Except Fault (List Byte) :=
  if addr + n ≤ s.msgBytes then .ok (s.msg.readList addr n) else .error .msgOutOfRange

/-- `MemWrite(addr, n, bs)` with n the length of `bs` (R70): faults outside the buffer. -/
def State.memWrite (s : State) (addr : Nat) (bs : List Byte) : Except Fault State :=
  if addr + bs.length ≤ s.msgBytes then .ok { s with msg := s.msg.writeList addr bs }
  else .error .msgOutOfRange

/-! ### Byte order of the message (R10, R71, R72) -/

/-- The number of significant bits of a natural number (R10). -/
def bitlen (v : Nat) : Nat := if v = 0 then 0 else Nat.log2 v + 1

/-- The big-endian value of a byte list (R12, R71). -/
def be2nat (bs : List Byte) : Nat := bs.foldl (fun acc b => 256 * acc + b.toNat) 0

/-- The `n` low bytes of `v`, big-endian. -/
def natBytes : Nat → Nat → List Byte
  | 0, _ => []
  | n + 1, v => natBytes n (v / 256) ++ [BitVec.ofNat 8 v]

/-- The shortest big-endian byte list of a natural number, one byte 0x00 for zero (R12, R72). -/
def nat2be (v : Nat) : List Byte := if v = 0 then [0] else natBytes ((bitlen v + 7) / 8) v

/-! ### Big-number registers (10_state.md R21, 20_memory.md R65) -/

/-- The ten big-number registers (R21). -/
inductive BigReg where
  | opa | opb | opc | res0 | res1 | res2 | pubN | pubE | privN | privD
  deriving DecidableEq, Repr

/-- The registers in the order of their numbers 0 to 9 (R21). -/
def BigReg.all : List BigReg :=
  [.opa, .opb, .opc, .res0, .res1, .res2, .pubN, .pubE, .privN, .privD]

/-- A register's number (R21). -/
def BigReg.number : BigReg → Nat
  | .opa => 0
  | .opb => 1
  | .opc => 2
  | .res0 => 3
  | .res1 => 4
  | .res2 => 5
  | .pubN => 6
  | .pubE => 7
  | .privN => 8
  | .privD => 9

/-- The host writes operand and key registers, and only reads results (R21, R67). -/
def BigReg.hostWritable : BigReg → Bool
  | .opa => true
  | .opb => true
  | .opc => true
  | .res0 => false
  | .res1 => false
  | .res2 => false
  | .pubN => true
  | .pubE => true
  | .privN => true
  | .privD => true

/-- `x[i]`: the value of a big-number register (R12, R21). -/
def State.reg (s : State) : BigReg → Nat
  | .opa => s.opa
  | .opb => s.opb
  | .opc => s.opc
  | .res0 => s.res0
  | .res1 => s.res1
  | .res2 => s.res2
  | .pubN => s.pubN
  | .pubE => s.pubE
  | .privN => s.privN
  | .privD => s.privD

/-- `x[i] <- v` (R12). -/
def State.setReg (s : State) (r : BigReg) (v : Nat) : State :=
  match r with
  | .opa => { s with opa := v }
  | .opb => { s with opb := v }
  | .opc => { s with opc := v }
  | .res0 => { s with res0 := v }
  | .res1 => { s with res1 := v }
  | .res2 => { s with res2 := v }
  | .pubN => { s with pubN := v }
  | .pubE => { s with pubE := v }
  | .privN => { s with privN := v }
  | .privD => { s with privD := v }

/-- Limb `j` of a register value: its bits 32*j+31 down to 32*j (R65). -/
def limb (x j : Nat) : Word := BitVec.ofNat 32 (x / 2 ^ (32 * j))

/-- Replace limb `j` of a register value, every other limb unchanged (R65). -/
def setLimb (x j : Nat) (d : Word) : Nat :=
  x / 2 ^ (32 * j + 32) * 2 ^ (32 * j + 32) + d.toNat * 2 ^ (32 * j) + x % 2 ^ (32 * j)

/-! ### Acceptance and completion of a command (R95, R232, R233) -/

/-- STATUS.BUSY (R30, R34): set exactly while SEQ = BUSY. -/
def State.busy (s : State) : Bool :=
  match s.seq with
  | .idle => false
  | .busy _ _ => true

/-- Acceptance of a command word, one step (R95): a pending error is cleared, which is all the "return"
from an error there is (R243). -/
def State.accept (s : State) (word : Word) : State :=
  { s with seq := .busy word none, done := false, err := false, errcode := 0 }

/-- Successful completion (R232): ERR and ERRCODE stay as acceptance left them. -/
def State.complete (s : State) : State := { s with seq := .idle, done := true }

/-- The named errors (R231). -/
inductive CmdError where
  | illegalCommand | badOperand | invalidModulus | noCoprimeExponent | oversizedMessage
  | generationExhausted
  deriving DecidableEq, Repr

/-- STATUS.ERRCODE of an error (R231). -/
def CmdError.code : CmdError → Byte
  | .illegalCommand => 1
  | .badOperand => 2
  | .invalidModulus => 3
  | .noCoprimeExponent => 4
  | .oversizedMessage => 5
  | .generationExhausted => 6

/-- `raise E`, the block's exception entry (R233): one step that writes STATUS and SEQ and nothing else.
There is no handler, saved pc or mode to enter. -/
def State.fail (s : State) (e : CmdError) : State :=
  { s with seq := .idle, done := true, err := true, errcode := e.code }

/-- Wait for the random source (R53): SEQ stays BUSY, holding the command's word, with `req` outstanding. -/
def State.waitFor (s : State) (i : Instr) (req : Request) : State :=
  { s with seq := .busy (encode i) (some req) }

end Sys2Proof.Machine
end

