-- ==== Sys2Proof/Machine/Arith.lean ====
section
/-!
DEFINITION. Machine/Arith.lean: the integer functions inside the commands: `modexp` (40_modexp.md R125, R126),
`egcd` and `gcd` (41_modinv.md R140, R146), `mod_inverse` (R143), exponent selection (44_keygen.md R194).
Arithmetic is exact on Nat and Int (R120); division and remainder are floor division and floor modulo,
`Int.fdiv` and `Int.fmod` (R11, R121).
-/

namespace Sys2Proof.Machine

/-- The square-and-multiply loop of R126; the fuel bounds the iterations, of which there are `bitlen e`. -/
def modexpLoop (n : Nat) : Nat → Nat → Nat → Nat → Nat
  | 0, result, _, _ => result
  | fuel + 1, result, base, e =>
    if e = 0 then result
    else
      modexpLoop n fuel (if e % 2 = 1 then result * base % n else result) (base * base % n) (e / 2)

/-- `modexp(b, e, n)` for n >= 1 (R126); its value is `b ^ e mod n` (R125). No rule calls it with n = 0. -/
def modexp (b e n : Nat) : Nat := modexpLoop n (bitlen e) (1 % n) (b % n) e

/-- What the extended Euclidean engine returns (R140). -/
structure Bezout where
  g : Int
  x : Int
  y : Int
  deriving DecidableEq, Repr

/-- The loop of R140, its variables in the order old_r, r, old_s, s, old_t, t. -/
def egcdLoop : Nat → Int → Int → Int → Int → Int → Int → Bezout
  | 0, oldR, _, oldS, _, oldT, _ => ⟨oldR, oldS, oldT⟩
  | fuel + 1, oldR, r, oldS, s, oldT, t =>
    if r = 0 then ⟨oldR, oldS, oldT⟩
    else
      egcdLoop fuel r (oldR - oldR.fdiv r * r) s (oldS - oldR.fdiv r * s) t (oldT - oldR.fdiv r * t)

/-- `egcd(a, b)` (R140); |r| strictly decreases (R141), so `|b| + 1` iterations suffice. -/
def egcd (a b : Int) : Bezout := egcdLoop (b.natAbs + 1) a b 1 0 0 1

/-- `gcd(a, b)` as the key generator uses it: the first component of `egcd` (R146). -/
def gcd (a b : Int) : Int := (egcd a b).g

/-- What `mod_inverse` returns: `Some(v)`, `None`, or the BadOperand exit (R143). -/
inductive Inverse where
  | value (v : Int)
  | noInverse
  | zeroModulus
  deriving DecidableEq, Repr

/-- `mod_inverse(a, m)` (R143). -/
def modInverse (a m : Int) : Inverse :=
  if (egcd a m).g ≠ 1 ∧ (egcd a m).g ≠ -1 then .noInverse
  else if m = 0 then .zeroModulus
  else .value (((egcd a m).x.fmod m + m).fmod m)

/-- The first public-exponent candidate coprime to phi (R194: "first match wins"). -/
def selectExponent (phi : Nat) : Option Nat :=
  eCandidates.find? (fun cand => decide (gcd cand phi = 1))

end Sys2Proof.Machine
end

