-- ==== Sys2Proof/Machine/Operands.lean ====
section
/-!
DEFINITION. Machine/Operands.lean: the operand and result forms of the commands (10_state.md R22, R24, R25).
Every command has fixed operand and result registers (30_encoding.md R90); a form is signed (EGCD and MODINV
only) or unsigned.
-/

namespace Sys2Proof.Machine

/-- The integer of a sign-and-magnitude pair; a magnitude 0 is 0 whatever its sign bit (R24). -/
def signedValue (neg : Bool) (magnitude : Nat) : Int :=
  if neg then -(magnitude : Int) else (magnitude : Int)

/-- `sval(OPA)` (R24). -/
def State.svalA (s : State) : Int := signedValue s.opaNeg s.opa

/-- `sval(OPB)` (R24). -/
def State.svalB (s : State) : Int := signedValue s.opbNeg s.opb

/-- `sres(0) <- v` (R25). -/
def State.sres0 (s : State) (v : Int) : State :=
  { s with res0 := v.natAbs, res0Neg := decide (v < 0) }

/-- `sres(1) <- v` (R25). -/
def State.sres1 (s : State) (v : Int) : State :=
  { s with res1 := v.natAbs, res1Neg := decide (v < 0) }

/-- `sres(2) <- v` (R25). -/
def State.sres2 (s : State) (v : Int) : State :=
  { s with res2 := v.natAbs, res2Neg := decide (v < 0) }

/-- `RES0 <- v`, an unsigned write: the sign bit is cleared too (R25). -/
def State.ures0 (s : State) (v : Nat) : State := { s with res0 := v, res0Neg := false }

/-- A key pair's three numbers (R26, R190). -/
structure KeyPair where
  n : Nat
  e : Nat
  d : Nat
  deriving DecidableEq, Repr

/-- The four key registers written together, the modulus twice (R26, R193). -/
def State.writeKeys (s : State) (k : KeyPair) : State :=
  { s with pubN := k.n, pubE := k.e, privN := k.n, privD := k.d }

end Sys2Proof.Machine
end

