-- ==== Sys2Proof/Machine/Cipher.lean ====
section
/-!
DEFINITION. Machine/Cipher.lean: ENCRYPT and DECRYPT (45_cipher.md R205 to R214).
-/

namespace Sys2Proof.Machine

/-- ENCRYPT: RES0 <- m ^ PUB_E mod PUB_N for the message value m, the length checked first (R207, R208). -/
def execEncrypt (s : State) : Host.Outcome State Fault Refusal :=
  if s.msgBytes < s.msglen.toNat then .next (s.fail .badOperand)
  else
    match s.memRead 0 s.msglen.toNat with
    | .error f => .fault f
    | .ok bs =>
      if s.pubN ≤ be2nat bs then .next (s.fail .oversizedMessage)
      else .next (s.ures0 (modexp (be2nat bs) s.pubE s.pubN)).complete

/-- The whole buffer DECRYPT writes: the encoding of `v`, then zero bytes up to MSG_BYTES (R211). -/
def State.decryptedBuffer (s : State) (v : Nat) : List Byte :=
  nat2be v ++ List.replicate (s.msgBytes - (nat2be v).length) 0

/-- DECRYPT: MSG, MSGLEN <- the big-endian encoding of OPA ^ PRIV_D mod PRIV_N (R211, R212). -/
def execDecrypt (s : State) : Host.Outcome State Fault Refusal :=
  if s.privN = 0 then .next (s.fail .badOperand)
  else
    match s.memWrite 0 (s.decryptedBuffer (modexp s.opa s.privD s.privN)) with
    | .error f => .fault f
    | .ok t =>
      .next
        ({ t with
            msglen := BitVec.ofNat 32 (nat2be (modexp s.opa s.privD s.privN)).length }.complete)

end Sys2Proof.Machine
end

