-- ==== Sys2Proof/Machine/Euclid.lean ====
section
/-!
DEFINITION. Machine/Euclid.lean: EGCD and MODINV (41_modinv.md R142, R144).
-/

namespace Sys2Proof.Machine

/-- EGCD: RES0, RES1, RES2 <- gcd and Bezout coefficients of the signed operands; no error (R142). -/
def execEgcd (s : State) : Host.Outcome State Fault Refusal :=
  .next
    ((((s.sres0 (egcd s.svalA s.svalB).g).sres1 (egcd s.svalA s.svalB).x).sres2
      (egcd s.svalA s.svalB).y).complete)

/-- MODINV: RES0 <- inverse of the signed OPA modulo the signed OPB (R144). -/
def execModinv (s : State) : Host.Outcome State Fault Refusal :=
  match modInverse s.svalA s.svalB with
  | .zeroModulus => .next (s.fail .badOperand)
  | .noInverse => .next (s.fail .invalidModulus)
  | .value v => .next (s.sres0 v).complete

end Sys2Proof.Machine
end

