-- ==== Sys2Proof/Machine/Flags.lean ====
section
/-!
DEFINITION. Machine/Flags.lean: the flags and the words that show them: STATUS (10_state.md R34 to R36), SIGN
(R38), CFG (R33). Reserved bits read 0 (R43). The completion flags are written by `State.accept`,
`State.complete` and `State.fail` (Machine/Ops.lean), the result signs by the forms of Machine/Operands.lean.
-/

namespace Sys2Proof.Machine

/-- STATUS as the host reads it (R34). -/
def State.statusWord (s : State) : Word :=
  BitVec.ofNat 32
    (s.busy.toNat + 2 * s.done.toNat + 4 * s.err.toNat + 8 * s.prime.toNat + 256 * s.errcode.toNat)

/-- SIGN as the host reads it (R38). -/
def State.signWord (s : State) : Word :=
  BitVec.ofNat 32
    (s.opaNeg.toNat + 2 * s.opbNeg.toNat + 256 * s.res0Neg.toNat + 512 * s.res1Neg.toNat
      + 1024 * s.res2Neg.toNat)

/-- A host write of SIGN: bits 0 and 1 only (R38). -/
def State.writeSign (s : State) (data : Word) : State :=
  { s with opaNeg := data.getLsbD 0, opbNeg := data.getLsbD 1 }

/-- CFG as the host reads it: W in bits 15:0, bits 31:16 zero (R33). -/
def State.cfgWord (s : State) : Word := BitVec.ofNat 32 (s.width % 65536)

/-- STATUS.PRIME, the result flag of ISPRIME (R36). -/
def State.setPrime (s : State) (b : Bool) : State := { s with prime := b }

end Sys2Proof.Machine
end

