-- ==== Sys2Proof/Machine/Random.lean ====
section
/-!
DEFINITION. Machine/Random.lean: requests to the random source (10_state.md R50 to R53) and how a command
that draws ends. The answers are data the command reads in order; where they run out the command waits.
`Run` is the "fuelled function that may return 'not finished'" that R281 proposes, the list of answers being
the fuel.
-/

namespace Sys2Proof.Machine

/-- A computation that has read answers of the random source. -/
inductive Draw (α : Type) where
  /-- It finished with `a`, leaving the answers `rest` unread. -/
  | done (a : α) (rest : List Nat)
  /-- It made `req`, which is not answered (R53: "waits for each answer before going on"). -/
  | wait (req : Request)
  /-- `req` was answered outside its range (R53). -/
  | outOfRange (req : Request)
  deriving DecidableEq, Repr

/-- `RandBits(k)` (R51). -/
def randBits (k : Nat) : List Nat → Draw Nat
  | [] => .wait (.randBits k)
  | v :: rest => if v < 2 ^ k then .done v rest else .outOfRange (.randBits k)

/-- `RandRange(lo, hi)` (R52). -/
def randRange (lo hi : Nat) : List Nat → Draw Nat
  | [] => .wait (.randRange lo hi)
  | v :: rest => if lo ≤ v ∧ v ≤ hi then .done v rest else .outOfRange (.randRange lo hi)

/-- How a computation that may raise an error and counts candidates in ATTCNT stands (R13, R177). -/
inductive Run (α : Type) where
  | done (a : α) (att : Word) (rest : List Nat)
  | raised (e : CmdError) (att : Word) (rest : List Nat)
  | wait (req : Request) (att : Word)
  | outOfRange (req : Request)
  deriving DecidableEq, Repr

/-- The end of a drawing command: its result written and the command completed, its error raised, or the
command waiting with ATTCNT at the count reached. The unread answers stay for the next requests; a waiting
command keeps all it has read, since it is run again from its first statement when an answer arrives
(R53: the outcome "is a function of the start state and the earlier answers"; log entry 2). -/
def State.conclude {α : Type} (s : State) (i : Instr) (write : State → α → State) :
    Run α → Host.Outcome State Fault Refusal
  | .done a att rest => .next (write { s with attcnt := att, answers := rest } a).complete
  | .raised e att rest => .next ({ s with attcnt := att, answers := rest }.fail e)
  | .wait req att => .next ({ s with attcnt := att }.waitFor i req)
  | .outOfRange req => .refused (.randomOutOfRange req)

end Sys2Proof.Machine
end

