-- ==== Sys2Proof/Machine/Primality.lean ====
section
/-!
DEFINITION. Machine/Primality.lean: the Miller-Rabin tester and ISPRIME (42_primality.md R160 to R167).
-/

namespace Sys2Proof.Machine

/-- The halving loop of R162; the fuel bounds the iterations ("after r <= bitlen(n) iterations"). -/
def halveLoop : Nat → Nat → Nat → Nat × Nat
  | 0, d, r => (d, r)
  | fuel + 1, d, r => if d % 2 = 0 then halveLoop fuel (d / 2) (r + 1) else (d, r)

/-- `n - 1 = d * 2^r` with d odd, as the pair (d, r) (R162). -/
def decompose (n : Nat) : Nat × Nat := halveLoop (bitlen n) (n - 1) 0

/-- At most `k` squarings of `x` modulo n, stopping with success at the first n - 1 (R163). -/
def squaringsHit (n : Nat) : Nat → Nat → Bool
  | 0, _ => false
  | k + 1, x => if x * x % n = n - 1 then true else squaringsHit n k (x * x % n)

/-- Whether the round with witness `a` passes, for n - 1 = d * 2^r (R163). -/
def roundPasses (n d r a : Nat) : Bool :=
  decide (modexp a d n = 1) || decide (modexp a d n = n - 1) || squaringsHit n (r - 1) (modexp a d n)

/-- The rounds of R164: one `RandRange(2, n-2)` a round, stopping at the first that fails. -/
def witnessRounds (n d r : Nat) : Nat → List Nat → Draw Bool
  | 0, ans => .done true ans
  | k + 1, ans =>
    match randRange 2 (n - 2) ans with
    | .wait req => .wait req
    | .outOfRange req => .outOfRange req
    | .done a rest => if roundPasses n d r a then witnessRounds n d r k rest else .done false rest

/-- `is_probable_prime(n, rounds)` for rounds >= 1 (R161, R162, R164). -/
def isProbablePrime (n rounds : Nat) (ans : List Nat) : Draw Bool :=
  if n < 2 then .done false ans
  else if n = 2 ∨ n = 3 then .done true ans
  else if n % 2 = 0 then .done false ans
  else witnessRounds n (decompose n).1 (decompose n).2 rounds ans

/-- A computation that draws but counts nothing, as part of a command with ATTCNT at `att`. -/
def Draw.counted {α : Type} (att : Word) : Draw α → Run α
  | .done a rest => .done a att rest
  | .wait req => .wait req att
  | .outOfRange req => .outOfRange req

/-- ISPRIME: STATUS.PRIME <- whether OPA passes `rounds` rounds; ATTCNT is not written (R166). -/
def execIsprime (rounds : Nat) (s : State) : Host.Outcome State Fault Refusal :=
  if rounds = 0 then .next (s.fail .badOperand)
  else
    s.conclude (.isprime rounds) State.setPrime
      ((isProbablePrime s.opa rounds s.answers).counted s.attcnt)

end Sys2Proof.Machine
end

