-- ==== Sys2Proof/Machine/PrimeGen.lean ====
section
/-!
DEFINITION. Machine/PrimeGen.lean: the prime generator and GENPRIME (43_primegen.md R175 to R179).
-/

namespace Sys2Proof.Machine

/-- The candidate formed from a `RandBits(k)` answer: bits k-1 and 0 set (R176). -/
def candidate (k v : Nat) : Nat := v ||| 2 ^ (k - 1) ||| 1

/-- ATTCNT counts one candidate, saturating at 2^32 - 1 (R42, R177). -/
def satInc (att : Word) : Word := if att = BitVec.allOnes 32 then att else att + 1

/-- Whether the attempt cap forbids one more candidate: MAXATT != 0 and ATTCNT >= MAXATT (R177). -/
def capReached (maxatt att : Word) : Bool := decide (maxatt ≠ 0 ∧ maxatt.toNat ≤ att.toNat)

/-- The candidate loop of R177. Every pass that does not stop reads at least one answer, so fuel above the
number of answers is never used up. -/
def primeLoop (k : Nat) (maxatt : Word) : Nat → Word → List Nat → Run Nat
  | 0, att, _ => .wait (.randBits k) att
  | fuel + 1, att, ans =>
    if capReached maxatt att then .raised .generationExhausted att ans
    else
      match randBits k ans with
      | .wait req => .wait req (satInc att)
      | .outOfRange req => .outOfRange req
      | .done v rest =>
        match isProbablePrime (candidate k v) genRounds rest with
        | .wait req => .wait req (satInc att)
        | .outOfRange req => .outOfRange req
        | .done true rest' => .done (candidate k v) (satInc att) rest'
        | .done false rest' => primeLoop k maxatt fuel (satInc att) rest'

/-- `generate_prime(k)` for 2 <= k <= W, with ATTCNT at `att` (R175, R177). -/
def generatePrime (k : Nat) (maxatt att : Word) (ans : List Nat) : Run Nat :=
  primeLoop k maxatt (ans.length + 1) att ans

/-- GENPRIME: RES0 <- a probable prime of `bitLength` bits (R178). -/
def execGenprime (bitLength : Nat) (s : State) : Host.Outcome State Fault Refusal :=
  if bitLength < 2 ∨ s.width < bitLength then .next (s.fail .badOperand)
  else s.conclude (.genprime bitLength) State.ures0 (generatePrime bitLength s.maxatt 0 s.answers)

end Sys2Proof.Machine
end

