-- ==== Sys2Proof/Machine/KeyGen.lean ====
section
/-!
DEFINITION. Machine/KeyGen.lean: the key pair generator and GENKEYS (44_keygen.md R190 to R198).
-/

namespace Sys2Proof.Machine

/-- Go on with a finished computation; an error, a wait or a bad answer ends the whole (R243: an error
"propagates outwards through its callers without being caught"). -/
def Run.andThen {α β : Type} (f : α → Word → List Nat → Run β) : Run α → Run β
  | .done a att rest => f a att rest
  | .raised e att rest => .raised e att rest
  | .wait req att => .wait req att
  | .outOfRange req => .outOfRange req

/-- The distinctness loop of R192: generate q, and again while q = p. Every pass that goes on has read an
answer, so fuel above the number of answers is never used up. -/
def distinctLoop (h p : Nat) (maxatt : Word) : Nat → Word → List Nat → Run Nat
  | 0, att, _ => .wait (.randBits h) att
  | fuel + 1, att, ans =>
    (generatePrime h maxatt att ans).andThen fun q att' rest =>
      if q = p then distinctLoop h p maxatt fuel att' rest else .done q att' rest

/-- Two distinct probable primes of h bits, p first (R192). -/
def primePair (h : Nat) (maxatt att : Word) (ans : List Nat) : Run (Nat × Nat) :=
  (generatePrime h maxatt att ans).andThen fun p att' rest =>
    (distinctLoop h p maxatt (rest.length + 1) att' rest).andThen fun q att'' rest' =>
      .done (p, q) att'' rest'

/-- n, phi, e and d from p and q, or the error of R194. The InvalidModulus and BadOperand exits of
`mod_inverse` are kept though unreachable (R196). -/
def deriveKeys (p q : Nat) : Except CmdError KeyPair :=
  match selectExponent ((p - 1) * (q - 1)) with
  | none => .error .noCoprimeExponent
  | some e =>
    match modInverse e (((p - 1) * (q - 1) : Nat) : Int) with
    | .noInverse => .error .invalidModulus
    | .zeroModulus => .error .badOperand
    | .value d => .ok ⟨p * q, e, d.toNat⟩

/-- The whole algorithm of GENKEYS after its operand check (R192 to R194). -/
def generateKeys (bits : Nat) (maxatt : Word) (ans : List Nat) : Run KeyPair :=
  (primePair (bits / 2) maxatt 0 ans).andThen fun pq att rest =>
    match deriveKeys pq.1 pq.2 with
    | .error e => .raised e att rest
    | .ok k => .done k att rest

/-- GENKEYS: PUB_N, PUB_E, PRIV_N, PRIV_D <- a key pair of `bits` bits (R191, R193). -/
def execGenkeys (bits : Nat) (s : State) : Host.Outcome State Fault Refusal :=
  if bits % 2 = 1 ∨ bits < minKeyBits ∨ s.width < bits then .next (s.fail .badOperand)
  else s.conclude (.genkeys bits) State.writeKeys (generateKeys bits s.maxatt s.answers)

end Sys2Proof.Machine
end

