-- ==== Sys2Proof/Machine/Modexp.lean ====
section
/-!
DEFINITION. Machine/Modexp.lean: MODEXP (40_modexp.md R127).
-/

namespace Sys2Proof.Machine

/-- MODEXP: RES0 <- OPA ^ OPB mod OPC, or BadOperand for OPC = 0 (R127). -/
def execModexp (s : State) : Host.Outcome State Fault Refusal :=
  if s.opc = 0 then .next (s.fail .badOperand)
  else .next (s.ures0 (modexp s.opa s.opb s.opc)).complete

end Sys2Proof.Machine
end

