-- ==== Sys2Proof/Machine/HostPort.lean ====
section
/-!
DEFINITION. Machine/HostPort.lean: the host register space and the host's two operations (20_memory.md R60 to
R69). Every access at every offset has one outcome; ERROR changes nothing and reads data 0 (R61).
-/

namespace Sys2Proof.Machine

/-- The control and status registers (R31). -/
inductive Csr where
  | id | cfg | status | cmd | sign | msglen | maxatt | attcnt
  deriving DecidableEq, Repr

/-- The byte offset of a control register (R31). -/
def Csr.offset : Csr → Nat
  | .id => 0x00
  | .cfg => 0x04
  | .status => 0x08
  | .cmd => 0x0C
  | .sign => 0x10
  | .msglen => 0x14
  | .maxatt => 0x18
  | .attcnt => 0x1C

/-- The control register at an offset (R64). -/
def csrAt (addr : Nat) : Option Csr :=
  [Csr.id, .cfg, .status, .cmd, .sign, .msglen, .maxatt, .attcnt].find? (fun c => c.offset == addr)

/-- The offset of a big-number register's window, 0x1000 + 0x400*i (R64). -/
def BigReg.base (r : BigReg) : Nat := 0x1000 + 0x400 * r.number

/-- What a mapped offset reaches (R64). -/
inductive Location where
  | csr (c : Csr)
  | limb (r : BigReg) (j : Nat)
  | msgWord (j : Nat)
  deriving DecidableEq, Repr

/-- The offset of a location (R64). -/
def Location.offset : Location → Nat
  | .csr c => c.offset
  | .limb r j => r.base + 4 * j
  | .msgWord j => 0x4000 + 4 * j

/-- The address map for register width `width`: `none` for a misaligned (R62) or unmapped (R66) offset. -/
def locate (width addr : Nat) : Option Location :=
  if addr % 4 ≠ 0 then none
  else if addr < 0x1000 then (csrAt addr).map .csr
  else if addr < 0x3800 then
    if addr % 0x400 / 4 < width / 32 then
      (BigReg.all[(addr - 0x1000) / 0x400]?).map (fun r => .limb r (addr % 0x400 / 4))
    else none
  else if 0x4000 ≤ addr ∧ addr < 0x4400 then
    if (addr - 0x4000) / 4 < width / 32 then some (.msgWord ((addr - 0x4000) / 4)) else none
  else none

/-- The locations that exist at register width `width`: limbs and message words 0 to L-1 (R64). -/
def Location.present (width : Nat) : Location → Bool
  | .csr _ => true
  | .limb _ j => decide (j < width / 32)
  | .msgWord j => decide (j < width / 32)

/-- The locations the host may read while BUSY: ID, CFG and STATUS (R68). -/
def Location.readableWhileBusy : Location → Bool
  | .csr .id => true
  | .csr .cfg => true
  | .csr .status => true
  | _ => false

/-- Word `j` of the message window: MSG[4j] in the least significant byte lane (R69). -/
def State.msgWord (s : State) (j : Nat) : Word :=
  s.msg.read (4 * j + 3) ++ s.msg.read (4 * j + 2) ++ s.msg.read (4 * j + 1) ++ s.msg.read (4 * j)

/-- The word a mapped location reads as (R31 to R43, R65, R69); CMD reads 0 (R37). -/
def State.readLocation (s : State) : Location → Word
  | .csr .id => idWord
  | .csr .cfg => s.cfgWord
  | .csr .status => s.statusWord
  | .csr .cmd => 0
  | .csr .sign => s.signWord
  | .csr .msglen => s.msglen
  | .csr .maxatt => s.maxatt
  | .csr .attcnt => s.attcnt
  | .limb r j => Machine.limb (s.reg r) j
  | .msgWord j => s.msgWord j

/-- The four bytes of a bus word, byte lane 0 first (R69). -/
def wordBytes (d : Word) : List Byte :=
  [d.extractLsb' 0 8, d.extractLsb' 8 8, d.extractLsb' 16 8, d.extractLsb' 24 8]

/-- What a write of a mapped location does; `none` where the location is read-only (R67). Writing CMD is
the acceptance of a command (R95). -/
def State.writeLocation (s : State) (d : Word) : Location → Option State
  | .csr .id => none
  | .csr .cfg => none
  | .csr .status => none
  | .csr .cmd => some (s.accept d)
  | .csr .sign => some (s.writeSign d)
  | .csr .msglen => some { s with msglen := d }
  | .csr .maxatt => some { s with maxatt := d }
  | .csr .attcnt => none
  | .limb r j => if r.hostWritable then some (s.setReg r (setLimb (s.reg r) j d)) else none
  | .msgWord j => some { s with msg := s.msg.writeList (4 * j) (wordBytes d) }

/-- `HostRead(addr)` (R61, R68): it has no side effect (R63). -/
def hostRead (s : State) (addr : Nat) : Resp × Word :=
  match locate s.width addr with
  | none => (.error, 0)
  | some loc =>
    if s.busy && !loc.readableWhileBusy then (.error, 0) else (.okay, s.readLocation loc)

/-- `HostWrite(addr, data)` (R61): every write is refused while BUSY (R68). -/
def hostWrite (s : State) (addr : Nat) (data : Word) : Resp × State :=
  if s.busy then (.error, s)
  else
    match (locate s.width addr).bind (s.writeLocation data) with
    | none => (.error, s)
    | some t => (.okay, t)

end Sys2Proof.Machine
end

