-- ==== Sys2Proof/Machine/Sequencer.lean ====
section
/-!
DEFINITION. Machine/Sequencer.lean: what each agent does when its turn comes: the host's accesses (20_memory.md
R61), the random source's answers (10_state.md R53), reset (70_reset_and_hazards.md R270) and the CORE (R30).
-/

namespace Sys2Proof.Machine

/-- Reset, "one more input event, enabled in every state, whose result is the constant reset state" (R270).
W is a parameter, not state (R45), and what the outside world does next is its own; the requests made so far
are forgotten by counting the reset. -/
def State.afterReset (s : State) : State :=
  { State.resetOf s.width with inputs := s.inputs, epoch := s.epoch + 1 }

/-- The random source delivers the answer to a request made after `epoch` resets. The answer to a request that
a reset has made forgotten is ignored, whatever is outstanding now (R270); so is one that nothing asked for. -/
def State.deliver (s : State) (epoch v : Nat) : State :=
  match s.seq with
  | .busy word (some _) =>
    if epoch = s.epoch then { s with answers := s.answers ++ [v], seq := .busy word none } else s
  | .busy _ none => s
  | .idle => s

/-- The effect of one outside event. -/
def State.receive (s : State) : Input → State
  | .hostRead addr => { s with port := some (.read (hostRead s addr).1 (hostRead s addr).2) }
  | .hostWrite addr d => { (hostWrite s addr d).2 with port := some (.write (hostWrite s addr d).1) }
  | .answer epoch v => s.deliver epoch v
  | .reset => s.afterReset
  | .coreTurn => s

/-- The CORE's turn. IDLE it does nothing (R30, R256). BUSY it decodes the held word and runs the command
(R96) from its first statement to `done`, to `raise`, or to a request that is not answered; an illegal word
completes with IllegalCommand (R93, R94, R234). -/
def coreTurn (s : State) : Host.Outcome State Fault Refusal :=
  match s.seq with
  | .idle => .next s
  | .busy word _ =>
    match decode word with
    | .command i => exec i s
    | .illegal _ => .next (s.fail .illegalCommand)

/-- One step: the next outside event, or the CORE's turn where that event is `coreTurn` or there is none. -/
def nextStep (s : State) : Host.Outcome State Fault Refusal :=
  match s.inputs with
  | [] => coreTurn s
  | .coreTurn :: rest => coreTurn { s with inputs := rest }
  | .hostRead addr :: rest => .next ({ s with inputs := rest }.receive (.hostRead addr))
  | .hostWrite addr d :: rest => .next ({ s with inputs := rest }.receive (.hostWrite addr d))
  | .answer epoch v :: rest => .next ({ s with inputs := rest }.receive (.answer epoch v))
  | .reset :: rest => .next ({ s with inputs := rest }.receive .reset)

/-- A command word accepted and next in turn: what `HostWrite(0x0C, word)` leaves in an idle block (R95),
with the CORE's turn before any other event (log entry 5). -/
def State.holding (s : State) (word : Word) : State :=
  { s.accept word with inputs := .coreTurn :: s.inputs }

end Sys2Proof.Machine
end

