-- ==== Sys2Proof/Machine/Step.lean ====
section
/-!
DEFINITION. Machine/Step.lean: the step function, and the state in which a given command word runs next. The
block fetches no instructions (10_state.md R29); a command comes by a host write to CMD (R37, log entry 5).
-/

namespace Sys2Proof.Machine

/-- One step of the machine. -/
def step (s : State) : Host.Outcome State Fault Refusal := nextStep s

/-- The state in which the very next step decodes and runs the command word of `nbits` bits of `w`. -/
def State.withFetchWord (s : State) (nbits w : Nat) : State := s.holding (tableWord nbits w)

end Sys2Proof.Machine
end

