-- ==== Sys2Proof/Machine/Script.lean ====
section
/-!
DEFINITION. Machine/Script.lean: the host's script notation as the sequences of host accesses it stands for
(30_encoding.md R98, R99). A script only lists inputs; what they do is `State.receive`.
-/

namespace Sys2Proof.Machine

/-- `WR <csr>, v` (R98). -/
def scriptWrCsr (c : Csr) (v : Word) : List Input := [.hostWrite c.offset v]

/-- `WR <bn>, v`: limbs 0 to L-1 in that order (R98). -/
def scriptWrReg (width : Nat) (r : BigReg) (v : Nat) : List Input :=
  (List.range (width / 32)).map fun j => .hostWrite (r.base + 4 * j) (limb v j)

/-- `CMD <mnemonic> arg` (R98). -/
def scriptCmd (i : Instr) : List Input := [.hostWrite Csr.cmd.offset (encode i)]

/-- `WAIT` with `polls` reads of STATUS before the CORE's turn and one after it (R98: repeated until DONE). -/
def scriptWait (polls : Nat) : List Input :=
  List.replicate polls (.hostRead Csr.status.offset) ++ [.coreTurn, .hostRead Csr.status.offset]

/-- `RD <csr>` (R98). -/
def scriptRdCsr (c : Csr) : List Input := [.hostRead c.offset]

/-- `RD <bn>` (R98). -/
def scriptRdReg (width : Nat) (r : BigReg) : List Input :=
  (List.range (width / 32)).map fun j => .hostRead (r.base + 4 * j)

/-- The register value assembled from its limbs, limb 0 first (R65). -/
def assemble (ws : List Word) : Nat := ws.foldr (fun d acc => d.toNat + 2 ^ 32 * acc) 0

/-- `RDMSG` for a message of `len` bytes (R98). -/
def scriptRdMsg (len : Nat) : List Input :=
  .hostRead Csr.msglen.offset ::
    (List.range ((len + 3) / 4)).map fun j => .hostRead (0x4000 + 4 * j)

/-- `WRS OPA, v`, `old` the SIGN word the script reads (R99). -/
def scriptWrsA (width : Nat) (old : Word) (v : Int) : List Input :=
  scriptWrReg width .opa v.natAbs ++
    [.hostRead Csr.sign.offset,
     .hostWrite Csr.sign.offset ((old &&& 2) ||| (if v < 0 then 1 else 0))]

/-- `WRS OPB, v`, `old` the SIGN word the script reads (R99). -/
def scriptWrsB (width : Nat) (old : Word) (v : Int) : List Input :=
  scriptWrReg width .opb v.natAbs ++
    [.hostRead Csr.sign.offset,
     .hostWrite Csr.sign.offset ((old &&& 1) ||| (if v < 0 then 2 else 0))]

/-- Word `j` of a message, missing bytes taken as 0 (R99). -/
def messageWord (bs : List Byte) (j : Nat) : Word :=
  bs.getD (4 * j + 3) 0 ++ bs.getD (4 * j + 2) 0 ++ bs.getD (4 * j + 1) 0 ++ bs.getD (4 * j) 0

/-- `WRMSG bs`: the message words, then MSGLEN (R99). -/
def scriptWrMsg (bs : List Byte) : List Input :=
  ((List.range ((bs.length + 3) / 4)).map fun j => .hostWrite (0x4000 + 4 * j) (messageWord bs j)) ++
    scriptWrCsr .msglen (BitVec.ofNat 32 bs.length)

/-- What a list of host accesses leaves. -/
def State.receiveAll (s : State) (ins : List Input) : State := ins.foldl State.receive s

end Sys2Proof.Machine
end

