-- ==== Sys2Proof/Safety.lean ====
section
/-!
DEFINITION. Safety.lean: what counts as a sound state and how a command can end, in the terms the statements
use (60_exceptions.md R232, R233, R257).
-/

namespace Sys2Proof.Machine

/-- A request the spec lets the CORE make: RandBits(k) with 1 <= k <= W (R51), RandRange(lo, hi) with
lo <= hi < 2^W (R52). -/
def Request.Legal (width : Nat) : Request → Prop
  | .randBits k => 1 ≤ k ∧ k ≤ width
  | .randRange lo hi => lo ≤ hi ∧ hi < 2 ^ width

/-- Whether an answer lies in the range of a request (R51, R52). -/
def Request.Admits : Request → Nat → Prop
  | .randBits k, v => v < 2 ^ k
  | .randRange lo hi, v => lo ≤ v ∧ v ≤ hi

/-- The invariant of the block: W is legal (R5); every big-number register holds a value below 2^W (R21); the
message buffer is in canonical form and holds only existing indices (R40); BUSY and DONE are never both 1 and
a running command has no error pending (R34, R35); ERR is 1 only with DONE, exactly when ERRCODE is not 0
(R34), and ERRCODE is one of the codes 0 to 6 (R231); a zero result has its sign bit clear (R25); an
outstanding request is one the spec allows, of a command (R51 to R53). -/
structure State.Inv (s : State) : Prop where
  width : Config.LegalWidth s.width
  regs : ∀ r, s.reg r < 2 ^ s.width
  msgForm : s.msg.wf = true
  msgIndex : ∀ c ∈ s.msg, c.1 < s.msgBytes
  busyClear : s.busy = true → s.done = false ∧ s.err = false
  errDone : s.err = true → s.done = true
  errForm : s.err = true ↔ s.errcode ≠ 0
  errRange : s.errcode.toNat ≤ 6
  zeroSign0 : s.res0Neg = true → s.res0 ≠ 0
  zeroSign1 : s.res1Neg = true → s.res1 ≠ 0
  zeroSign2 : s.res2Neg = true → s.res2 ≠ 0
  request : ∀ word req, s.seq = .busy word (some req) →
    req.Legal s.width ∧ ∃ i, decode word = .command i

/-- The command `i` run at `s` completes without error in `t` (R232), for `s` with no error pending. -/
def Succeeds (i : Instr) (s t : State) : Prop :=
  exec i s = .next t ∧ t.busy = false ∧ t.err = false

/-- The command `i` run at `s` ends in `t` with the error `e` (R233), for `s` with no error pending. -/
def FailsWith (i : Instr) (s : State) (e : CmdError) (t : State) : Prop :=
  exec i s = .next t ∧ t.busy = false ∧ t.err = true ∧ t.errcode = e.code

/-- The command `i` run at `s` is still running in `t`, a request of it unanswered (R53). -/
def Waits (i : Instr) (s t : State) : Prop := exec i s = .next t ∧ t.busy = true

/-- The commands that draw from the random source (R22, C6 of 90_conflicts.md). -/
def Draws : Instr → Prop
  | .isprime _ | .genprime _ | .genkeys _ => True
  | .modexp | .egcd | .modinv | .encrypt | .decrypt => False

/-- `block` is a run of answers with which the generator draws the h-bit candidate `p` and all sixteen
rounds are answered in range (R176, R177). -/
def DrawBlock (h p : Nat) (block : List Nat) : Prop :=
  ∃ v ws, block = v :: ws ∧ v < 2 ^ h ∧ v ||| 2 ^ (h - 1) ||| 1 = p ∧ ws.length = 16 ∧
    ∀ a ∈ ws, 2 ≤ a ∧ a ≤ p - 2

/-- `block` is the answers that one candidate of the generator reads: the one that forms the k-bit candidate `c`,
then exactly the witnesses the sixteen rounds draw before their verdict `accepted` (R176, R177). -/
def CandidateBlock (k c : Nat) (accepted : Bool) (block : List Nat) : Prop :=
  ∃ v ws, block = v :: ws ∧ v < 2 ^ k ∧ v ||| 2 ^ (k - 1) ||| 1 = c ∧
    isProbablePrime c 16 ws = .done accepted []

/-- A candidate of the generator, the tester's verdict on it and the answers it has read. -/
structure Candidate where
  value : Nat
  accepted : Bool
  block : List Nat
  deriving DecidableEq, Repr

/-- The accepted candidates, in the order drawn. -/
def acceptedValues (draws : List Candidate) : List Nat := (draws.filter Candidate.accepted).map Candidate.value

/-- From `s` to `t` a command has drawn exactly the k-bit candidates `draws`: the answers it has read are theirs,
ATTCNT is their number, saturating, and MAXATT, if not 0, allows them (R42, R177). -/
structure DrawnBetween (k : Nat) (draws : List Candidate) (s t : State) : Prop where
  blocks : ∀ c ∈ draws, CandidateBlock k c.value c.accepted c.block
  answers : s.answers = (draws.map Candidate.block).flatten ++ t.answers
  count : t.attcnt.toNat = min draws.length (2 ^ 32 - 1)
  cap : s.maxatt ≠ 0 → draws.length ≤ s.maxatt.toNat

/-- From `s` to `t` GENKEYS has drawn its two h-bit primes: the accepted candidates are p, any number of p again,
and last of all q, which is not p (R192). -/
def PairDrawn (h p q : Nat) (s t : State) : Prop :=
  p ≠ q ∧ ∃ (draws : List Candidate) (again : Nat) (block : List Nat),
    DrawnBetween h (draws ++ [⟨q, true, block⟩]) s t ∧ acceptedValues draws = p :: List.replicate again p

/-- `s` and `u` agree on W and on all that the command reads (R22, the "reads" column). -/
def ReadsAgree (i : Instr) (s u : State) : Prop :=
  s.width = u.width ∧
    match i with
    | .modexp => s.opa = u.opa ∧ s.opb = u.opb ∧ s.opc = u.opc
    | .egcd | .modinv =>
      s.opa = u.opa ∧ s.opb = u.opb ∧ s.opaNeg = u.opaNeg ∧ s.opbNeg = u.opbNeg
    | .isprime _ => s.opa = u.opa ∧ s.answers = u.answers
    | .genprime _ | .genkeys _ => s.maxatt = u.maxatt ∧ s.answers = u.answers
    | .encrypt =>
      (∀ k, k < s.msglen.toNat → s.msg.read k = u.msg.read k) ∧ s.msglen = u.msglen ∧
        s.pubN = u.pubN ∧ s.pubE = u.pubE
    | .decrypt => s.opa = u.opa ∧ s.privN = u.privN ∧ s.privD = u.privD

/-- `t` and `v` agree on all that the command writes beside STATUS when it ends without error (R22, the
"writes" column), and on what the random source has left to answer. -/
def WritesAgree (i : Instr) (t v : State) : Prop :=
  match i with
  | .modexp | .modinv | .encrypt => t.res0 = v.res0 ∧ t.res0Neg = v.res0Neg
  | .egcd =>
    t.res0 = v.res0 ∧ t.res1 = v.res1 ∧ t.res2 = v.res2 ∧ t.res0Neg = v.res0Neg ∧
      t.res1Neg = v.res1Neg ∧ t.res2Neg = v.res2Neg
  | .isprime _ => t.prime = v.prime ∧ t.answers = v.answers
  | .genprime _ =>
    t.res0 = v.res0 ∧ t.res0Neg = v.res0Neg ∧ t.attcnt = v.attcnt ∧ t.answers = v.answers
  | .genkeys _ =>
    t.pubN = v.pubN ∧ t.pubE = v.pubE ∧ t.privN = v.privN ∧ t.privD = v.privD ∧
      t.attcnt = v.attcnt ∧ t.answers = v.answers
  | .decrypt => (∀ k, k < t.msgBytes → t.msg.read k = v.msg.read k) ∧ t.msglen = v.msglen

/-- The command `i` run at `s` has ended: it completed, with or without error, or it was refused because an
answer of the random source lay outside the range of its request (R53). -/
def Ends (i : Instr) (s : State) : Prop :=
  (∃ t, exec i s = .next t ∧ t.busy = false) ∨
  ∃ req v, exec i s = .refused (.randomOutOfRange req) ∧ v ∈ s.answers ∧ ¬ req.Admits v

/-- Change the next state of an outcome, if it is one. -/
def mapNext (f : State → State) :
    Host.Outcome State Fault Refusal → Host.Outcome State Fault Refusal
  | .next s => .next (f s)
  | .fault r => .fault r
  | .refused r => .refused r

end Sys2Proof.Machine
end

