-- ==== Sys2Proof/Certificates/Slice0/Obligations.lean ====
section
/-!
DEFINITION. Certificates/Slice0/Obligations.lean: the statements for the provers. Each formalises a rule of the
spec or, where its docstring says so, follows from cited sections or names a choice of the model's log.
-/

open Sys2Proof Sys2Proof.Machine

/-! ### Encoding and decoding -/

/-- 30_encoding.md sections 1 and 2: the encoding of every well-formed command decodes to that command, its
argument at every value the 24-bit field admits; and a word that decodes to a command is that command's
encoding, so each legal word has one meaning and each command one word. -/
def Obligations.DecodeAndEncodeAgree : Prop :=
  (∀ i : Instr, i.wellFormed = true → decode (encode i) = .command i) ∧
  ∀ (w : Word) (i : Instr), decode w = .command i → i.wellFormed = true ∧ encode i = w

/-- R92: "a word w selects the row iff (w AND mask) = match"; a word that selects no row is illegal. -/
def Obligations.DecodeFollowsOpcodeMap : Prop :=
  ∀ w : Word,
    (∀ row ∈ opcodeTable, w &&& row.mask = row.pattern → decode w = .command (row.command (argOf w))) ∧
    ((∀ row ∈ opcodeTable, w &&& row.mask ≠ row.pattern) → ∃ why, decode w = .illegal why)

/-- 30_encoding.md section 2: words written out from the opcode map and the field layout decode to the
commands they stand for. -/
def Obligations.SampleWordsDecode : Prop :=
  decode 0x00000001 = .command .modexp ∧ decode 0x00000002 = .command .egcd ∧
  decode 0x00000003 = .command .modinv ∧ decode 0x00001004 = .command (.isprime 16) ∧
  decode 0x00010005 = .command (.genprime 256) ∧ decode 0x00020006 = .command (.genkeys 512) ∧
  decode 0x00000007 = .command .encrypt ∧ decode 0x00000008 = .command .decrypt ∧
  decode 0x00000000 = .illegal .reservedOpcode ∧ decode 0x00000009 = .illegal .reservedOpcode ∧
  decode 0x00000101 = .illegal .reservedArg ∧ decode 0x80000002 = .illegal .reservedArg

/-- R93 and R94: a word with a reserved opcode, or with a non-zero ARG where ARG must be 0, is accepted (the
host sees OKAY, SEQ becomes BUSY) and its command completes at once with IllegalCommand (code 1), nothing
else changed; every word selects one row of the opcode map or is illegal. (`port` is where the model keeps the bus
response, log entry 4.) -/
def Obligations.IllegalWordsEndInIllegalCommand : Prop :=
  (∀ (s : State) (word : Word) (rest : List Input),
    s.seq = .idle → s.inputs = .hostWrite 0x0C word :: .coreTurn :: rest →
    (opcodeOf word = 0x00 ∨ 0x09 ≤ opcodeOf word ∨
      (opcodeOf word ∈ [0x01, 0x02, 0x03, 0x07, 0x08] ∧ argOf word ≠ 0)) →
    ∃ t, step s = .next t ∧ t.seq = .busy word none ∧
      step t = .next { s with inputs := rest, port := some (.write .okay), seq := .idle, done := true,
                              err := true, errcode := 1 }) ∧
  ∀ word : Word, (∃! row, row ∈ opcodeTable ∧ word &&& row.mask = row.pattern) ∨
    ∃ why, decode word = .illegal why

/-! ### Acceptance and the step -/

/-- R95: a write of CMD while SEQ = IDLE returns OKAY and makes, as one step, SEQ BUSY with the word held and
DONE, ERR and ERRCODE cleared, whatever they were; while SEQ = BUSY it is refused. -/
def Obligations.CommandAcceptance : Prop :=
  ∀ (s : State) (word : Word),
    (s.seq = .idle → hostWrite s 0x0C word =
      (.okay, { s with seq := .busy word none, done := false, err := false, errcode := 0 })) ∧
    (s.busy = true → hostWrite s 0x0C word = (.error, s))

/-- 30_encoding.md section 3: when the held word decodes to a command, the CORE's turn, which comes when the
next input is `coreTurn` or there is none (the model's inputs, log entry 3), is the execution of that command. -/
def Obligations.StepRunsHeldCommand : Prop :=
  ∀ (s : State) (word : Word) (req : Option Request) (i : Instr),
    s.seq = .busy word req → decode word = .command i →
    (s.inputs = [] → step s = exec i s) ∧
    ∀ rest, s.inputs = .coreTurn :: rest → step s = exec i { s with inputs := rest }

/-- 30_encoding.md section 3 (log entry 5 says how a command comes to run): the state in which a table word
runs next is what a host write of that word to CMD leaves in an idle block, and its next step is the
execution of the word's command there. -/
def Obligations.FetchWordRunsAcceptedCommand : Prop :=
  ∀ (s : State) (nbits w : Nat) (i : Instr), decodeTableWord nbits w = some i →
    (s.seq = .idle → s.withFetchWord nbits w =
      { (hostWrite s 0x0C (tableWord nbits w)).2 with inputs := .coreTurn :: s.inputs }) ∧
    step (s.withFetchWord nbits w) =
      exec i { s with seq := .busy (tableWord nbits w) none, done := false, err := false, errcode := 0 }

/-- 60_exceptions.md section 6 and 20_memory.md section 5: an idle CORE does nothing, whether its turn comes for
want of an input or by the input `coreTurn`; every other input is one step of its own, taken in the order of the
inputs (the model's choice, log entry 3). -/
def Obligations.InputsAreTakenInOrder : Prop :=
  ∀ s : State,
    (s.seq = .idle → s.inputs = [] → step s = .next s) ∧
    (∀ rest, s.seq = .idle → s.inputs = .coreTurn :: rest → step s = .next { s with inputs := rest }) ∧
    ∀ e rest, s.inputs = e :: rest → e ≠ .coreTurn →
      step s = .next ({ s with inputs := rest }.receive e)

/-! ### The host port -/

/-- 20_memory.md section 2 and 60_exceptions.md section 2: an access that returns ERROR changes no state,
STATUS included, and a read that returns ERROR returns data 0. An access as an event has the effect of the access,
a read none, and nothing more but that the model records the response in `port` (log entry 4). -/
def Obligations.BusErrorChangesNothing : Prop :=
  ∀ (s : State) (addr : Nat) (d : Word),
    ((hostWrite s addr d).1 = .error → (hostWrite s addr d).2 = s) ∧
    ((hostRead s addr).1 = .error → (hostRead s addr).2 = 0) ∧
    s.receive (.hostRead addr) = { s with port := some (.read (hostRead s addr).1 (hostRead s addr).2) } ∧
    s.receive (.hostWrite addr d) =
      { (hostWrite s addr d).2 with port := some (.write (hostWrite s addr d).1) }

/-- R68: while SEQ = BUSY the host reads ID, CFG and STATUS (BUSY = 1, DONE = 0, ERR = 0, ERRCODE = 0 and
PRIME at its old value), every other read and every write returns ERROR and changes nothing. -/
def Obligations.BusyWindow : Prop :=
  ∀ s : State, s.Inv → s.busy = true →
    hostRead s 0x00 = (.okay, 0x424D5201) ∧
    hostRead s 0x04 = (.okay, BitVec.ofNat 32 s.width) ∧
    hostRead s 0x08 = (.okay, if s.prime then 0x9 else 0x1) ∧
    (∀ addr, addr ≠ 0x00 → addr ≠ 0x04 → addr ≠ 0x08 → hostRead s addr = (.error, 0)) ∧
    ∀ addr d, hostWrite s addr d = (.error, s)

/-- R62, R64 and R66: for every legal W the address map reaches exactly the locations of the map, each at its own
offset, the windows of the ten registers and of the message and the control registers where R64 puts them; a
misaligned or unmapped offset, or one at or above 0x4400, gets ERROR. -/
def Obligations.AddressMap : Prop :=
  (∀ width addr loc, Config.LegalWidth width →
    (locate width addr = some loc ↔ loc.offset = addr ∧ loc.present width = true)) ∧
  (∀ j, (Location.limb .opa j).offset = 0x1000 + 4 * j ∧ (Location.limb .opb j).offset = 0x1400 + 4 * j ∧
    (Location.limb .opc j).offset = 0x1800 + 4 * j ∧ (Location.limb .res0 j).offset = 0x1C00 + 4 * j ∧
    (Location.limb .res1 j).offset = 0x2000 + 4 * j ∧ (Location.limb .res2 j).offset = 0x2400 + 4 * j ∧
    (Location.limb .pubN j).offset = 0x2800 + 4 * j ∧ (Location.limb .pubE j).offset = 0x2C00 + 4 * j ∧
    (Location.limb .privN j).offset = 0x3000 + 4 * j ∧ (Location.limb .privD j).offset = 0x3400 + 4 * j ∧
    (Location.msgWord j).offset = 0x4000 + 4 * j) ∧
  ((Location.csr .id).offset = 0x00 ∧ (Location.csr .cfg).offset = 0x04 ∧ (Location.csr .status).offset = 0x08 ∧
    (Location.csr .cmd).offset = 0x0C ∧ (Location.csr .sign).offset = 0x10 ∧
    (Location.csr .msglen).offset = 0x14 ∧ (Location.csr .maxatt).offset = 0x18 ∧
    (Location.csr .attcnt).offset = 0x1C) ∧
  (∀ width j, (∀ r, (Location.limb r j).present width = true ↔ j < width / 32) ∧
    ((Location.msgWord j).present width = true ↔ j < width / 32)) ∧
  (∀ width c, (Location.csr c).present width = true) ∧
  ∀ (s : State) (addr : Nat) (d : Word), Config.LegalWidth s.width →
    (addr % 4 ≠ 0 ∨ 0x4400 ≤ addr ∨ ∀ loc : Location, loc.present s.width = true → loc.offset ≠ addr) →
    hostRead s addr = (.error, 0) ∧ hostWrite s addr d = (.error, s)

/-- R65: limb j of a register is its bits 32*j+31 down to 32*j; a read of the limb's address returns it; a
write of the limb of a read/write register replaces it and leaves the other limbs unchanged. Each register is the
field of the state that bears its name. -/
def Obligations.LimbAccess : Prop :=
  (∀ s : State, s.reg .opa = s.opa ∧ s.reg .opb = s.opb ∧ s.reg .opc = s.opc ∧ s.reg .res0 = s.res0 ∧
    s.reg .res1 = s.res1 ∧ s.reg .res2 = s.res2 ∧ s.reg .pubN = s.pubN ∧ s.reg .pubE = s.pubE ∧
    s.reg .privN = s.privN ∧ s.reg .privD = s.privD ∧ ∀ v,
      s.setReg .opa v = { s with opa := v } ∧ s.setReg .opb v = { s with opb := v } ∧
      s.setReg .opc v = { s with opc := v } ∧ s.setReg .pubN v = { s with pubN := v } ∧
      s.setReg .pubE v = { s with pubE := v } ∧ s.setReg .privN v = { s with privN := v } ∧
      s.setReg .privD v = { s with privD := v }) ∧
  (∀ r : BigReg, r.hostWritable = true ↔ r ≠ .res0 ∧ r ≠ .res1 ∧ r ≠ .res2) ∧
  ∀ (s : State) (r : BigReg) (j : Nat), s.Inv → s.seq = .idle → j < s.limbs →
    hostRead s (r.base + 4 * j) = (.okay, limb (s.reg r) j) ∧
    (limb (s.reg r) j).toNat = s.reg r / 2 ^ (32 * j) % 2 ^ 32 ∧
    s.reg r = ∑ k ∈ Finset.range s.limbs, (limb (s.reg r) k).toNat * 2 ^ (32 * k) ∧
    ∀ d, r.hostWritable = true →
      ∃ v, hostWrite s (r.base + 4 * j) d = (.okay, s.setReg r v) ∧ v < 2 ^ s.width ∧
        limb v j = d ∧ ∀ k, k ≠ j → limb v k = limb (s.reg r) k

/-- R67: a write to ID, CFG, STATUS, ATTCNT or a limb of RES0, RES1, RES2 returns ERROR and changes nothing; a
write to SIGN is not refused and writes bits 1:0; a read of CMD returns 0. -/
def Obligations.ReadOnlyLocations : Prop :=
  ∀ (s : State) (d : Word), s.Inv → s.seq = .idle →
    (∀ c ∈ [Csr.id, Csr.cfg, Csr.status, Csr.attcnt], hostWrite s c.offset d = (.error, s)) ∧
    (∀ r ∈ [BigReg.res0, BigReg.res1, BigReg.res2], ∀ j, j < s.limbs →
      hostWrite s (r.base + 4 * j) d = (.error, s)) ∧
    hostWrite s 0x10 d = (.okay, { s with opaNeg := d.getLsbD 0, opbNeg := d.getLsbD 1 }) ∧
    hostRead s 0x0C = (.okay, 0)

/-- R69: word j of the message window holds MSG[4j] to MSG[4j+3], MSG[4j+i] in bits 8*i+7 down to 8*i; a write
replaces those four bytes, every other byte, MSGLEN and all else unchanged. -/
def Obligations.MessageWindow : Prop :=
  ∀ (s : State) (j : Nat), s.Inv → s.seq = .idle → j < s.limbs →
    (∃ w, hostRead s (0x4000 + 4 * j) = (.okay, w) ∧
      ∀ i, i < 4 → w.extractLsb' (8 * i) 8 = s.msg.read (4 * j + i)) ∧
    ∀ d : Word, ∃ m, hostWrite s (0x4000 + 4 * j) d = (.okay, { s with msg := m }) ∧
      (∀ i, i < 4 → m.read (4 * j + i) = d.extractLsb' (8 * i) 8) ∧
      ∀ k, k < 4 * j ∨ 4 * j + 4 ≤ k → m.read k = s.msg.read k

/-- R34: the fields of STATUS; reserved bits read 0; host writes are refused; BUSY and DONE are never both 1. -/
def Obligations.StatusRegister : Prop :=
  ∀ s : State,
    (∃ w, hostRead s 0x08 = (.okay, w) ∧ w.getLsbD 0 = s.busy ∧ w.getLsbD 1 = s.done ∧
      w.getLsbD 2 = s.err ∧ w.getLsbD 3 = s.prime ∧ w.extractLsb' 4 4 = 0 ∧
      w.extractLsb' 8 8 = s.errcode ∧ w.extractLsb' 16 16 = 0) ∧
    (∀ d, hostWrite s 0x08 d = (.error, s)) ∧
    (s.Inv → ¬(s.busy = true ∧ s.done = true))

/-- R38: SIGN reads the operand signs in bits 0 and 1, the result signs in bits 8, 9 and 10 and 0 elsewhere; a
write while SEQ = IDLE sets OPA_NEG and OPB_NEG from bits 0 and 1 and ignores every other bit. -/
def Obligations.SignRegister : Prop :=
  ∀ s : State, s.seq = .idle →
    (∃ w, hostRead s 0x10 = (.okay, w) ∧
      ∀ k, w.getLsbD k =
        if k = 0 then s.opaNeg else if k = 1 then s.opbNeg else if k = 8 then s.res0Neg
        else if k = 9 then s.res1Neg else if k = 10 then s.res2Neg else false) ∧
    ∀ d, hostWrite s 0x10 d = (.okay, { s with opaNeg := d.getLsbD 0, opbNeg := d.getLsbD 1 })

/-- 10_state.md section 4: MSGLEN and MAXATT take and show every 32-bit value, ATTCNT is shown. -/
def Obligations.LengthAndCapRegisters : Prop :=
  ∀ (s : State) (d : Word), s.seq = .idle →
    hostWrite s 0x14 d = (.okay, { s with msglen := d }) ∧ hostRead s 0x14 = (.okay, s.msglen) ∧
    hostWrite s 0x18 d = (.okay, { s with maxatt := d }) ∧ hostRead s 0x18 = (.okay, s.maxatt) ∧
    hostRead s 0x1C = (.okay, s.attcnt)

/-- R32 and R33: ID reads as 0x424D5201 and CFG as W in bits 15:0 with bits 31:16 zero, in every state; writes
are refused; no step changes W. -/
def Obligations.IdentificationIsConstant : Prop :=
  ∀ s : State, Config.LegalWidth s.width →
    hostRead s 0x00 = (.okay, 0x424D5201) ∧
    (∃ w, hostRead s 0x04 = (.okay, w) ∧ (w.extractLsb' 0 16).toNat = s.width ∧ w.extractLsb' 16 16 = 0) ∧
    (∀ d, hostWrite s 0x00 d = (.error, s) ∧ hostWrite s 0x04 d = (.error, s)) ∧
    ∀ t, step s = .next t → t.width = s.width

/-- 30_encoding.md section 4: the script line `WR <bn>, v` leaves v in the register, all limbs of it, and
`WRMSG bs` leaves bs as the message MSG[0 .. MSGLEN-1], the missing bytes of its last word 0 and every byte of
MSG behind that word as it was; nothing else changes but the port, where the model keeps the last bus response
(log entry 4). -/
def Obligations.ScriptLinesWriteWhatTheySay : Prop :=
  ∀ s : State, Config.LegalWidth s.width → s.seq = .idle →
    (∀ (r : BigReg) (v : Nat), r.hostWritable = true → v < 2 ^ s.width → s.reg r < 2 ^ s.width →
      s.receiveAll (scriptWrReg s.width r v) = { s.setReg r v with port := some (.write .okay) }) ∧
    ∀ bs : List Byte, s.msg.wf = true → bs.length ≤ s.msgBytes →
      ∃ m, s.receiveAll (scriptWrMsg bs) =
          { s with msg := m, msglen := BitVec.ofNat 32 bs.length, port := some (.write .okay) } ∧
        m.readList 0 bs.length = bs ∧
        (∀ k, bs.length ≤ k → k < 4 * ((bs.length + 3) / 4) → m.read k = 0) ∧
        ∀ k, 4 * ((bs.length + 3) / 4) ≤ k → m.read k = s.msg.read k

/-! ### Reset -/

/-- R55 and 70_reset_and_hazards.md section 1: reset, from any state, BUSY or not, puts every piece of architectural
state to the value of the table; W, a parameter, and what the outside world does next stay. The abandoned command's
answers are dropped and the record of the port is emptied (log entries 6 and 4). An answer to a request made before
the reset is ignored in every later state: the count of resets that an answer names, the model's way to tell
requests apart (log entry 6), rises with a reset and never falls. -/
def Obligations.ResetFromEveryState : Prop :=
  (∀ (s : State) (rest : List Input), Config.LegalWidth s.width → s.inputs = .reset :: rest →
    ∃ t, step s = .next t ∧ t.inputs = rest ∧ t.width = s.width ∧ (∀ r, t.reg r = 0) ∧
      (∀ k, t.msg.read k = 0) ∧ t.msglen = 0 ∧
      t.opaNeg = false ∧ t.opbNeg = false ∧ t.res0Neg = false ∧ t.res1Neg = false ∧ t.res2Neg = false ∧
      t.busy = false ∧ t.done = false ∧ t.err = false ∧ t.prime = false ∧ t.errcode = 0 ∧
      t.maxatt = 0 ∧ t.attcnt = 0 ∧ t.seq = .idle ∧ t.answers = [] ∧ t.port = none ∧
      s.epoch < t.epoch ∧
      hostRead t 0x00 = (.okay, 0x424D5201) ∧ hostRead t 0x04 = (.okay, BitVec.ofNat 32 s.width)) ∧
  (∀ s t : State, step s = .next t → s.epoch ≤ t.epoch) ∧
  ∀ (s : State) (epoch v : Nat) (rest : List Input), s.inputs = .answer epoch v :: rest → epoch < s.epoch →
    step s = .next { s with inputs := rest }

/-- 70_reset_and_hazards.md section 2: what each command does in the pure reset state. That ATTCNT already counts
the candidate whose RandBits request is outstanding is the model's choice, log entry 2. -/
def Obligations.CommandsInResetState : Prop :=
  ∀ (width : Nat) (word : Word) (s : State), Config.LegalWidth width →
    s = (State.resetOf width).accept word →
    exec .modexp s = .next { s with seq := .idle, done := true, err := true, errcode := 2 } ∧
    exec .egcd s = .next { s with seq := .idle, done := true, res1 := 1 } ∧
    exec .modinv s = .next { s with seq := .idle, done := true, err := true, errcode := 3 } ∧
    (∀ rounds, 1 ≤ rounds → exec (.isprime rounds) s = .next { s with seq := .idle, done := true }) ∧
    (∀ k, 2 ≤ k → k ≤ width → exec (.genprime k) s =
      .next { s with seq := .busy (encode (.genprime k)) (some (.randBits k)), attcnt := 1 }) ∧
    (∀ bits, bits % 2 = 0 → 8 ≤ bits → bits ≤ width → exec (.genkeys bits) s =
      .next { s with seq := .busy (encode (.genkeys bits)) (some (.randBits (bits / 2))), attcnt := 1 }) ∧
    exec .encrypt s = .next { s with seq := .idle, done := true, err := true, errcode := 5 } ∧
    exec .decrypt s = .next { s with seq := .idle, done := true, err := true, errcode := 2 }

/-! ### MODEXP -/

/-- R125: `modexp(b, e, n)` for n >= 1 is (b^e) mod n, below n; b need not be below n. -/
def Obligations.ModexpIsPowerModulo : Prop :=
  ∀ b e n : Nat, 1 ≤ n →
    modexp b e n = b ^ e % n ∧ modexp b e n < n ∧ modexp b e n = modexp (b % n) e n

/-- R127: MODEXP raises BadOperand iff OPC = 0, changing nothing but STATUS; otherwise RES0 is OPA^OPB mod OPC,
its sign bit cleared, and nothing else changes; its only word is 0x00000001, and ARG != 0 is illegal. -/
def Obligations.ModexpCommand : Prop :=
  (∀ s : State, s.opc = 0 →
    exec .modexp s = .next { s with seq := .idle, done := true, err := true, errcode := 2 }) ∧
  (∀ s : State, s.opc ≠ 0 →
    exec .modexp s = .next { s with res0 := s.opa ^ s.opb % s.opc, res0Neg := false, seq := .idle,
                                    done := true }) ∧
  decode 0x00000001 = .command .modexp ∧
  ∀ w : Word, opcodeOf w = 0x01 → argOf w ≠ 0 → decode w = .illegal .reservedArg

/-! ### EGCD and MODINV -/

/-- 41_modinv.md section 1: the engine's triple satisfies the Bezout identity, |g| is the greatest common divisor
of the magnitudes, and the sign of g is the sign of b, or of a when b = 0; the triples for a zero operand. -/
def Obligations.EgcdBezoutAndSign : Prop :=
  ∀ a b : Int, a * (egcd a b).x + b * (egcd a b).y = (egcd a b).g ∧
    (egcd a b).g.natAbs = Nat.gcd a.natAbs b.natAbs ∧
    (0 < b → 0 < (egcd a b).g) ∧ (b < 0 → (egcd a b).g < 0) ∧
    egcd a 0 = ⟨a, 1, 0⟩ ∧ (b ≠ 0 → egcd 0 b = ⟨b, 0, 1⟩)

/-- 41_modinv.md section 1: the coefficients are bounded by the other operand's magnitude, so operands below
2^W give results below 2^W. -/
def Obligations.EgcdResultsFit : Prop :=
  ∀ a b : Int,
    (egcd a b).x.natAbs ≤ max 1 b.natAbs ∧ (egcd a b).y.natAbs ≤ max 1 a.natAbs ∧
    (egcd a b).g.natAbs ≤ max a.natAbs b.natAbs ∧
    ∀ w : Nat, 1 ≤ w → a.natAbs < 2 ^ w → b.natAbs < 2 ^ w →
      (egcd a b).x.natAbs < 2 ^ w ∧ (egcd a b).y.natAbs < 2 ^ w ∧ (egcd a b).g.natAbs < 2 ^ w

/-- 41_modinv.md section 1: the iterative engine returns the triple of the recursive form, for every pair of
operands. -/
def Obligations.EgcdEqualsRecursiveForm : Prop :=
  ∀ a b : Int, egcd a b =
    if b = 0 then ⟨a, 1, 0⟩
    else ⟨(egcd b (a.fmod b)).g, (egcd b (a.fmod b)).y,
      (egcd b (a.fmod b)).x - a.fdiv b * (egcd b (a.fmod b)).y⟩

/-- 41_modinv.md section 2 with 10_state.md section 2: EGCD always completes; RES0, RES1 and RES2 with their
sign bits are the signed g, x and y of the signed operands, and nothing else changes. -/
def Obligations.EgcdCommand : Prop :=
  ∀ (s : State) (a b : Int),
    a = (if s.opaNeg then -(s.opa : Int) else s.opa) → b = (if s.opbNeg then -(s.opb : Int) else s.opb) →
    ∃ g x y : Int, a * x + b * y = g ∧ g.natAbs = Nat.gcd s.opa s.opb ∧ (⟨g, x, y⟩ : Bezout) = egcd a b ∧
      exec .egcd s = .next { s with res0 := g.natAbs, res1 := x.natAbs, res2 := y.natAbs,
                                    res0Neg := decide (g < 0), res1Neg := decide (x < 0),
                                    res2Neg := decide (y < 0), seq := .idle, done := true }

/-- R145: the value of `mod_inverse(a, m)` by the sign of m, and the gcd it rests on. -/
def Obligations.ModInverseBySign : Prop :=
  ∀ a m : Int,
    (2 ≤ m → 0 < (egcd a m).g ∧ ((egcd a m).g = 1 ↔ Int.gcd a m = 1) ∧
      (Int.gcd a m = 1 → ∃ v, modInverse a m = .value v ∧ 0 ≤ v ∧ v < m ∧ a * v ≡ 1 [ZMOD m] ∧
        ∀ u, 0 ≤ u → u < m → a * u ≡ 1 [ZMOD m] → u = v) ∧
      (Int.gcd a m ≠ 1 → modInverse a m = .noInverse)) ∧
    ((egcd a 1).g = 1 ∧ modInverse a 1 = .value 0) ∧
    ((egcd a 0).g = a ∧ (a = 1 ∨ a = -1 → modInverse a 0 = .zeroModulus) ∧
      (a ≠ 1 → a ≠ -1 → modInverse a 0 = .noInverse)) ∧
    ((egcd a (-1)).g = -1 ∧ modInverse a (-1) = .value 0) ∧
    (m ≤ -2 → (egcd a m).g < 0 ∧ ((egcd a m).g = -1 ↔ Int.gcd a m = 1) ∧
      (Int.gcd a m = 1 → ∃ v, modInverse a m = .value v ∧ m < v ∧ v ≤ 0 ∧ a * v ≡ -1 [ZMOD -m]) ∧
      (Int.gcd a m ≠ 1 → modInverse a m = .noInverse))

/-- 41_modinv.md section 4: MODINV writes the signed inverse to RES0 when the gcd is 1 or -1 and the modulus is
not 0, and nothing else; InvalidModulus and BadOperand change nothing but STATUS. -/
def Obligations.ModinvCommand : Prop :=
  ∀ (s : State) (a m : Int),
    a = (if s.opaNeg then -(s.opa : Int) else s.opa) → m = (if s.opbNeg then -(s.opb : Int) else s.opb) →
    (Nat.gcd s.opa s.opb = 1 → s.opb ≠ 0 →
      ∃ v : Int, a * v ≡ m.sign [ZMOD m] ∧ v.natAbs < s.opb ∧ (v ≠ 0 → v.sign = m.sign) ∧
        exec .modinv s = .next { s with res0 := v.natAbs, res0Neg := decide (v < 0), seq := .idle,
                                        done := true }) ∧
    (Nat.gcd s.opa s.opb ≠ 1 →
      exec .modinv s = .next { s with seq := .idle, done := true, err := true, errcode := 3 }) ∧
    (s.opb = 0 → s.opa = 1 →
      exec .modinv s = .next { s with seq := .idle, done := true, err := true, errcode := 2 })

/-! ### ISPRIME -/

/-- R162: for odd n >= 5 the decomposition gives n - 1 = d * 2^r with d odd, d >= 1 and r >= 1. -/
def Obligations.MillerRabinDecomposition : Prop :=
  ∀ n : Nat, n % 2 = 1 → 5 ≤ n →
    (decompose n).1 * 2 ^ (decompose n).2 = n - 1 ∧ (decompose n).1 % 2 = 1 ∧ 1 ≤ (decompose n).1 ∧
      1 ≤ (decompose n).2 ∧ (decompose n).2 ≤ bitlen n

/-- 42_primality.md section 1: a round passes exactly when a^d = 1 or one of a^d, a^(2d), ..., a^(2^(r-1) d) is
n - 1 modulo n; with r = 1 no squaring is made. -/
def Obligations.RoundPassesExactly : Prop :=
  ∀ n d r a : Nat, 2 ≤ n → 1 ≤ r →
    (roundPasses n d r a = true ↔ a ^ d % n = 1 ∨ ∃ j, j < r ∧ a ^ (d * 2 ^ j) % n = n - 1)

/-- R161: the tester returns false at once for n < 2, true for n = 2 and n = 3, false for even n > 2, each with no
request to the random source; after these n is odd and at least 5, with two witnesses at least in [2, n-2]. -/
def Obligations.IsprimeEarlyReturns : Prop :=
  ∀ (n rounds : Nat) (ans : List Nat),
    (n < 2 → isProbablePrime n rounds ans = .done false ans) ∧
    (n = 2 ∨ n = 3 → isProbablePrime n rounds ans = .done true ans) ∧
    (2 < n → n % 2 = 0 → isProbablePrime n rounds ans = .done false ans) ∧
    (¬ n < 2 → ¬ (n = 2 ∨ n = 3) → n % 2 ≠ 0 → n % 2 = 1 ∧ 5 ≤ n ∧ 2 + 1 ≤ n - 2)

/-- R167: ISPRIME's outcomes. With rounds >= 1: PRIME = 0 without a draw for 0, 1 and even OPA >= 4, PRIME = 1
without a draw for 2 and 3; for odd OPA >= 5, PRIME = 1 after exactly `rounds` draws if every drawn witness
passes its round or OPA is prime, PRIME = 0 after k draws if the first k - 1 pass and the k-th does not. With
rounds = 0, BadOperand and PRIME unchanged. -/
def Obligations.IsprimeOutcomes : Prop :=
  ∀ (s : State) (rounds : Nat) (ws rest : List Nat),
    (exec (.isprime 0) s = .next { s with seq := .idle, done := true, err := true, errcode := 2 }) ∧
    (1 ≤ rounds → s.opa < 2 ∨ (4 ≤ s.opa ∧ s.opa % 2 = 0) →
      exec (.isprime rounds) s = .next { s with prime := false, seq := .idle, done := true }) ∧
    (1 ≤ rounds → s.opa = 2 ∨ s.opa = 3 →
      exec (.isprime rounds) s = .next { s with prime := true, seq := .idle, done := true }) ∧
    (s.opa % 2 = 1 → 5 ≤ s.opa → 1 ≤ rounds → (∀ a ∈ ws, 2 ≤ a ∧ a ≤ s.opa - 2) → s.answers = ws ++ rest →
      (ws.length = rounds →
        (∀ a ∈ ws, roundPasses s.opa (decompose s.opa).1 (decompose s.opa).2 a = true) ∨ Nat.Prime s.opa →
        exec (.isprime rounds) s =
          .next { s with prime := true, answers := rest, seq := .idle, done := true }) ∧
      (ws.length ≤ rounds → ∀ pre last, ws = pre ++ [last] →
        (∀ a ∈ pre, roundPasses s.opa (decompose s.opa).1 (decompose s.opa).2 a = true) →
        roundPasses s.opa (decompose s.opa).1 (decompose s.opa).2 last = false →
        exec (.isprime rounds) s =
          .next { s with prime := false, answers := rest, seq := .idle, done := true }))

/-- 42_primality.md section 1: an ISPRIME that completes without error and answers 0 is always right: OPA is
not prime, whatever the random source answered. -/
def Obligations.FalseAnswerMeansComposite : Prop :=
  ∀ (s t : State) (rounds : Nat), s.err = false → Succeeds (.isprime rounds) s t → t.prime = false →
    ¬ Nat.Prime s.opa

/-! ### GENPRIME -/

/-- R176: the candidate formed from an answer v is odd, has exactly k significant bits, and depends only on bits
k-2 down to 1 of v. -/
def Obligations.CandidateForm : Prop :=
  ∀ k v : Nat, 2 ≤ k → v < 2 ^ k →
    2 ^ (k - 1) + 1 ≤ candidate k v ∧ candidate k v ≤ 2 ^ k - 1 ∧ candidate k v % 2 = 1 ∧
    bitlen (candidate k v) = k ∧
    (∀ j, 1 ≤ j → j < k - 1 → (candidate k v).testBit j = v.testBit j) ∧
    ∀ u, u < 2 ^ k → (∀ j, 1 ≤ j → j < k - 1 → u.testBit j = v.testBit j) →
      candidate k u = candidate k v

/-- 43_primegen.md sections 1 and 2: a GENPRIME that ends without error leaves in RES0 an odd number of exactly k
significant bits and in ATTCNT the count of candidates drawn, at least 1, saturating, and within the cap: the
answers it has read are those of rejected candidates, one block each, and of the last, the accepted RES0.
Nothing else changes. -/
def Obligations.GenprimeResult : Prop :=
  ∀ (s t : State) (k : Nat), s.err = false → Succeeds (.genprime k) s t →
    2 ≤ k ∧ k ≤ s.width ∧ 2 ^ (k - 1) ≤ t.res0 ∧ t.res0 < 2 ^ k ∧ t.res0 % 2 = 1 ∧
    1 ≤ t.attcnt.toNat ∧ (s.maxatt ≠ 0 → t.attcnt.toNat ≤ s.maxatt.toNat) ∧
    (∃ (rejected : List (List Nat)) (last : List Nat), s.answers = rejected.flatten ++ last ++ t.answers ∧
      (∀ b ∈ rejected, ∃ c, CandidateBlock k c false b) ∧ CandidateBlock k t.res0 true last ∧
      t.attcnt.toNat = min (rejected.length + 1) (2 ^ 32 - 1)) ∧
    t = { s with res0 := t.res0, res0Neg := false, attcnt := t.attcnt, answers := t.answers, seq := .idle,
                 done := true }

/-- 43_primegen.md sections 1 and 2: a first candidate that is prime is accepted, whatever its witnesses (none
for the candidate 3, else sixteen), whatever the cap; GENPRIME completes with it in RES0 and ATTCNT = 1. -/
def Obligations.GenprimeAcceptsPrimeCandidate : Prop :=
  ∀ (s : State) (k v c : Nat) (ws rest : List Nat), 2 ≤ k → k ≤ s.width → v < 2 ^ k →
    c = v ||| 2 ^ (k - 1) ||| 1 → Nat.Prime c → ws.length = (if c = 3 then 0 else 16) →
    (∀ a ∈ ws, 2 ≤ a ∧ a ≤ c - 2) → s.answers = v :: ws ++ rest →
    exec (.genprime k) s = .next { s with res0 := c, res0Neg := false, attcnt := 1, answers := rest,
                                          seq := .idle, done := true }

/-- 43_primegen.md section 1: a rejected candidate (its first witnesses pass, the next fails) is counted in
ATTCNT, saturating at 2^32 - 1, and the search goes on with the answers behind it. -/
def Obligations.RejectedCandidateIsCounted : Prop :=
  ∀ (k v c a : Nat) (maxatt att : Word) (ws rest : List Nat), 3 ≤ k → v < 2 ^ k →
    (maxatt = 0 ∨ att.toNat < maxatt.toNat) → c = v ||| 2 ^ (k - 1) ||| 1 → ws.length < 16 →
    (∀ b ∈ ws, 2 ≤ b ∧ b ≤ c - 2 ∧ roundPasses c (decompose c).1 (decompose c).2 b = true) →
    2 ≤ a → a ≤ c - 2 → roundPasses c (decompose c).1 (decompose c).2 a = false →
    generatePrime k maxatt att (v :: ws ++ a :: rest) =
      generatePrime k maxatt (BitVec.ofNat 32 (min (att.toNat + 1) (2 ^ 32 - 1))) rest

/-- 43_primegen.md section 2, 44_keygen.md section 2 and 10_state.md section 4: GenerationExhausted occurs only with
MAXATT != 0, and then ATTCNT = MAXATT. GENPRIME ends with it iff MAXATT candidates have been drawn and rejected;
GENKEYS iff MAXATT candidates have been drawn and all that were accepted are one and the same p. It occurs as soon
as ATTCNT reaches the cap, with no further request. -/
def Obligations.AttemptCap : Prop :=
  (∀ (s t : State) (i : Instr) (n : Nat), s.err = false → i = .genprime n ∨ i = .genkeys n →
    FailsWith i s .generationExhausted t → s.maxatt ≠ 0 ∧ t.attcnt = s.maxatt) ∧
  (∀ (s t : State) (k : Nat), s.err = false → FailsWith (.genprime k) s .generationExhausted t →
    ∃ draws, DrawnBetween k draws s t ∧ draws.length = s.maxatt.toNat ∧ acceptedValues draws = []) ∧
  (∀ (s t : State) (bits : Nat), s.err = false → FailsWith (.genkeys bits) s .generationExhausted t →
    ∃ draws p n, DrawnBetween (bits / 2) draws s t ∧ draws.length = s.maxatt.toNat ∧
      acceptedValues draws = List.replicate n p) ∧
  (∀ (s t : State) (k : Nat) (draws : List Candidate), 2 ≤ k → k ≤ s.width → s.maxatt ≠ 0 →
    t = { s with attcnt := s.maxatt, answers := t.answers, seq := .idle, done := true, err := true,
                 errcode := 6 } →
    DrawnBetween k draws s t → draws.length = s.maxatt.toNat → acceptedValues draws = [] →
    exec (.genprime k) s = .next t) ∧
  (∀ (s t : State) (bits : Nat) (draws : List Candidate) (p n : Nat), bits % 2 = 0 → 8 ≤ bits → bits ≤ s.width →
    s.maxatt ≠ 0 →
    t = { s with attcnt := s.maxatt, answers := t.answers, seq := .idle, done := true, err := true,
                 errcode := 6 } →
    DrawnBetween (bits / 2) draws s t → draws.length = s.maxatt.toNat →
    acceptedValues draws = List.replicate n p → exec (.genkeys bits) s = .next t) ∧
  ∀ (k : Nat) (maxatt : Word) (ans : List Nat), maxatt ≠ 0 →
    generatePrime k maxatt maxatt ans = .raised .generationExhausted maxatt ans

/-- 43_primegen.md section 3 and 70_reset_and_hazards.md section 3: with MAXATT = 0 the searches may run for ever.
However many times the source answers so that the 4-bit candidate 9 is drawn and rejected, GENPRIME 4 is still
BUSY and asks again; however many times it answers so that q = p is drawn, GENKEYS is still BUSY. -/
def Obligations.SearchMayNeverEnd : Prop :=
  (∀ (s : State) (n : Nat), s.maxatt = 0 → 4 ≤ s.width → s.answers = (List.replicate n [1, 2]).flatten →
    ∃ t, Waits (.genprime 4) s t ∧ t.seq = .busy (encode (.genprime 4)) (some (.randBits 4))) ∧
  ∀ (s : State) (bits p : Nat) (blocks : List (List Nat)), s.maxatt = 0 → bits % 2 = 0 → 8 ≤ bits →
    bits ≤ s.width → Nat.Prime p → blocks ≠ [] → (∀ b ∈ blocks, DrawBlock (bits / 2) p b) →
    s.answers = blocks.flatten →
    ∃ t, Waits (.genkeys bits) s t ∧ t.seq = .busy (encode (.genkeys bits)) (some (.randBits (bits / 2)))

/-! ### GENKEYS -/

/-- 44_keygen.md sections 1 to 3: a GENKEYS that ends without error has drawn p, accepted by the generator, any
number of p again, and last a different q (odd numbers of bits/2 bits that may be composite, section 2), ATTCNT the
number of all candidates drawn; it has written n = p*q to both modulus registers, the first of 65537, 3, 17 coprime
to phi = (p-1)(q-1), and d below phi with e*d = 1 modulo phi; nothing else changes. Where it ends with
NoCoprimeExponent it has drawn such p and q, and none of the three is coprime to phi. -/
def Obligations.GenkeysResult : Prop :=
  (∀ (s t : State) (bits : Nat), s.err = false → Succeeds (.genkeys bits) s t →
    bits % 2 = 0 ∧ 8 ≤ bits ∧ bits ≤ s.width ∧
    (∃ p q : Nat, p ≠ q ∧ p % 2 = 1 ∧ q % 2 = 1 ∧
      2 ^ (bits / 2 - 1) ≤ p ∧ p < 2 ^ (bits / 2) ∧ 2 ^ (bits / 2 - 1) ≤ q ∧ q < 2 ^ (bits / 2) ∧
      PairDrawn (bits / 2) p q s t ∧
      t.pubN = p * q ∧ t.privN = p * q ∧
      t.pubE = (if Nat.Coprime 65537 ((p - 1) * (q - 1)) then 65537
        else if Nat.Coprime 3 ((p - 1) * (q - 1)) then 3 else 17) ∧
      Nat.Coprime t.pubE ((p - 1) * (q - 1)) ∧
      0 < t.privD ∧ t.privD < (p - 1) * (q - 1) ∧ t.pubE * t.privD % ((p - 1) * (q - 1)) = 1) ∧
    t = { s with pubN := t.pubN, pubE := t.pubE, privN := t.privN, privD := t.privD, attcnt := t.attcnt,
                 answers := t.answers, seq := .idle, done := true }) ∧
  ∀ (s t : State) (bits : Nat), s.err = false → FailsWith (.genkeys bits) s .noCoprimeExponent t →
    ∃ p q : Nat, PairDrawn (bits / 2) p q s t ∧ 65537 ∣ (p - 1) * (q - 1) ∧ 3 ∣ (p - 1) * (q - 1) ∧
      17 ∣ (p - 1) * (q - 1)

/-- 44_keygen.md section 2: two prime candidates p and q != p, any number of draws of p between them (the
distinctness loop), and an exponent coprime to phi: GENKEYS completes with the key pair of p and q, ATTCNT the
number of candidates, if the cap allows them. -/
def Obligations.GenkeysFromTwoPrimes : Prop :=
  ∀ (s : State) (bits p q : Nat) (first last rest : List Nat) (again : List (List Nat)),
    bits % 2 = 0 → 8 ≤ bits → bits ≤ s.width → Nat.Prime p → Nat.Prime q → p ≠ q →
    DrawBlock (bits / 2) p first → (∀ b ∈ again, DrawBlock (bits / 2) p b) → DrawBlock (bits / 2) q last →
    s.answers = first ++ again.flatten ++ last ++ rest → again.length + 2 < 2 ^ 32 →
    (s.maxatt = 0 ∨ again.length + 2 ≤ s.maxatt.toNat) →
    (∀ e, (Nat.Coprime 65537 ((p - 1) * (q - 1)) → e = 65537) →
      (¬ Nat.Coprime 65537 ((p - 1) * (q - 1)) → Nat.Coprime 3 ((p - 1) * (q - 1)) → e = 3) →
      (¬ Nat.Coprime 65537 ((p - 1) * (q - 1)) → ¬ Nat.Coprime 3 ((p - 1) * (q - 1)) → e = 17) →
      Nat.Coprime e ((p - 1) * (q - 1)) →
      ∃ d, d < (p - 1) * (q - 1) ∧ e * d % ((p - 1) * (q - 1)) = 1 ∧
        exec (.genkeys bits) s = .next { s with
          pubN := p * q, pubE := e, privN := p * q, privD := d, seq := .idle, done := true,
          attcnt := BitVec.ofNat 32 (again.length + 2), answers := rest }) ∧
    (65537 ∣ (p - 1) * (q - 1) → 3 ∣ (p - 1) * (q - 1) → 17 ∣ (p - 1) * (q - 1) →
      exec (.genkeys bits) s = .next { s with
        attcnt := BitVec.ofNat 32 (again.length + 2), answers := rest, seq := .idle, done := true,
        err := true, errcode := 4 })

/-! ### ENCRYPT and DECRYPT -/

/-- R71: the integer value of a byte list is the sum of b_i * 256^(k-1-i), the first byte the most significant;
the empty list is 0; leading zero bytes do not change the value. -/
def Obligations.MessageValueIsBigEndian : Prop :=
  be2nat [] = 0 ∧
  (∀ bs : List Byte,
    be2nat bs = ∑ i ∈ Finset.range bs.length, (bs.getD i 0).toNat * 256 ^ (bs.length - 1 - i)) ∧
  ∀ bs : List Byte, be2nat ([0] ++ bs) = be2nat bs

/-- R72: `nat2be(v)` is, for v > 0, the unique byte list of length ceil(bitlen(v) / 8) with value v, its first
byte not zero, and [0x00] for v = 0. -/
def Obligations.MessageEncodingIsShortest : Prop :=
  nat2be 0 = [0] ∧
  ∀ v : Nat, be2nat (nat2be v) = v ∧ 1 ≤ (nat2be v).length ∧
    (nat2be v).length ≤ max 1 ((bitlen v + 7) / 8) ∧
    (0 < v → (nat2be v).length = (bitlen v + 7) / 8 ∧ (nat2be v).head? ≠ some 0 ∧
      ∀ bs : List Byte, bs.length = (bitlen v + 7) / 8 → be2nat bs = v → bs = nat2be v)

/-- R207 and R208: ENCRYPT's checks in their order and its result, m the big-endian value of MSG[0 .. MSGLEN-1];
nothing else changes; with PUB_N = 0 it is OversizedMessage; its only word is 0x00000007. -/
def Obligations.EncryptCommand : Prop :=
  (∀ (s : State) (m : Nat),
    m = ∑ i ∈ Finset.range s.msglen.toNat, (s.msg.read i).toNat * 256 ^ (s.msglen.toNat - 1 - i) →
    (s.width / 8 < s.msglen.toNat → exec .encrypt s =
      .next { s with seq := .idle, done := true, err := true, errcode := 2 }) ∧
    (s.msglen.toNat ≤ s.width / 8 → s.pubN ≤ m → exec .encrypt s =
      .next { s with seq := .idle, done := true, err := true, errcode := 5 }) ∧
    (s.msglen.toNat ≤ s.width / 8 → m < s.pubN → m ^ s.pubE % s.pubN < s.pubN ∧ exec .encrypt s =
      .next { s with res0 := m ^ s.pubE % s.pubN, res0Neg := false, seq := .idle, done := true })) ∧
  decode 0x00000007 = .command .encrypt ∧
  ∀ w : Word, opcodeOf w = 0x07 → argOf w ≠ 0 → decode w = .illegal .reservedArg

/-- R211 and R212: DECRYPT raises BadOperand iff PRIV_N = 0; otherwise MSG is the shortest big-endian encoding of
v = OPA^PRIV_D mod PRIV_N (one byte 0x00 for v = 0), every later byte zero, MSGLEN its length, and nothing else
changes; its only word is 0x00000008. -/
def Obligations.DecryptCommand : Prop :=
  (∀ s : State, s.privN = 0 → exec .decrypt s =
    .next { s with seq := .idle, done := true, err := true, errcode := 2 }) ∧
  (∀ (s : State) (v k : Nat), s.Inv → s.privN ≠ 0 → v = s.opa ^ s.privD % s.privN →
    k = max 1 ((Nat.size v + 7) / 8) →
    ∃ m, exec .decrypt s = .next { s with msg := m, msglen := BitVec.ofNat 32 k, seq := .idle, done := true } ∧
      k ≤ s.width / 8 ∧ (∀ j, j < k → (m.read j).toNat = v / 256 ^ (k - 1 - j) % 256) ∧
      ∀ j, k ≤ j → m.read j = 0) ∧
  decode 0x00000008 = .command .decrypt ∧
  ∀ w : Word, opcodeOf w = 0x08 → argOf w ≠ 0 → decode w = .illegal .reservedArg

/-- R213 and R214: if the key registers hold a key pair with n = p*q for distinct primes and e*d = 1 mod
(p-1)(q-1), and ENCRYPT succeeds on a message of value m, and RES0 is copied to OPA and DECRYPT issued, then the
recovered message has the value m; its bytes are nat2be(m), equal to the original message iff that is non-empty and
begins with no zero byte or is [0x00]. -/
def Obligations.RsaRoundTrip : Prop :=
  ∀ (s t : State) (p q : Nat) (bs : List Byte), s.Inv → s.err = false → Nat.Prime p → Nat.Prime q → p ≠ q →
    s.pubN = p * q → s.privN = p * q → s.pubE * s.privD % ((p - 1) * (q - 1)) = 1 →
    bs = s.msg.readList 0 s.msglen.toNat → Succeeds .encrypt s t →
    ∃ u, exec .decrypt { t with opa := t.res0 } = .next u ∧ u.busy = false ∧ u.err = false ∧
      be2nat (u.msg.readList 0 u.msglen.toNat) = be2nat bs ∧
      u.msg.readList 0 u.msglen.toNat = nat2be (be2nat bs) ∧
      (u.msg.readList 0 u.msglen.toNat = bs ↔ bs ≠ [] ∧ (bs.head? ≠ some 0 ∨ bs = [0]))

/-! ### Errors -/

/-- R235: every cause of BadOperand, and EGCD never raises it. -/
def Obligations.BadOperandCauses : Prop :=
  ∀ s : State, s.err = false →
    ((∃ t, FailsWith .modexp s .badOperand t) ↔ s.opc = 0) ∧
    (¬ ∃ t, FailsWith .egcd s .badOperand t) ∧
    ((∃ t, FailsWith .modinv s .badOperand t) ↔ s.svalB = 0 ∧ (s.svalA = 1 ∨ s.svalA = -1)) ∧
    (∀ rounds, (∃ t, FailsWith (.isprime rounds) s .badOperand t) ↔ rounds = 0) ∧
    (∀ k, (∃ t, FailsWith (.genprime k) s .badOperand t) ↔ k < 2 ∨ s.width < k) ∧
    (∀ bits, (∃ t, FailsWith (.genkeys bits) s .badOperand t) ↔
      bits % 2 = 1 ∨ bits < 8 ∨ s.width < bits) ∧
    ((∃ t, FailsWith .encrypt s .badOperand t) ↔ s.width / 8 < s.msglen.toNat) ∧
    ((∃ t, FailsWith .decrypt s .badOperand t) ↔ s.privN = 0)

/-- R196 with 60_exceptions.md section 3: the errors each command can end with; in GENKEYS the InvalidModulus exit
is unreachable. -/
def Obligations.ErrorsOfEachCommand : Prop :=
  ∀ (i : Instr) (s t : State) (e : CmdError), s.err = false → FailsWith i s e t →
    e ∈ (match i with
      | .modexp => [CmdError.badOperand]
      | .egcd => []
      | .modinv => [.invalidModulus, .badOperand]
      | .isprime _ => [.badOperand]
      | .genprime _ => [.badOperand, .generationExhausted]
      | .genkeys _ => [.badOperand, .generationExhausted, .noCoprimeExponent]
      | .encrypt => [.badOperand, .oversizedMessage]
      | .decrypt => [.badOperand])

/-- R233: a command that ends with an error has written nothing but STATUS, SEQ and, after their operand check,
ATTCNT in GENPRIME and GENKEYS: no register, sign bit, message byte, MSGLEN or PRIME. -/
def Obligations.ErrorsArePrecise : Prop :=
  ∀ (i : Instr) (s t : State) (e : CmdError), s.err = false → FailsWith i s e t →
    t = { s with seq := .idle, done := true, err := true, errcode := e.code, attcnt := t.attcnt,
                 answers := t.answers } ∧
    (e = .illegalCommand ∨ e = .badOperand ∨ ¬ Draws i → t.attcnt = s.attcnt ∧ t.answers = s.answers)

/-! ### What a command reads and writes -/

/-- 10_state.md section 2: whatever a command's run comes to, it writes only what its row lists (beside STATUS,
SEQ and the answers it has read): W, the operand registers and signs, MAXATT, the inputs and the port never
change; a key register only by GENKEYS, MSG and MSGLEN only by DECRYPT, PRIME only by ISPRIME, and so on. -/
def Obligations.CommandsWriteOnlyTheirRow : Prop :=
  ∀ (i : Instr) (s t : State), exec i s = .next t →
    t.width = s.width ∧ t.opa = s.opa ∧ t.opb = s.opb ∧ t.opc = s.opc ∧ t.opaNeg = s.opaNeg ∧
    t.opbNeg = s.opbNeg ∧ t.maxatt = s.maxatt ∧ t.inputs = s.inputs ∧ t.port = s.port ∧
    t.epoch = s.epoch ∧
    (i ≠ .modexp → i ≠ .egcd → i ≠ .modinv → i ≠ .encrypt → (∀ k, i ≠ .genprime k) →
      t.res0 = s.res0 ∧ t.res0Neg = s.res0Neg) ∧
    (i ≠ .egcd → t.res1 = s.res1 ∧ t.res2 = s.res2 ∧ t.res1Neg = s.res1Neg ∧ t.res2Neg = s.res2Neg) ∧
    ((∀ bits, i ≠ .genkeys bits) →
      t.pubN = s.pubN ∧ t.pubE = s.pubE ∧ t.privN = s.privN ∧ t.privD = s.privD) ∧
    (i ≠ .decrypt → t.msglen = s.msglen ∧ ∀ k, t.msg.read k = s.msg.read k) ∧
    ((∀ rounds, i ≠ .isprime rounds) → t.prime = s.prime) ∧
    ((∀ k, i ≠ .genprime k) → (∀ bits, i ≠ .genkeys bits) → t.attcnt = s.attcnt) ∧
    (¬ Draws i → t.answers = s.answers)

/-- 10_state.md section 2: a command reads nothing its row does not list: from two states that agree on W and on
what the row lists, it runs to the same completion, error or request, and what it writes agrees: its row's
results where it ends without error, ATTCNT where it ends with NoCoprimeExponent or GenerationExhausted, and
whatever the end the answers a drawing command leaves unread. -/
def Obligations.CommandsReadOnlyTheirRow : Prop :=
  ∀ (i : Instr) (s u t : State), s.msg.wf = true → u.msg.wf = true → ReadsAgree i s u →
    s.err = false → u.err = false → s.errcode = 0 → u.errcode = 0 → exec i s = .next t →
    ∃ v, exec i u = .next v ∧ v.seq = t.seq ∧ v.err = t.err ∧ v.errcode = t.errcode ∧
      (t.busy = false → t.err = false → WritesAgree i t v) ∧
      (t.errcode = CmdError.noCoprimeExponent.code ∨ t.errcode = CmdError.generationExhausted.code →
        v.attcnt = t.attcnt) ∧
      (Draws i → v.answers = t.answers)

/-- R24: the signed value of an operand register, 0 for a zero magnitude whatever its sign bit; every command but
EGCD and MODINV ignores SIGN.OPA_NEG and SIGN.OPB_NEG. -/
def Obligations.SignBitsOnlyForEuclid : Prop :=
  ∀ (s : State) (x y : Bool),
    s.svalA = (if s.opaNeg then -(s.opa : Int) else s.opa) ∧
    s.svalB = (if s.opbNeg then -(s.opb : Int) else s.opb) ∧
    (s.opa = 0 → s.svalA = 0) ∧ (s.opb = 0 → s.svalB = 0) ∧
    ∀ i : Instr, i ≠ .egcd → i ≠ .modinv →
      exec i { s with opaNeg := x, opbNeg := y } =
        mapNext (fun t => { t with opaNeg := x, opbNeg := y }) (exec i s)

/-- R36: STATUS.PRIME is written by an ISPRIME that ends without error, with the tester's answer, and by no other
command, nor by an ISPRIME that ends with an error; it is 0 after reset; no command reads it. -/
def Obligations.PrimeFlag : Prop :=
  (∀ (s t : State) (rounds : Nat), s.err = false → Succeeds (.isprime rounds) s t →
    isProbablePrime s.opa rounds s.answers = .done t.prime t.answers) ∧
  (∀ (s t : State) (i : Instr), s.err = false → exec i s = .next t →
    (∀ rounds, i ≠ .isprime rounds) ∨ t.err = true ∨ t.busy = true → t.prime = s.prime) ∧
  (∀ width, (State.resetOf width).prime = false) ∧
  ∀ (s : State) (i : Instr) (b : Bool), ∃ f : State → Bool,
    exec i { s with prime := b } = mapNext (fun t => { t with prime := f t }) (exec i s)

/-! ### The random source -/

/-- 10_state.md section 6: a command reads the answers in order, one for each request. Where it ends, what is left
is a tail of what there was, and given fewer answers than it has read it would wait. Where it waits, it has read
all there was and one request is open; the next answer, if in the range of that request, is read and nothing
else is, and if not the command is refused for that request. It is refused only so: the answers before the bad
one leave it waiting for the request that the bad one is out of range of. The list of answers is the model's,
log entry 2. -/
def Obligations.AnswersAreReadInOrder : Prop :=
  ∀ (i : Instr) (s : State),
    (∀ t, exec i s = .next t →
      (t.busy = false → ∃ used, s.answers = used ++ t.answers ∧
        ∀ pre post, used = pre ++ post → post ≠ [] → ∃ u, Waits i { s with answers := pre } u) ∧
      (t.busy = true → t.answers = s.answers ∧ ∃ req, t.seq = .busy (encode i) (some req) ∧
        ∀ v, (req.Admits v → ∃ u, exec i { s with answers := s.answers ++ [v] } = .next u ∧
            (u.busy = false → u.answers = [])) ∧
          (¬ req.Admits v →
            exec i { s with answers := s.answers ++ [v] } = .refused (.randomOutOfRange req)))) ∧
    ∀ r, exec i s = .refused r →
      Draws i ∧ ∃ req pre v post u, r = .randomOutOfRange req ∧ s.answers = pre ++ v :: post ∧
        ¬ req.Admits v ∧ Waits i { s with answers := pre } u ∧ u.seq = .busy (encode i) (some req)

/-- 10_state.md section 6: the outcome is a function of the start state and the answers. A command that waited and
was then given `more` ends as if all the answers had been there from the start, and until then its turn changes
nothing; a command that has ended does not read further answers. That a waiting command runs again from its first
statement is the model's choice, log entry 2. -/
def Obligations.WaitingDoesNotChangeTheOutcome : Prop :=
  ∀ (i : Instr) (s t : State) (more : List Nat), exec i s = .next t →
    (t.busy = true →
      exec i { t with answers := t.answers ++ more } = exec i { s with answers := s.answers ++ more } ∧
      (t.inputs = [] → i.wellFormed = true → step t = .next t)) ∧
    (t.busy = false →
      exec i { s with answers := s.answers ++ more } = .next { t with answers := t.answers ++ more })

/-- 70_reset_and_hazards.md section 3: MODEXP, EGCD, MODINV, ENCRYPT and DECRYPT complete in every state that
meets the invariant, and are BUSY after their turn in none; ISPRIME ends once `rounds` answers are given, and with
MAXATT != 0 GENPRIME and GENKEYS end once 17 answers for each allowed candidate are given (one for the candidate,
at most 16 witnesses). An end is a completion or, where an answer is out of range, the refusal of log entry 2. -/
def Obligations.BoundedTermination : Prop :=
  ∀ (i : Instr) (s : State),
    (¬ Draws i → s.Inv → ∃ t, exec i s = .next t ∧ t.busy = false) ∧
    (¬ Draws i → ∀ t, exec i s = .next t → t.busy = false) ∧
    (∀ rounds, i = .isprime rounds → rounds ≤ s.answers.length → Ends i s) ∧
    (∀ n, i = .genprime n ∨ i = .genkeys n → s.maxatt ≠ 0 → 17 * s.maxatt.toNat ≤ s.answers.length → Ends i s)

/-! ### Whole-machine invariants -/

/-- The reset state of every legal W meets the invariant (10_state.md section 7). -/
def Obligations.ResetMeetsInvariant : Prop :=
  State.reset.Inv ∧ ∀ width, Config.LegalWidth width → (State.resetOf width).Inv

/-- Every step of the machine, whatever the host and the random source do, keeps the invariant of Safety.lean:
among it that every result fits its register (10_state.md section 2), that the message buffer stays canonical,
that BUSY and DONE are never both 1 and that ERR and ERRCODE agree (10_state.md section 4); and no step faults,
since every message access stays inside the buffer (20_memory.md section 2). -/
def Obligations.StepKeepsInvariant : Prop :=
  ∀ s : State, s.Inv → (∀ t, step s = .next t → t.Inv) ∧ ∀ f, step s ≠ .fault f

/-- 20_memory.md section 2: while SEQ = BUSY no input but reset changes a register, a sign bit, the message, its
length, MAXATT, ATTCNT, a flag or the held command word, so the running command's operands, ARG among them,
cannot be disturbed. Three clauses are the model's choice, not a rule of the spec: that only a host access touches
the record `port` (log entry 4); that an answer is added to the list `answers` and closes the request (log entry
2); and that it is taken exactly when it carries the current count of resets and a request is open (log entry 6:
that an answer after reset is ignored is the spec's, how it is told and that an unasked one is ignored are not). -/
def Obligations.InputsCannotDisturbRunningCommand : Prop :=
  ∀ (s t : State) (e : Input) (rest : List Input), s.busy = true → s.inputs = e :: rest → e ≠ .coreTurn →
    e ≠ .reset → step s = .next t →
    (∃ response, t = { s with inputs := rest, port := some response } ∧
      ((∃ addr, e = .hostRead addr) ∨ ∃ addr d, e = .hostWrite addr d)) ∨
    (∃ v word req, e = .answer s.epoch v ∧ s.seq = .busy word (some req) ∧
      t = { s with inputs := rest, answers := s.answers ++ [v], seq := .busy word none }) ∨
    (∃ epoch v, e = .answer epoch v ∧ (epoch ≠ s.epoch ∨ ∃ word, s.seq = .busy word none) ∧
      t = { s with inputs := rest })
end

