-- ==== Sys2Proof/Laws/Arith.lean ====
section
/-!
SUPPORT. Laws/Arith.lean: the loops inside the integer functions: square and multiply, and the extended
Euclidean loop, whose fuel is never used up and whose coefficients are linear in those it starts with.
-/

namespace Sys2Proof.Machine

/-- bitlen is the number of significant bits (R10). -/
theorem bitlen_eq_size (v : Nat) : bitlen v = Nat.size v := by
  unfold bitlen
  split
  · subst_vars; simp
  · rename_i h
    apply le_antisymm
    · rw [Nat.succ_le_iff, Nat.lt_size]; exact Nat.log2_self_le h
    · rw [Nat.size_le]; exact Nat.lt_log2_self

/-- The loop of R126 multiplies the power of the base into its result. -/
theorem modexpLoop_eq (n : Nat) (hn : 1 ≤ n) : ∀ fuel r b e, e < 2 ^ fuel → r < n →
    modexpLoop n fuel r b e = r * b ^ e % n := by
  intro fuel
  induction fuel with
  | zero => intro r b e he hr; have : e = 0 := by simpa using he
            subst this; simp [modexpLoop, Nat.mod_eq_of_lt hr]
  | succ f ih =>
    intro r b e he hr
    unfold modexpLoop
    split
    · subst_vars; simp [Nat.mod_eq_of_lt hr]
    · have he2 : e / 2 < 2 ^ f := by rw [pow_succ] at he; omega
      rw [ih _ _ _ he2]
      · have hb : b ^ e = (b * b) ^ (e / 2) * b ^ (e % 2) := by
          conv_lhs => rw [← Nat.div_add_mod e 2, pow_add, pow_mul, pow_two]
        split
        · rename_i h1
          rw [hb, h1]
          rw [Nat.mul_mod, Nat.pow_mod, Nat.mod_mod, Nat.mod_mod, ← Nat.pow_mod, ← Nat.mul_mod]
          congr 1; ring
        · rename_i h1
          have : e % 2 = 0 := by omega
          rw [hb, this]
          rw [Nat.mul_mod, Nat.pow_mod, Nat.mod_mod, ← Nat.pow_mod, ← Nat.mul_mod]
          simp
      · split
        · exact Nat.mod_lt _ (by omega)
        · exact hr

theorem sub_fdiv_mul (a b : Int) : a - a.fdiv b * b = a.fmod b := by
  have := Int.mul_fdiv_add_fmod a b; linarith [mul_comm b (a.fdiv b)]

theorem fmod_of_neg (a b : Int) (h : b < 0) : b < a.fmod b ∧ a.fmod b ≤ 0 := by
  have h1 := Int.fmod_nonneg_of_pos (-a) (b := -b) (by omega)
  have h2 := Int.fmod_lt_of_pos (-a) (b := -b) (by omega)
  rw [Int.neg_fmod_neg] at h1 h2
  omega

theorem natAbs_fmod_lt (a b : Int) (h : b ≠ 0) : (a.fmod b).natAbs < b.natAbs := by
  rcases lt_or_gt_of_ne h with hb | hb
  · have h1 := fmod_of_neg a b hb
    omega
  · have h1 := Int.fmod_nonneg_of_pos a hb
    have h2 := Int.fmod_lt_of_pos a hb
    omega

/-- The coefficients of R140 depend linearly on those the loop starts with. -/
theorem egcdLoop_linear : ∀ fuel (oR r oS s oT t : Int), egcdLoop fuel oR r oS s oT t =
   ⟨(egcdLoop fuel oR r 1 0 0 1).g, oS * (egcdLoop fuel oR r 1 0 0 1).x + s * (egcdLoop fuel oR r 1 0 0 1).y,
    oT * (egcdLoop fuel oR r 1 0 0 1).x + t * (egcdLoop fuel oR r 1 0 0 1).y⟩ := by
  intro fuel
  induction fuel with
  | zero => intros; simp [egcdLoop]
  | succ f ih =>
    intro oR r oS s oT t
    by_cases hr : r = 0
    · simp [egcdLoop, hr]
    · simp only [egcdLoop, hr, if_false]
      rw [ih r _ s _ t _, ih r _ 0 _ 1 _]
      simp only [Bezout.mk.injEq, true_and]
      constructor <;> ring

/-- The fuel of the loop is never used up (R141: |r| strictly decreases). -/
theorem egcdLoop_fuel : ∀ f1 f2 (oR r oS s oT t : Int), r.natAbs < f1 → r.natAbs < f2 →
    egcdLoop f1 oR r oS s oT t = egcdLoop f2 oR r oS s oT t := by
  intro f1
  induction f1 with
  | zero => intros; omega
  | succ f ih =>
    intro f2 oR r oS s oT t h1 h2
    obtain ⟨g, rfl⟩ : ∃ g, f2 = g + 1 := ⟨f2 - 1, by omega⟩
    by_cases hr : r = 0
    · simp [egcdLoop, hr]
    · simp only [egcdLoop, hr, if_false]
      have := natAbs_fmod_lt oR r hr
      rw [← sub_fdiv_mul] at this
      exact ih g _ _ _ _ _ _ (by omega) (by omega)

end Sys2Proof.Machine
end

