-- ==== Sys2Proof/Laws/Memory.lean ====
section
/-!
SUPPORT. Laws/Memory.lean: the message buffer. Reading after a write; every memory operation keeps the
canonical form, and in it equal contents are equal lists.
-/

namespace Sys2Proof.Machine

/-! ### Reading after a write -/

/-- An index that is not listed reads blank. -/
theorem Memory.read_unlisted {m : Memory} {k : Nat} (h : ∀ c ∈ m, c.1 ≠ k) : m.read k = Memory.blank := by
  induction m with
  | nil => rfl
  | cons c m ih =>
    obtain ⟨a, b⟩ := c
    have h1 : a ≠ k := h (a, b) (List.mem_cons_self ..)
    simp only [Memory.read, h1, if_false]
    exact ih (fun c hc => h c (List.mem_cons_of_mem _ hc))

theorem Memory.read_write (m : Memory) (k a : Nat) (v : Byte) (h : m.wf = true) :
    (m.write k v).read a = if a = k then v else m.read a := by
  induction m with
  | nil =>
    unfold Memory.write
    by_cases hv : v = Memory.blank <;> by_cases hak : a = k
    · simp [Memory.read, hv]
    · simp [Memory.read, hv]
    · simp [Memory.read, hv, hak]
    · simp [Memory.read, hv, hak, Ne.symm hak]
  | cons c m ih =>
    obtain ⟨b, w⟩ := c
    simp only [Memory.wf, Bool.and_eq_true, decide_eq_true_eq, List.all_eq_true] at h
    obtain ⟨⟨-, hall⟩, hwf⟩ := h
    have hbelow : ∀ x, x ≤ b → Memory.read m x = Memory.blank := fun x hx =>
      Memory.read_unlisted fun c hc he => absurd (hall c hc) (by omega)
    unfold Memory.write
    by_cases hkb : k < b
    · rw [if_pos hkb]
      by_cases hak : a = k
      · subst hak
        by_cases hv : v = Memory.blank
        · simp [hv, Memory.read, hbelow a (by omega)]
          omega
        · simp [hv, Memory.read]
      · by_cases hv : v = Memory.blank
        · simp [hv, hak]
        · simp [hv, hak, Memory.read, Ne.symm hak]
    · rw [if_neg hkb]
      by_cases hke : k = b
      · subst hke
        by_cases hak : a = k
        · subst hak
          by_cases hv : v = Memory.blank
          · simp [hv, hbelow a le_rfl]
          · simp [hv, Memory.read]
        · by_cases hv : v = Memory.blank
          · simp [hv, hak, Memory.read, Ne.symm hak]
          · simp [hv, hak, Memory.read, Ne.symm hak]
      · rw [if_neg hke]
        by_cases hab : b = a
        · subst hab
          simp [Memory.read, Ne.symm hke]
        · simp [Memory.read, hab, ih hwf]

/-! ### The canonical form is kept -/

theorem Memory.mem_write {m : Memory} {k : Nat} {v : Byte} {c : Host.Cell} (h : c ∈ m.write k v) :
    c = (k, v) ∨ c ∈ m := by
  induction m with
  | nil =>
    unfold Memory.write at h
    split at h <;> simp_all
  | cons d m ih =>
    obtain ⟨b, w⟩ := d
    unfold Memory.write at h
    split at h
    · split at h <;> simp_all
    · split at h
      · split at h
        · exact .inr (List.mem_cons_of_mem _ h)
        · rcases List.mem_cons.mp h with h | h
          · exact .inl h
          · exact .inr (List.mem_cons_of_mem _ h)
      · rcases List.mem_cons.mp h with h | h
        · exact .inr (h ▸ List.mem_cons_self ..)
        · rcases ih h with h | h
          · exact .inl h
          · exact .inr (List.mem_cons_of_mem _ h)

theorem Memory.wf_write {m : Memory} (k : Nat) (v : Byte) (h : m.wf = true) : (m.write k v).wf = true := by
  induction m with
  | nil =>
    unfold Memory.write
    split <;> simp_all [Memory.wf]
  | cons c m ih =>
    obtain ⟨b, w⟩ := c
    have h' := h
    simp only [Memory.wf, Bool.and_eq_true, decide_eq_true_eq, List.all_eq_true] at h'
    obtain ⟨⟨hb, hall⟩, hwf⟩ := h'
    unfold Memory.write
    split
    · rename_i hk
      split
      · exact h
      · rename_i hv
        simp only [Memory.wf, Bool.and_eq_true, decide_eq_true_eq, List.all_eq_true, List.mem_cons]
        refine ⟨⟨hv, ?_⟩, ⟨hb, hall⟩, hwf⟩
        rintro c (rfl | hc)
        · exact hk
        · exact lt_trans hk (hall c hc)
    · split
      · subst_vars
        split
        · exact hwf
        · rename_i hv
          simp only [Memory.wf, Bool.and_eq_true, decide_eq_true_eq, List.all_eq_true]
          exact ⟨⟨hv, hall⟩, hwf⟩
      · simp only [Memory.wf, Bool.and_eq_true, decide_eq_true_eq, List.all_eq_true]
        refine ⟨⟨hb, fun c hc => ?_⟩, ih hwf⟩
        rcases Memory.mem_write hc with rfl | hc
        · show b < k
          omega
        · exact hall c hc

theorem Memory.wf_writeList {m : Memory} (k : Nat) (vs : List Byte) (h : m.wf = true) :
    (m.writeList k vs).wf = true := by
  induction vs generalizing m k with
  | nil => exact h
  | cons v vs ih => exact ih (k + 1) (Memory.wf_write k v h)

/-- Every index listed after a list write was listed before or lies in the range written. -/
theorem Memory.mem_writeList {m : Memory} {k : Nat} {vs : List Byte} {c : Host.Cell}
    (h : c ∈ m.writeList k vs) : (k ≤ c.1 ∧ c.1 < k + vs.length) ∨ c ∈ m := by
  induction vs generalizing m k with
  | nil => exact .inr h
  | cons v vs ih =>
    rcases ih h with h | h
    · left
      simp only [List.length_cons]
      omega
    · rcases Memory.mem_write h with rfl | h
      · left
        simp
      · exact .inr h

/-! ### Byte lists -/

theorem Memory.read_writeList (m : Memory) (k a : Nat) (vs : List Byte) (h : m.wf = true) :
    (m.writeList k vs).read a =
      if k ≤ a ∧ a < k + vs.length then vs.getD (a - k) 0 else m.read a := by
  induction vs generalizing m k with
  | nil =>
    have : ¬(k ≤ a ∧ a < k) := by omega
    simp [Memory.writeList, this]
  | cons v vs ih =>
    rw [Memory.writeList, ih _ _ (Memory.wf_write k v h), Memory.read_write m k a v h]
    simp only [List.length_cons]
    by_cases hak : a = k
    · subst hak
      simp
    · by_cases hin : k + 1 ≤ a ∧ a < k + 1 + vs.length
      · have h2 : k ≤ a ∧ a < k + (vs.length + 1) := by omega
        obtain ⟨j, rfl⟩ : ∃ j, a = k + 1 + j := ⟨a - (k + 1), by omega⟩
        have e1 : k + 1 + j - k = j + 1 := by omega
        rw [if_pos hin, if_pos h2, e1]
        simp
      · have h2 : ¬(k ≤ a ∧ a < k + (vs.length + 1)) := by omega
        rw [if_neg hin, if_neg h2, if_neg hak]

@[simp] theorem Memory.length_readList (m : Memory) (k n : Nat) : (m.readList k n).length = n := by
  induction n generalizing k with
  | zero => rfl
  | succ n ih => simp [Memory.readList, ih]

theorem Memory.getD_readList (m : Memory) (k n i : Nat) (h : i < n) :
    (m.readList k n).getD i 0 = m.read (k + i) := by
  induction n generalizing k i with
  | zero => omega
  | succ n ih =>
    cases i with
    | zero => simp [Memory.readList]
    | succ i =>
      rw [Memory.readList, List.getD_cons_succ, ih (k + 1) i (by omega)]
      congr 1
      omega

/-- A byte list read depends only on the bytes read. -/
theorem Memory.readList_congr {m m' : Memory} {k n : Nat}
    (h : ∀ a, k ≤ a → a < k + n → m.read a = m'.read a) : m.readList k n = m'.readList k n := by
  induction n generalizing k with
  | zero => rfl
  | succ n ih =>
    rw [Memory.readList, Memory.readList, h k le_rfl (by omega), ih (fun a h1 h2 => h a (by omega) (by omega))]

/-- In canonical form, memories that read alike are equal lists. -/
theorem Memory.ext_read {m m' : Memory} (h : m.wf = true) (h' : m'.wf = true)
    (heq : ∀ k, m.read k = m'.read k) : m = m' := by
  induction m generalizing m' with
  | nil =>
    cases m' with
    | nil => rfl
    | cons c m' =>
      obtain ⟨a, b⟩ := c
      simp only [Memory.wf, Bool.and_eq_true, decide_eq_true_eq] at h'
      have := heq a
      simp [Memory.read] at this
      exact absurd this.symm h'.1.1
  | cons c m ih =>
    obtain ⟨a, b⟩ := c
    have hw := h
    simp only [Memory.wf, Bool.and_eq_true, decide_eq_true_eq, List.all_eq_true] at hw
    obtain ⟨⟨hb, hall⟩, hwf⟩ := hw
    cases m' with
    | nil =>
      have := heq a
      simp [Memory.read] at this
      exact absurd this hb
    | cons c' m' =>
      obtain ⟨a', b'⟩ := c'
      have hw' := h'
      simp only [Memory.wf, Bool.and_eq_true, decide_eq_true_eq, List.all_eq_true] at hw'
      obtain ⟨⟨hb', hall'⟩, hwf'⟩ := hw'
      have haa : a = a' := by
        rcases lt_trichotomy a a' with hlt | he | hlt
        · have h1 := heq a
          rw [Memory.read, if_pos rfl,
            Memory.read_unlisted (m := (a', b') :: m') (k := a) (by
              rintro c hc rfl
              rcases List.mem_cons.mp hc with rfl | hc
              · exact lt_irrefl _ hlt
              · exact absurd (hall' c hc) (by omega))] at h1
          exact absurd h1 hb
        · exact he
        · have h1 := heq a'
          rw [Memory.read_unlisted (m := (a, b) :: m) (k := a') (by
              rintro c hc rfl
              rcases List.mem_cons.mp hc with rfl | hc
              · exact lt_irrefl _ hlt
              · exact absurd (hall c hc) (by omega)), Memory.read, if_pos rfl] at h1
          exact absurd h1.symm hb'
      subst haa
      have hbb : b = b' := by simpa [Memory.read] using heq a
      subst hbb
      congr 1
      refine ih hwf hwf' (fun k => ?_)
      by_cases hk : a = k
      · subst hk
        rw [Memory.read_unlisted (fun c hc => ne_of_gt (hall c hc)),
          Memory.read_unlisted (fun c hc => ne_of_gt (hall' c hc))]
      · simpa [Memory.read, hk] using heq k

/-! ### The two accesses of the meanings -/

theorem State.memWrite_wf {s t : State} {addr : Nat} {bs : List Byte} (h : s.msg.wf = true)
    (hw : s.memWrite addr bs = .ok t) : t.msg.wf = true := by
  unfold State.memWrite at hw
  split_ifs at hw
  obtain rfl := Except.ok.inj hw
  exact Memory.wf_writeList _ _ h

theorem State.memRead_length {s : State} {addr n : Nat} {bs : List Byte} (h : s.memRead addr n = .ok bs) :
    bs.length = n := by
  unfold State.memRead at h
  split_ifs at h
  obtain rfl := Except.ok.inj h
  simp

theorem State.reset_msg_wf : State.reset.msg.wf = true := rfl

end Sys2Proof.Machine
end

