-- ==== Sys2Proof/Laws/Bytes.lean ====
section
/-!
SUPPORT. Laws/Bytes.lean: big-endian byte lists (R71, R72) and the buffer DECRYPT writes.
-/

namespace Sys2Proof.Machine

theorem be2nat_foldl (bs : List Byte) (a : Nat) :
    bs.foldl (fun acc b => 256 * acc + b.toNat) a = a * 256 ^ bs.length + be2nat bs := by
  induction bs generalizing a with
  | nil => simp [be2nat]
  | cons b bs ih =>
    simp only [be2nat, List.foldl_cons, List.length_cons]
    rw [ih, ih (256*0 + b.toNat)]; ring

theorem be2nat_cons (b : Byte) (bs : List Byte) : be2nat (b :: bs) = b.toNat * 256 ^ bs.length + be2nat bs := by
  rw [be2nat, List.foldl_cons, be2nat_foldl]; simp

theorem be2nat_append (xs ys : List Byte) : be2nat (xs ++ ys) = be2nat xs * 256 ^ ys.length + be2nat ys := by
  rw [be2nat, List.foldl_append, be2nat_foldl]; rfl

theorem be2nat_lt (bs : List Byte) : be2nat bs < 256 ^ bs.length := by
  induction bs with
  | nil => simp [be2nat]
  | cons b bs ih =>
    rw [be2nat_cons, List.length_cons, pow_succ]
    have : b.toNat < 256 := b.isLt
    have : b.toNat * 256 ^ bs.length ≤ 255 * 256 ^ bs.length := Nat.mul_le_mul_right _ (by omega)
    omega

theorem length_natBytes (n v : Nat) : (natBytes n v).length = n := by
  induction n generalizing v with
  | zero => rfl
  | succ n ih => simp [natBytes, ih]

/-- The n low bytes of v have the value of v below 256^n. -/
theorem be2nat_natBytes (n v : Nat) : be2nat (natBytes n v) = v % 256 ^ n := by
  induction n generalizing v with
  | zero => simp [natBytes, be2nat, Nat.mod_one]
  | succ n ih =>
    rw [natBytes, be2nat_append, ih]
    simp only [be2nat, List.foldl_cons, List.foldl_nil, List.length_cons, List.length_nil, BitVec.toNat_ofNat]
    rw [pow_succ' 256 n, Nat.mod_mul]; norm_num; ring

/-- A byte list is the encoding of its value in as many bytes. -/
theorem natBytes_be2nat (bs : List Byte) : natBytes bs.length (be2nat bs) = bs := by
  induction bs using List.reverseRecOn with
  | nil => rfl
  | append_singleton bs b ih =>
    rw [List.length_append, List.length_singleton, natBytes, be2nat_append]
    have hb : b.toNat < 256 := b.isLt
    have h1 : be2nat [b] = b.toNat := by simp [be2nat]
    rw [h1, List.length_singleton, pow_one, show (be2nat bs * 256 + b.toNat) / 256 = be2nat bs by omega, ih]
    congr 2
    apply BitVec.eq_of_toNat_eq; rw [BitVec.toNat_ofNat]; omega

theorem getD_natBytes (n v j : Nat) (h : j < n) :
    ((natBytes n v).getD j 0).toNat = v / 256 ^ (n - 1 - j) % 256 := by
  induction n generalizing v j with
  | zero => omega
  | succ n ih =>
    rw [natBytes]
    by_cases hj : j < n
    · rw [List.getD_append _ _ _ _ (by rw [length_natBytes]; exact hj), ih _ _ hj, Nat.div_div_eq_div_mul, ← pow_succ']
      congr 3; omega
    · have : j = n := by omega
      subst this
      rw [List.getD_append_right _ _ _ _ (by rw [length_natBytes]), length_natBytes]
      simp

theorem length_decryptedBuffer (s : State) (v : Nat) (h : (nat2be v).length ≤ s.msgBytes) :
    (s.decryptedBuffer v).length = s.msgBytes := by
  simp [State.decryptedBuffer]; omega

/-- A byte list stored at index 0 is read back. -/
theorem Memory.readList_writeList (m : Memory) (bs cs : List Byte) (h : m.wf = true) :
    (m.writeList 0 (bs ++ cs)).readList 0 bs.length = bs := by
  apply List.ext_getElem?
  intro i
  by_cases hi : i < bs.length
  · have := Memory.getD_readList (m.writeList 0 (bs ++ cs)) 0 bs.length i hi
    rw [Memory.read_writeList _ _ _ _ h, if_pos (by simp; omega),
        Nat.zero_add, Nat.sub_zero, List.getD_append _ _ _ _ hi] at this
    rw [List.getD_eq_getElem?_getD, List.getD_eq_getElem?_getD, List.getElem?_eq_getElem (by simpa using hi),
        List.getElem?_eq_getElem hi] at this
    rw [List.getElem?_eq_getElem (by simpa using hi), List.getElem?_eq_getElem hi]
    simpa using this
  · rw [List.getElem?_eq_none (by simp; omega), List.getElem?_eq_none (by omega)]

end Sys2Proof.Machine
end

