-- ==== Sys2Proof/Laws/State.lean ====
section
/-!
SUPPORT. Laws/State.lean: for each named update of the state, what each field is after it, and the value of
`busy`; so that no later proof unfolds a record update.
-/

namespace Sys2Proof.Machine

/-! ### `State.ures0` -/

@[simp] theorem State.ures0_width (s : State) (v : Nat) : (s.ures0 v).width = s.width := rfl
@[simp] theorem State.ures0_opa (s : State) (v : Nat) : (s.ures0 v).opa = s.opa := rfl
@[simp] theorem State.ures0_opb (s : State) (v : Nat) : (s.ures0 v).opb = s.opb := rfl
@[simp] theorem State.ures0_opc (s : State) (v : Nat) : (s.ures0 v).opc = s.opc := rfl
@[simp] theorem State.ures0_res0 (s : State) (v : Nat) : (s.ures0 v).res0 = v := rfl
@[simp] theorem State.ures0_res1 (s : State) (v : Nat) : (s.ures0 v).res1 = s.res1 := rfl
@[simp] theorem State.ures0_res2 (s : State) (v : Nat) : (s.ures0 v).res2 = s.res2 := rfl
@[simp] theorem State.ures0_pubN (s : State) (v : Nat) : (s.ures0 v).pubN = s.pubN := rfl
@[simp] theorem State.ures0_pubE (s : State) (v : Nat) : (s.ures0 v).pubE = s.pubE := rfl
@[simp] theorem State.ures0_privN (s : State) (v : Nat) : (s.ures0 v).privN = s.privN := rfl
@[simp] theorem State.ures0_privD (s : State) (v : Nat) : (s.ures0 v).privD = s.privD := rfl
@[simp] theorem State.ures0_msg (s : State) (v : Nat) : (s.ures0 v).msg = s.msg := rfl
@[simp] theorem State.ures0_msglen (s : State) (v : Nat) : (s.ures0 v).msglen = s.msglen := rfl
@[simp] theorem State.ures0_opaNeg (s : State) (v : Nat) : (s.ures0 v).opaNeg = s.opaNeg := rfl
@[simp] theorem State.ures0_opbNeg (s : State) (v : Nat) : (s.ures0 v).opbNeg = s.opbNeg := rfl
@[simp] theorem State.ures0_res0Neg (s : State) (v : Nat) : (s.ures0 v).res0Neg = false := rfl
@[simp] theorem State.ures0_res1Neg (s : State) (v : Nat) : (s.ures0 v).res1Neg = s.res1Neg := rfl
@[simp] theorem State.ures0_res2Neg (s : State) (v : Nat) : (s.ures0 v).res2Neg = s.res2Neg := rfl
@[simp] theorem State.ures0_maxatt (s : State) (v : Nat) : (s.ures0 v).maxatt = s.maxatt := rfl
@[simp] theorem State.ures0_attcnt (s : State) (v : Nat) : (s.ures0 v).attcnt = s.attcnt := rfl
@[simp] theorem State.ures0_done (s : State) (v : Nat) : (s.ures0 v).done = s.done := rfl
@[simp] theorem State.ures0_err (s : State) (v : Nat) : (s.ures0 v).err = s.err := rfl
@[simp] theorem State.ures0_prime (s : State) (v : Nat) : (s.ures0 v).prime = s.prime := rfl
@[simp] theorem State.ures0_errcode (s : State) (v : Nat) : (s.ures0 v).errcode = s.errcode := rfl
@[simp] theorem State.ures0_seq (s : State) (v : Nat) : (s.ures0 v).seq = s.seq := rfl
@[simp] theorem State.ures0_answers (s : State) (v : Nat) : (s.ures0 v).answers = s.answers := rfl
@[simp] theorem State.ures0_inputs (s : State) (v : Nat) : (s.ures0 v).inputs = s.inputs := rfl
@[simp] theorem State.ures0_port (s : State) (v : Nat) : (s.ures0 v).port = s.port := rfl
@[simp] theorem State.ures0_epoch (s : State) (v : Nat) : (s.ures0 v).epoch = s.epoch := rfl
@[simp] theorem State.ures0_busy (s : State) (v : Nat) : (s.ures0 v).busy = s.busy := rfl

/-! ### `State.sres0` -/

@[simp] theorem State.sres0_width (s : State) (v : Int) : (s.sres0 v).width = s.width := rfl
@[simp] theorem State.sres0_opa (s : State) (v : Int) : (s.sres0 v).opa = s.opa := rfl
@[simp] theorem State.sres0_opb (s : State) (v : Int) : (s.sres0 v).opb = s.opb := rfl
@[simp] theorem State.sres0_opc (s : State) (v : Int) : (s.sres0 v).opc = s.opc := rfl
@[simp] theorem State.sres0_res0 (s : State) (v : Int) : (s.sres0 v).res0 = v.natAbs := rfl
@[simp] theorem State.sres0_res1 (s : State) (v : Int) : (s.sres0 v).res1 = s.res1 := rfl
@[simp] theorem State.sres0_res2 (s : State) (v : Int) : (s.sres0 v).res2 = s.res2 := rfl
@[simp] theorem State.sres0_pubN (s : State) (v : Int) : (s.sres0 v).pubN = s.pubN := rfl
@[simp] theorem State.sres0_pubE (s : State) (v : Int) : (s.sres0 v).pubE = s.pubE := rfl
@[simp] theorem State.sres0_privN (s : State) (v : Int) : (s.sres0 v).privN = s.privN := rfl
@[simp] theorem State.sres0_privD (s : State) (v : Int) : (s.sres0 v).privD = s.privD := rfl
@[simp] theorem State.sres0_msg (s : State) (v : Int) : (s.sres0 v).msg = s.msg := rfl
@[simp] theorem State.sres0_msglen (s : State) (v : Int) : (s.sres0 v).msglen = s.msglen := rfl
@[simp] theorem State.sres0_opaNeg (s : State) (v : Int) : (s.sres0 v).opaNeg = s.opaNeg := rfl
@[simp] theorem State.sres0_opbNeg (s : State) (v : Int) : (s.sres0 v).opbNeg = s.opbNeg := rfl
@[simp] theorem State.sres0_res0Neg (s : State) (v : Int) : (s.sres0 v).res0Neg = decide (v < 0) := rfl
@[simp] theorem State.sres0_res1Neg (s : State) (v : Int) : (s.sres0 v).res1Neg = s.res1Neg := rfl
@[simp] theorem State.sres0_res2Neg (s : State) (v : Int) : (s.sres0 v).res2Neg = s.res2Neg := rfl
@[simp] theorem State.sres0_maxatt (s : State) (v : Int) : (s.sres0 v).maxatt = s.maxatt := rfl
@[simp] theorem State.sres0_attcnt (s : State) (v : Int) : (s.sres0 v).attcnt = s.attcnt := rfl
@[simp] theorem State.sres0_done (s : State) (v : Int) : (s.sres0 v).done = s.done := rfl
@[simp] theorem State.sres0_err (s : State) (v : Int) : (s.sres0 v).err = s.err := rfl
@[simp] theorem State.sres0_prime (s : State) (v : Int) : (s.sres0 v).prime = s.prime := rfl
@[simp] theorem State.sres0_errcode (s : State) (v : Int) : (s.sres0 v).errcode = s.errcode := rfl
@[simp] theorem State.sres0_seq (s : State) (v : Int) : (s.sres0 v).seq = s.seq := rfl
@[simp] theorem State.sres0_answers (s : State) (v : Int) : (s.sres0 v).answers = s.answers := rfl
@[simp] theorem State.sres0_inputs (s : State) (v : Int) : (s.sres0 v).inputs = s.inputs := rfl
@[simp] theorem State.sres0_port (s : State) (v : Int) : (s.sres0 v).port = s.port := rfl
@[simp] theorem State.sres0_epoch (s : State) (v : Int) : (s.sres0 v).epoch = s.epoch := rfl
@[simp] theorem State.sres0_busy (s : State) (v : Int) : (s.sres0 v).busy = s.busy := rfl

/-! ### `State.sres1` -/

@[simp] theorem State.sres1_width (s : State) (v : Int) : (s.sres1 v).width = s.width := rfl
@[simp] theorem State.sres1_opa (s : State) (v : Int) : (s.sres1 v).opa = s.opa := rfl
@[simp] theorem State.sres1_opb (s : State) (v : Int) : (s.sres1 v).opb = s.opb := rfl
@[simp] theorem State.sres1_opc (s : State) (v : Int) : (s.sres1 v).opc = s.opc := rfl
@[simp] theorem State.sres1_res0 (s : State) (v : Int) : (s.sres1 v).res0 = s.res0 := rfl
@[simp] theorem State.sres1_res1 (s : State) (v : Int) : (s.sres1 v).res1 = v.natAbs := rfl
@[simp] theorem State.sres1_res2 (s : State) (v : Int) : (s.sres1 v).res2 = s.res2 := rfl
@[simp] theorem State.sres1_pubN (s : State) (v : Int) : (s.sres1 v).pubN = s.pubN := rfl
@[simp] theorem State.sres1_pubE (s : State) (v : Int) : (s.sres1 v).pubE = s.pubE := rfl
@[simp] theorem State.sres1_privN (s : State) (v : Int) : (s.sres1 v).privN = s.privN := rfl
@[simp] theorem State.sres1_privD (s : State) (v : Int) : (s.sres1 v).privD = s.privD := rfl
@[simp] theorem State.sres1_msg (s : State) (v : Int) : (s.sres1 v).msg = s.msg := rfl
@[simp] theorem State.sres1_msglen (s : State) (v : Int) : (s.sres1 v).msglen = s.msglen := rfl
@[simp] theorem State.sres1_opaNeg (s : State) (v : Int) : (s.sres1 v).opaNeg = s.opaNeg := rfl
@[simp] theorem State.sres1_opbNeg (s : State) (v : Int) : (s.sres1 v).opbNeg = s.opbNeg := rfl
@[simp] theorem State.sres1_res0Neg (s : State) (v : Int) : (s.sres1 v).res0Neg = s.res0Neg := rfl
@[simp] theorem State.sres1_res1Neg (s : State) (v : Int) : (s.sres1 v).res1Neg = decide (v < 0) := rfl
@[simp] theorem State.sres1_res2Neg (s : State) (v : Int) : (s.sres1 v).res2Neg = s.res2Neg := rfl
@[simp] theorem State.sres1_maxatt (s : State) (v : Int) : (s.sres1 v).maxatt = s.maxatt := rfl
@[simp] theorem State.sres1_attcnt (s : State) (v : Int) : (s.sres1 v).attcnt = s.attcnt := rfl
@[simp] theorem State.sres1_done (s : State) (v : Int) : (s.sres1 v).done = s.done := rfl
@[simp] theorem State.sres1_err (s : State) (v : Int) : (s.sres1 v).err = s.err := rfl
@[simp] theorem State.sres1_prime (s : State) (v : Int) : (s.sres1 v).prime = s.prime := rfl
@[simp] theorem State.sres1_errcode (s : State) (v : Int) : (s.sres1 v).errcode = s.errcode := rfl
@[simp] theorem State.sres1_seq (s : State) (v : Int) : (s.sres1 v).seq = s.seq := rfl
@[simp] theorem State.sres1_answers (s : State) (v : Int) : (s.sres1 v).answers = s.answers := rfl
@[simp] theorem State.sres1_inputs (s : State) (v : Int) : (s.sres1 v).inputs = s.inputs := rfl
@[simp] theorem State.sres1_port (s : State) (v : Int) : (s.sres1 v).port = s.port := rfl
@[simp] theorem State.sres1_epoch (s : State) (v : Int) : (s.sres1 v).epoch = s.epoch := rfl
@[simp] theorem State.sres1_busy (s : State) (v : Int) : (s.sres1 v).busy = s.busy := rfl

/-! ### `State.sres2` -/

@[simp] theorem State.sres2_width (s : State) (v : Int) : (s.sres2 v).width = s.width := rfl
@[simp] theorem State.sres2_opa (s : State) (v : Int) : (s.sres2 v).opa = s.opa := rfl
@[simp] theorem State.sres2_opb (s : State) (v : Int) : (s.sres2 v).opb = s.opb := rfl
@[simp] theorem State.sres2_opc (s : State) (v : Int) : (s.sres2 v).opc = s.opc := rfl
@[simp] theorem State.sres2_res0 (s : State) (v : Int) : (s.sres2 v).res0 = s.res0 := rfl
@[simp] theorem State.sres2_res1 (s : State) (v : Int) : (s.sres2 v).res1 = s.res1 := rfl
@[simp] theorem State.sres2_res2 (s : State) (v : Int) : (s.sres2 v).res2 = v.natAbs := rfl
@[simp] theorem State.sres2_pubN (s : State) (v : Int) : (s.sres2 v).pubN = s.pubN := rfl
@[simp] theorem State.sres2_pubE (s : State) (v : Int) : (s.sres2 v).pubE = s.pubE := rfl
@[simp] theorem State.sres2_privN (s : State) (v : Int) : (s.sres2 v).privN = s.privN := rfl
@[simp] theorem State.sres2_privD (s : State) (v : Int) : (s.sres2 v).privD = s.privD := rfl
@[simp] theorem State.sres2_msg (s : State) (v : Int) : (s.sres2 v).msg = s.msg := rfl
@[simp] theorem State.sres2_msglen (s : State) (v : Int) : (s.sres2 v).msglen = s.msglen := rfl
@[simp] theorem State.sres2_opaNeg (s : State) (v : Int) : (s.sres2 v).opaNeg = s.opaNeg := rfl
@[simp] theorem State.sres2_opbNeg (s : State) (v : Int) : (s.sres2 v).opbNeg = s.opbNeg := rfl
@[simp] theorem State.sres2_res0Neg (s : State) (v : Int) : (s.sres2 v).res0Neg = s.res0Neg := rfl
@[simp] theorem State.sres2_res1Neg (s : State) (v : Int) : (s.sres2 v).res1Neg = s.res1Neg := rfl
@[simp] theorem State.sres2_res2Neg (s : State) (v : Int) : (s.sres2 v).res2Neg = decide (v < 0) := rfl
@[simp] theorem State.sres2_maxatt (s : State) (v : Int) : (s.sres2 v).maxatt = s.maxatt := rfl
@[simp] theorem State.sres2_attcnt (s : State) (v : Int) : (s.sres2 v).attcnt = s.attcnt := rfl
@[simp] theorem State.sres2_done (s : State) (v : Int) : (s.sres2 v).done = s.done := rfl
@[simp] theorem State.sres2_err (s : State) (v : Int) : (s.sres2 v).err = s.err := rfl
@[simp] theorem State.sres2_prime (s : State) (v : Int) : (s.sres2 v).prime = s.prime := rfl
@[simp] theorem State.sres2_errcode (s : State) (v : Int) : (s.sres2 v).errcode = s.errcode := rfl
@[simp] theorem State.sres2_seq (s : State) (v : Int) : (s.sres2 v).seq = s.seq := rfl
@[simp] theorem State.sres2_answers (s : State) (v : Int) : (s.sres2 v).answers = s.answers := rfl
@[simp] theorem State.sres2_inputs (s : State) (v : Int) : (s.sres2 v).inputs = s.inputs := rfl
@[simp] theorem State.sres2_port (s : State) (v : Int) : (s.sres2 v).port = s.port := rfl
@[simp] theorem State.sres2_epoch (s : State) (v : Int) : (s.sres2 v).epoch = s.epoch := rfl
@[simp] theorem State.sres2_busy (s : State) (v : Int) : (s.sres2 v).busy = s.busy := rfl

/-! ### `State.writeKeys` -/

@[simp] theorem State.writeKeys_width (s : State) (k : KeyPair) : (s.writeKeys k).width = s.width := rfl
@[simp] theorem State.writeKeys_opa (s : State) (k : KeyPair) : (s.writeKeys k).opa = s.opa := rfl
@[simp] theorem State.writeKeys_opb (s : State) (k : KeyPair) : (s.writeKeys k).opb = s.opb := rfl
@[simp] theorem State.writeKeys_opc (s : State) (k : KeyPair) : (s.writeKeys k).opc = s.opc := rfl
@[simp] theorem State.writeKeys_res0 (s : State) (k : KeyPair) : (s.writeKeys k).res0 = s.res0 := rfl
@[simp] theorem State.writeKeys_res1 (s : State) (k : KeyPair) : (s.writeKeys k).res1 = s.res1 := rfl
@[simp] theorem State.writeKeys_res2 (s : State) (k : KeyPair) : (s.writeKeys k).res2 = s.res2 := rfl
@[simp] theorem State.writeKeys_pubN (s : State) (k : KeyPair) : (s.writeKeys k).pubN = k.n := rfl
@[simp] theorem State.writeKeys_pubE (s : State) (k : KeyPair) : (s.writeKeys k).pubE = k.e := rfl
@[simp] theorem State.writeKeys_privN (s : State) (k : KeyPair) : (s.writeKeys k).privN = k.n := rfl
@[simp] theorem State.writeKeys_privD (s : State) (k : KeyPair) : (s.writeKeys k).privD = k.d := rfl
@[simp] theorem State.writeKeys_msg (s : State) (k : KeyPair) : (s.writeKeys k).msg = s.msg := rfl
@[simp] theorem State.writeKeys_msglen (s : State) (k : KeyPair) : (s.writeKeys k).msglen = s.msglen := rfl
@[simp] theorem State.writeKeys_opaNeg (s : State) (k : KeyPair) : (s.writeKeys k).opaNeg = s.opaNeg := rfl
@[simp] theorem State.writeKeys_opbNeg (s : State) (k : KeyPair) : (s.writeKeys k).opbNeg = s.opbNeg := rfl
@[simp] theorem State.writeKeys_res0Neg (s : State) (k : KeyPair) : (s.writeKeys k).res0Neg = s.res0Neg := rfl
@[simp] theorem State.writeKeys_res1Neg (s : State) (k : KeyPair) : (s.writeKeys k).res1Neg = s.res1Neg := rfl
@[simp] theorem State.writeKeys_res2Neg (s : State) (k : KeyPair) : (s.writeKeys k).res2Neg = s.res2Neg := rfl
@[simp] theorem State.writeKeys_maxatt (s : State) (k : KeyPair) : (s.writeKeys k).maxatt = s.maxatt := rfl
@[simp] theorem State.writeKeys_attcnt (s : State) (k : KeyPair) : (s.writeKeys k).attcnt = s.attcnt := rfl
@[simp] theorem State.writeKeys_done (s : State) (k : KeyPair) : (s.writeKeys k).done = s.done := rfl
@[simp] theorem State.writeKeys_err (s : State) (k : KeyPair) : (s.writeKeys k).err = s.err := rfl
@[simp] theorem State.writeKeys_prime (s : State) (k : KeyPair) : (s.writeKeys k).prime = s.prime := rfl
@[simp] theorem State.writeKeys_errcode (s : State) (k : KeyPair) : (s.writeKeys k).errcode = s.errcode := rfl
@[simp] theorem State.writeKeys_seq (s : State) (k : KeyPair) : (s.writeKeys k).seq = s.seq := rfl
@[simp] theorem State.writeKeys_answers (s : State) (k : KeyPair) : (s.writeKeys k).answers = s.answers := rfl
@[simp] theorem State.writeKeys_inputs (s : State) (k : KeyPair) : (s.writeKeys k).inputs = s.inputs := rfl
@[simp] theorem State.writeKeys_port (s : State) (k : KeyPair) : (s.writeKeys k).port = s.port := rfl
@[simp] theorem State.writeKeys_epoch (s : State) (k : KeyPair) : (s.writeKeys k).epoch = s.epoch := rfl
@[simp] theorem State.writeKeys_busy (s : State) (k : KeyPair) : (s.writeKeys k).busy = s.busy := rfl

/-! ### `State.setPrime` -/

@[simp] theorem State.setPrime_width (s : State) (b : Bool) : (s.setPrime b).width = s.width := rfl
@[simp] theorem State.setPrime_opa (s : State) (b : Bool) : (s.setPrime b).opa = s.opa := rfl
@[simp] theorem State.setPrime_opb (s : State) (b : Bool) : (s.setPrime b).opb = s.opb := rfl
@[simp] theorem State.setPrime_opc (s : State) (b : Bool) : (s.setPrime b).opc = s.opc := rfl
@[simp] theorem State.setPrime_res0 (s : State) (b : Bool) : (s.setPrime b).res0 = s.res0 := rfl
@[simp] theorem State.setPrime_res1 (s : State) (b : Bool) : (s.setPrime b).res1 = s.res1 := rfl
@[simp] theorem State.setPrime_res2 (s : State) (b : Bool) : (s.setPrime b).res2 = s.res2 := rfl
@[simp] theorem State.setPrime_pubN (s : State) (b : Bool) : (s.setPrime b).pubN = s.pubN := rfl
@[simp] theorem State.setPrime_pubE (s : State) (b : Bool) : (s.setPrime b).pubE = s.pubE := rfl
@[simp] theorem State.setPrime_privN (s : State) (b : Bool) : (s.setPrime b).privN = s.privN := rfl
@[simp] theorem State.setPrime_privD (s : State) (b : Bool) : (s.setPrime b).privD = s.privD := rfl
@[simp] theorem State.setPrime_msg (s : State) (b : Bool) : (s.setPrime b).msg = s.msg := rfl
@[simp] theorem State.setPrime_msglen (s : State) (b : Bool) : (s.setPrime b).msglen = s.msglen := rfl
@[simp] theorem State.setPrime_opaNeg (s : State) (b : Bool) : (s.setPrime b).opaNeg = s.opaNeg := rfl
@[simp] theorem State.setPrime_opbNeg (s : State) (b : Bool) : (s.setPrime b).opbNeg = s.opbNeg := rfl
@[simp] theorem State.setPrime_res0Neg (s : State) (b : Bool) : (s.setPrime b).res0Neg = s.res0Neg := rfl
@[simp] theorem State.setPrime_res1Neg (s : State) (b : Bool) : (s.setPrime b).res1Neg = s.res1Neg := rfl
@[simp] theorem State.setPrime_res2Neg (s : State) (b : Bool) : (s.setPrime b).res2Neg = s.res2Neg := rfl
@[simp] theorem State.setPrime_maxatt (s : State) (b : Bool) : (s.setPrime b).maxatt = s.maxatt := rfl
@[simp] theorem State.setPrime_attcnt (s : State) (b : Bool) : (s.setPrime b).attcnt = s.attcnt := rfl
@[simp] theorem State.setPrime_done (s : State) (b : Bool) : (s.setPrime b).done = s.done := rfl
@[simp] theorem State.setPrime_err (s : State) (b : Bool) : (s.setPrime b).err = s.err := rfl
@[simp] theorem State.setPrime_prime (s : State) (b : Bool) : (s.setPrime b).prime = b := rfl
@[simp] theorem State.setPrime_errcode (s : State) (b : Bool) : (s.setPrime b).errcode = s.errcode := rfl
@[simp] theorem State.setPrime_seq (s : State) (b : Bool) : (s.setPrime b).seq = s.seq := rfl
@[simp] theorem State.setPrime_answers (s : State) (b : Bool) : (s.setPrime b).answers = s.answers := rfl
@[simp] theorem State.setPrime_inputs (s : State) (b : Bool) : (s.setPrime b).inputs = s.inputs := rfl
@[simp] theorem State.setPrime_port (s : State) (b : Bool) : (s.setPrime b).port = s.port := rfl
@[simp] theorem State.setPrime_epoch (s : State) (b : Bool) : (s.setPrime b).epoch = s.epoch := rfl
@[simp] theorem State.setPrime_busy (s : State) (b : Bool) : (s.setPrime b).busy = s.busy := rfl

/-! ### `State.writeSign` -/

@[simp] theorem State.writeSign_width (s : State) (d : Word) : (s.writeSign d).width = s.width := rfl
@[simp] theorem State.writeSign_opa (s : State) (d : Word) : (s.writeSign d).opa = s.opa := rfl
@[simp] theorem State.writeSign_opb (s : State) (d : Word) : (s.writeSign d).opb = s.opb := rfl
@[simp] theorem State.writeSign_opc (s : State) (d : Word) : (s.writeSign d).opc = s.opc := rfl
@[simp] theorem State.writeSign_res0 (s : State) (d : Word) : (s.writeSign d).res0 = s.res0 := rfl
@[simp] theorem State.writeSign_res1 (s : State) (d : Word) : (s.writeSign d).res1 = s.res1 := rfl
@[simp] theorem State.writeSign_res2 (s : State) (d : Word) : (s.writeSign d).res2 = s.res2 := rfl
@[simp] theorem State.writeSign_pubN (s : State) (d : Word) : (s.writeSign d).pubN = s.pubN := rfl
@[simp] theorem State.writeSign_pubE (s : State) (d : Word) : (s.writeSign d).pubE = s.pubE := rfl
@[simp] theorem State.writeSign_privN (s : State) (d : Word) : (s.writeSign d).privN = s.privN := rfl
@[simp] theorem State.writeSign_privD (s : State) (d : Word) : (s.writeSign d).privD = s.privD := rfl
@[simp] theorem State.writeSign_msg (s : State) (d : Word) : (s.writeSign d).msg = s.msg := rfl
@[simp] theorem State.writeSign_msglen (s : State) (d : Word) : (s.writeSign d).msglen = s.msglen := rfl
@[simp] theorem State.writeSign_opaNeg (s : State) (d : Word) : (s.writeSign d).opaNeg = d.getLsbD 0 := rfl
@[simp] theorem State.writeSign_opbNeg (s : State) (d : Word) : (s.writeSign d).opbNeg = d.getLsbD 1 := rfl
@[simp] theorem State.writeSign_res0Neg (s : State) (d : Word) : (s.writeSign d).res0Neg = s.res0Neg := rfl
@[simp] theorem State.writeSign_res1Neg (s : State) (d : Word) : (s.writeSign d).res1Neg = s.res1Neg := rfl
@[simp] theorem State.writeSign_res2Neg (s : State) (d : Word) : (s.writeSign d).res2Neg = s.res2Neg := rfl
@[simp] theorem State.writeSign_maxatt (s : State) (d : Word) : (s.writeSign d).maxatt = s.maxatt := rfl
@[simp] theorem State.writeSign_attcnt (s : State) (d : Word) : (s.writeSign d).attcnt = s.attcnt := rfl
@[simp] theorem State.writeSign_done (s : State) (d : Word) : (s.writeSign d).done = s.done := rfl
@[simp] theorem State.writeSign_err (s : State) (d : Word) : (s.writeSign d).err = s.err := rfl
@[simp] theorem State.writeSign_prime (s : State) (d : Word) : (s.writeSign d).prime = s.prime := rfl
@[simp] theorem State.writeSign_errcode (s : State) (d : Word) : (s.writeSign d).errcode = s.errcode := rfl
@[simp] theorem State.writeSign_seq (s : State) (d : Word) : (s.writeSign d).seq = s.seq := rfl
@[simp] theorem State.writeSign_answers (s : State) (d : Word) : (s.writeSign d).answers = s.answers := rfl
@[simp] theorem State.writeSign_inputs (s : State) (d : Word) : (s.writeSign d).inputs = s.inputs := rfl
@[simp] theorem State.writeSign_port (s : State) (d : Word) : (s.writeSign d).port = s.port := rfl
@[simp] theorem State.writeSign_epoch (s : State) (d : Word) : (s.writeSign d).epoch = s.epoch := rfl
@[simp] theorem State.writeSign_busy (s : State) (d : Word) : (s.writeSign d).busy = s.busy := rfl

/-! ### `State.accept` -/

@[simp] theorem State.accept_width (s : State) (w : Word) : (s.accept w).width = s.width := rfl
@[simp] theorem State.accept_opa (s : State) (w : Word) : (s.accept w).opa = s.opa := rfl
@[simp] theorem State.accept_opb (s : State) (w : Word) : (s.accept w).opb = s.opb := rfl
@[simp] theorem State.accept_opc (s : State) (w : Word) : (s.accept w).opc = s.opc := rfl
@[simp] theorem State.accept_res0 (s : State) (w : Word) : (s.accept w).res0 = s.res0 := rfl
@[simp] theorem State.accept_res1 (s : State) (w : Word) : (s.accept w).res1 = s.res1 := rfl
@[simp] theorem State.accept_res2 (s : State) (w : Word) : (s.accept w).res2 = s.res2 := rfl
@[simp] theorem State.accept_pubN (s : State) (w : Word) : (s.accept w).pubN = s.pubN := rfl
@[simp] theorem State.accept_pubE (s : State) (w : Word) : (s.accept w).pubE = s.pubE := rfl
@[simp] theorem State.accept_privN (s : State) (w : Word) : (s.accept w).privN = s.privN := rfl
@[simp] theorem State.accept_privD (s : State) (w : Word) : (s.accept w).privD = s.privD := rfl
@[simp] theorem State.accept_msg (s : State) (w : Word) : (s.accept w).msg = s.msg := rfl
@[simp] theorem State.accept_msglen (s : State) (w : Word) : (s.accept w).msglen = s.msglen := rfl
@[simp] theorem State.accept_opaNeg (s : State) (w : Word) : (s.accept w).opaNeg = s.opaNeg := rfl
@[simp] theorem State.accept_opbNeg (s : State) (w : Word) : (s.accept w).opbNeg = s.opbNeg := rfl
@[simp] theorem State.accept_res0Neg (s : State) (w : Word) : (s.accept w).res0Neg = s.res0Neg := rfl
@[simp] theorem State.accept_res1Neg (s : State) (w : Word) : (s.accept w).res1Neg = s.res1Neg := rfl
@[simp] theorem State.accept_res2Neg (s : State) (w : Word) : (s.accept w).res2Neg = s.res2Neg := rfl
@[simp] theorem State.accept_maxatt (s : State) (w : Word) : (s.accept w).maxatt = s.maxatt := rfl
@[simp] theorem State.accept_attcnt (s : State) (w : Word) : (s.accept w).attcnt = s.attcnt := rfl
@[simp] theorem State.accept_done (s : State) (w : Word) : (s.accept w).done = false := rfl
@[simp] theorem State.accept_err (s : State) (w : Word) : (s.accept w).err = false := rfl
@[simp] theorem State.accept_prime (s : State) (w : Word) : (s.accept w).prime = s.prime := rfl
@[simp] theorem State.accept_errcode (s : State) (w : Word) : (s.accept w).errcode = 0 := rfl
@[simp] theorem State.accept_seq (s : State) (w : Word) : (s.accept w).seq = .busy w none := rfl
@[simp] theorem State.accept_answers (s : State) (w : Word) : (s.accept w).answers = s.answers := rfl
@[simp] theorem State.accept_inputs (s : State) (w : Word) : (s.accept w).inputs = s.inputs := rfl
@[simp] theorem State.accept_port (s : State) (w : Word) : (s.accept w).port = s.port := rfl
@[simp] theorem State.accept_epoch (s : State) (w : Word) : (s.accept w).epoch = s.epoch := rfl
@[simp] theorem State.accept_busy (s : State) (w : Word) : (s.accept w).busy = true := rfl

/-! ### `State.complete` -/

@[simp] theorem State.complete_width (s : State) : (s.complete).width = s.width := rfl
@[simp] theorem State.complete_opa (s : State) : (s.complete).opa = s.opa := rfl
@[simp] theorem State.complete_opb (s : State) : (s.complete).opb = s.opb := rfl
@[simp] theorem State.complete_opc (s : State) : (s.complete).opc = s.opc := rfl
@[simp] theorem State.complete_res0 (s : State) : (s.complete).res0 = s.res0 := rfl
@[simp] theorem State.complete_res1 (s : State) : (s.complete).res1 = s.res1 := rfl
@[simp] theorem State.complete_res2 (s : State) : (s.complete).res2 = s.res2 := rfl
@[simp] theorem State.complete_pubN (s : State) : (s.complete).pubN = s.pubN := rfl
@[simp] theorem State.complete_pubE (s : State) : (s.complete).pubE = s.pubE := rfl
@[simp] theorem State.complete_privN (s : State) : (s.complete).privN = s.privN := rfl
@[simp] theorem State.complete_privD (s : State) : (s.complete).privD = s.privD := rfl
@[simp] theorem State.complete_msg (s : State) : (s.complete).msg = s.msg := rfl
@[simp] theorem State.complete_msglen (s : State) : (s.complete).msglen = s.msglen := rfl
@[simp] theorem State.complete_opaNeg (s : State) : (s.complete).opaNeg = s.opaNeg := rfl
@[simp] theorem State.complete_opbNeg (s : State) : (s.complete).opbNeg = s.opbNeg := rfl
@[simp] theorem State.complete_res0Neg (s : State) : (s.complete).res0Neg = s.res0Neg := rfl
@[simp] theorem State.complete_res1Neg (s : State) : (s.complete).res1Neg = s.res1Neg := rfl
@[simp] theorem State.complete_res2Neg (s : State) : (s.complete).res2Neg = s.res2Neg := rfl
@[simp] theorem State.complete_maxatt (s : State) : (s.complete).maxatt = s.maxatt := rfl
@[simp] theorem State.complete_attcnt (s : State) : (s.complete).attcnt = s.attcnt := rfl
@[simp] theorem State.complete_done (s : State) : (s.complete).done = true := rfl
@[simp] theorem State.complete_err (s : State) : (s.complete).err = s.err := rfl
@[simp] theorem State.complete_prime (s : State) : (s.complete).prime = s.prime := rfl
@[simp] theorem State.complete_errcode (s : State) : (s.complete).errcode = s.errcode := rfl
@[simp] theorem State.complete_seq (s : State) : (s.complete).seq = .idle := rfl
@[simp] theorem State.complete_answers (s : State) : (s.complete).answers = s.answers := rfl
@[simp] theorem State.complete_inputs (s : State) : (s.complete).inputs = s.inputs := rfl
@[simp] theorem State.complete_port (s : State) : (s.complete).port = s.port := rfl
@[simp] theorem State.complete_epoch (s : State) : (s.complete).epoch = s.epoch := rfl
@[simp] theorem State.complete_busy (s : State) : (s.complete).busy = false := rfl

/-! ### `State.fail` -/

@[simp] theorem State.fail_width (s : State) (e : CmdError) : (s.fail e).width = s.width := rfl
@[simp] theorem State.fail_opa (s : State) (e : CmdError) : (s.fail e).opa = s.opa := rfl
@[simp] theorem State.fail_opb (s : State) (e : CmdError) : (s.fail e).opb = s.opb := rfl
@[simp] theorem State.fail_opc (s : State) (e : CmdError) : (s.fail e).opc = s.opc := rfl
@[simp] theorem State.fail_res0 (s : State) (e : CmdError) : (s.fail e).res0 = s.res0 := rfl
@[simp] theorem State.fail_res1 (s : State) (e : CmdError) : (s.fail e).res1 = s.res1 := rfl
@[simp] theorem State.fail_res2 (s : State) (e : CmdError) : (s.fail e).res2 = s.res2 := rfl
@[simp] theorem State.fail_pubN (s : State) (e : CmdError) : (s.fail e).pubN = s.pubN := rfl
@[simp] theorem State.fail_pubE (s : State) (e : CmdError) : (s.fail e).pubE = s.pubE := rfl
@[simp] theorem State.fail_privN (s : State) (e : CmdError) : (s.fail e).privN = s.privN := rfl
@[simp] theorem State.fail_privD (s : State) (e : CmdError) : (s.fail e).privD = s.privD := rfl
@[simp] theorem State.fail_msg (s : State) (e : CmdError) : (s.fail e).msg = s.msg := rfl
@[simp] theorem State.fail_msglen (s : State) (e : CmdError) : (s.fail e).msglen = s.msglen := rfl
@[simp] theorem State.fail_opaNeg (s : State) (e : CmdError) : (s.fail e).opaNeg = s.opaNeg := rfl
@[simp] theorem State.fail_opbNeg (s : State) (e : CmdError) : (s.fail e).opbNeg = s.opbNeg := rfl
@[simp] theorem State.fail_res0Neg (s : State) (e : CmdError) : (s.fail e).res0Neg = s.res0Neg := rfl
@[simp] theorem State.fail_res1Neg (s : State) (e : CmdError) : (s.fail e).res1Neg = s.res1Neg := rfl
@[simp] theorem State.fail_res2Neg (s : State) (e : CmdError) : (s.fail e).res2Neg = s.res2Neg := rfl
@[simp] theorem State.fail_maxatt (s : State) (e : CmdError) : (s.fail e).maxatt = s.maxatt := rfl
@[simp] theorem State.fail_attcnt (s : State) (e : CmdError) : (s.fail e).attcnt = s.attcnt := rfl
@[simp] theorem State.fail_done (s : State) (e : CmdError) : (s.fail e).done = true := rfl
@[simp] theorem State.fail_err (s : State) (e : CmdError) : (s.fail e).err = true := rfl
@[simp] theorem State.fail_prime (s : State) (e : CmdError) : (s.fail e).prime = s.prime := rfl
@[simp] theorem State.fail_errcode (s : State) (e : CmdError) : (s.fail e).errcode = e.code := rfl
@[simp] theorem State.fail_seq (s : State) (e : CmdError) : (s.fail e).seq = .idle := rfl
@[simp] theorem State.fail_answers (s : State) (e : CmdError) : (s.fail e).answers = s.answers := rfl
@[simp] theorem State.fail_inputs (s : State) (e : CmdError) : (s.fail e).inputs = s.inputs := rfl
@[simp] theorem State.fail_port (s : State) (e : CmdError) : (s.fail e).port = s.port := rfl
@[simp] theorem State.fail_epoch (s : State) (e : CmdError) : (s.fail e).epoch = s.epoch := rfl
@[simp] theorem State.fail_busy (s : State) (e : CmdError) : (s.fail e).busy = false := rfl

/-! ### `State.waitFor` -/

@[simp] theorem State.waitFor_width (s : State) (i : Instr) (q : Request) :
    (s.waitFor i q).width = s.width := rfl
@[simp] theorem State.waitFor_opa (s : State) (i : Instr) (q : Request) : (s.waitFor i q).opa = s.opa := rfl
@[simp] theorem State.waitFor_opb (s : State) (i : Instr) (q : Request) : (s.waitFor i q).opb = s.opb := rfl
@[simp] theorem State.waitFor_opc (s : State) (i : Instr) (q : Request) : (s.waitFor i q).opc = s.opc := rfl
@[simp] theorem State.waitFor_res0 (s : State) (i : Instr) (q : Request) : (s.waitFor i q).res0 = s.res0 := rfl
@[simp] theorem State.waitFor_res1 (s : State) (i : Instr) (q : Request) : (s.waitFor i q).res1 = s.res1 := rfl
@[simp] theorem State.waitFor_res2 (s : State) (i : Instr) (q : Request) : (s.waitFor i q).res2 = s.res2 := rfl
@[simp] theorem State.waitFor_pubN (s : State) (i : Instr) (q : Request) : (s.waitFor i q).pubN = s.pubN := rfl
@[simp] theorem State.waitFor_pubE (s : State) (i : Instr) (q : Request) : (s.waitFor i q).pubE = s.pubE := rfl
@[simp] theorem State.waitFor_privN (s : State) (i : Instr) (q : Request) :
    (s.waitFor i q).privN = s.privN := rfl
@[simp] theorem State.waitFor_privD (s : State) (i : Instr) (q : Request) :
    (s.waitFor i q).privD = s.privD := rfl
@[simp] theorem State.waitFor_msg (s : State) (i : Instr) (q : Request) : (s.waitFor i q).msg = s.msg := rfl
@[simp] theorem State.waitFor_msglen (s : State) (i : Instr) (q : Request) :
    (s.waitFor i q).msglen = s.msglen := rfl
@[simp] theorem State.waitFor_opaNeg (s : State) (i : Instr) (q : Request) :
    (s.waitFor i q).opaNeg = s.opaNeg := rfl
@[simp] theorem State.waitFor_opbNeg (s : State) (i : Instr) (q : Request) :
    (s.waitFor i q).opbNeg = s.opbNeg := rfl
@[simp] theorem State.waitFor_res0Neg (s : State) (i : Instr) (q : Request) :
    (s.waitFor i q).res0Neg = s.res0Neg := rfl
@[simp] theorem State.waitFor_res1Neg (s : State) (i : Instr) (q : Request) :
    (s.waitFor i q).res1Neg = s.res1Neg := rfl
@[simp] theorem State.waitFor_res2Neg (s : State) (i : Instr) (q : Request) :
    (s.waitFor i q).res2Neg = s.res2Neg := rfl
@[simp] theorem State.waitFor_maxatt (s : State) (i : Instr) (q : Request) :
    (s.waitFor i q).maxatt = s.maxatt := rfl
@[simp] theorem State.waitFor_attcnt (s : State) (i : Instr) (q : Request) :
    (s.waitFor i q).attcnt = s.attcnt := rfl
@[simp] theorem State.waitFor_done (s : State) (i : Instr) (q : Request) : (s.waitFor i q).done = s.done := rfl
@[simp] theorem State.waitFor_err (s : State) (i : Instr) (q : Request) : (s.waitFor i q).err = s.err := rfl
@[simp] theorem State.waitFor_prime (s : State) (i : Instr) (q : Request) :
    (s.waitFor i q).prime = s.prime := rfl
@[simp] theorem State.waitFor_errcode (s : State) (i : Instr) (q : Request) :
    (s.waitFor i q).errcode = s.errcode := rfl
@[simp] theorem State.waitFor_seq (s : State) (i : Instr) (q : Request) :
    (s.waitFor i q).seq = .busy (encode i) (some q) := rfl
@[simp] theorem State.waitFor_answers (s : State) (i : Instr) (q : Request) :
    (s.waitFor i q).answers = s.answers := rfl
@[simp] theorem State.waitFor_inputs (s : State) (i : Instr) (q : Request) :
    (s.waitFor i q).inputs = s.inputs := rfl
@[simp] theorem State.waitFor_port (s : State) (i : Instr) (q : Request) : (s.waitFor i q).port = s.port := rfl
@[simp] theorem State.waitFor_epoch (s : State) (i : Instr) (q : Request) : (s.waitFor i q).epoch = s.epoch := rfl
@[simp] theorem State.waitFor_busy (s : State) (i : Instr) (q : Request) : (s.waitFor i q).busy = true := rfl

/-! ### The register accessors -/

@[simp] theorem State.reg_setReg_same (s : State) (r : BigReg) (v : Nat) : (s.setReg r v).reg r = v := by
  cases r <;> rfl

theorem State.reg_setReg_other (s : State) (r q : BigReg) (v : Nat) (h : q ≠ r) :
    (s.setReg r v).reg q = s.reg q := by
  cases r <;> cases q <;> first | rfl | exact absurd rfl h

theorem State.setReg_setReg (s : State) (r : BigReg) (u v : Nat) :
    (s.setReg r u).setReg r v = s.setReg r v := by
  cases r <;> rfl

theorem State.setReg_reg (s : State) (r : BigReg) : s.setReg r (s.reg r) = s := by
  cases r <;> rfl

/-- A register write leaves every field but the registers. -/
theorem State.setReg_frame (s : State) (r : BigReg) (v : Nat) :
    (s.setReg r v).width = s.width ∧ (s.setReg r v).msg = s.msg ∧ (s.setReg r v).msglen = s.msglen ∧
    (s.setReg r v).opaNeg = s.opaNeg ∧ (s.setReg r v).opbNeg = s.opbNeg ∧
    (s.setReg r v).res0Neg = s.res0Neg ∧ (s.setReg r v).res1Neg = s.res1Neg ∧
    (s.setReg r v).res2Neg = s.res2Neg ∧ (s.setReg r v).maxatt = s.maxatt ∧
    (s.setReg r v).attcnt = s.attcnt ∧ (s.setReg r v).done = s.done ∧ (s.setReg r v).err = s.err ∧
    (s.setReg r v).prime = s.prime ∧ (s.setReg r v).errcode = s.errcode ∧
    (s.setReg r v).seq = s.seq ∧ (s.setReg r v).answers = s.answers ∧
    (s.setReg r v).inputs = s.inputs ∧ (s.setReg r v).port = s.port ∧ (s.setReg r v).epoch = s.epoch := by
  cases r <;> simp [State.setReg]

/-- BUSY is the sequencer's state and nothing else (R30). -/
theorem State.busy_iff (s : State) : s.busy = true ↔ ∃ w q, s.seq = .busy w q := by
  unfold State.busy
  cases s.seq <;> simp

theorem State.not_busy_iff (s : State) : s.busy = false ↔ s.seq = .idle := by
  unfold State.busy
  cases s.seq <;> simp

end Sys2Proof.Machine
end

