-- ==== Sys2Proof/Laws/Random.lean ====
section
/-!
SUPPORT. Laws/Random.lean: what a computation that draws can answer. It reads the answers in order, a bounded
number of them, does not look at those it leaves, goes wrong only on an answer out of range, and waits only for
a request of a stated kind.
-/

namespace Sys2Proof.Machine

/-- `F` reads at most `bound` answers, in order, and every request it can wait for satisfies `Q`. -/
structure Draw.Reader {α : Type} (Q : Request → Prop) (bound : Nat) (F : List Nat → Draw α) : Prop where
  done : ∀ ans a rest, F ans = .done a rest →
    (∃ used, ans = used ++ rest ∧ used.length ≤ bound) ∧ ∀ more, F (ans ++ more) = .done a (rest ++ more)
  outOfRange : ∀ ans req, F ans = .outOfRange req →
    (∃ v ∈ ans, ¬ req.Admits v) ∧ ∀ more, F (ans ++ more) = .outOfRange req
  wait : ∀ ans req, F ans = .wait req → ans.length < bound ∧ Q req

/-! ### One request -/

theorem randBits_cons {k v : Nat} (rest : List Nat) (h : v < 2 ^ k) :
    randBits k (v :: rest) = .done v rest := by
  simp [randBits, h]

theorem randRange_cons {lo hi v : Nat} (rest : List Nat) (h : lo ≤ v ∧ v ≤ hi) :
    randRange lo hi (v :: rest) = .done v rest := by
  simp [randRange, h]

/-- `randBits` answers with the first answer, in range. -/
theorem randBits_done {k a : Nat} {ans rest : List Nat} (h : randBits k ans = .done a rest) :
    ans = a :: rest ∧ a < 2 ^ k := by
  cases ans with
  | nil => simp [randBits] at h
  | cons v vs =>
    simp only [randBits] at h
    split_ifs at h with hv
    simp only [Draw.done.injEq] at h
    obtain ⟨rfl, rfl⟩ := h
    exact ⟨rfl, hv⟩

theorem randRange_done {lo hi a : Nat} {ans rest : List Nat} (h : randRange lo hi ans = .done a rest) :
    ans = a :: rest ∧ lo ≤ a ∧ a ≤ hi := by
  cases ans with
  | nil => simp [randRange] at h
  | cons v vs =>
    simp only [randRange] at h
    split_ifs at h with hv
    simp only [Draw.done.injEq] at h
    obtain ⟨rfl, rfl⟩ := h
    exact ⟨rfl, hv⟩

theorem randBits_reader (k : Nat) : Draw.Reader (· = .randBits k) 1 (randBits k) where
  done ans a rest h := by
    obtain ⟨rfl, hv⟩ := randBits_done h
    exact ⟨⟨[a], rfl, le_rfl⟩, fun more => randBits_cons _ hv⟩
  outOfRange ans req h := by
    cases ans with
    | nil => simp [randBits] at h
    | cons v vs =>
      simp only [randBits] at h
      split_ifs at h with hv
      simp only [Draw.outOfRange.injEq] at h
      subst h
      exact ⟨⟨v, by simp, hv⟩, fun more => by simp [randBits, hv]⟩
  wait ans req h := by
    cases ans with
    | nil => simpa [randBits, eq_comm] using h
    | cons v vs =>
      simp only [randBits] at h
      split_ifs at h

theorem randRange_reader (lo hi : Nat) : Draw.Reader (· = .randRange lo hi) 1 (randRange lo hi) where
  done ans a rest h := by
    obtain ⟨rfl, hv⟩ := randRange_done h
    exact ⟨⟨[a], rfl, le_rfl⟩, fun more => randRange_cons _ hv⟩
  outOfRange ans req h := by
    cases ans with
    | nil => simp [randRange] at h
    | cons v vs =>
      simp only [randRange] at h
      split_ifs at h with hv
      simp only [Draw.outOfRange.injEq] at h
      subst h
      exact ⟨⟨v, by simp, hv⟩, fun more => by simp [randRange, hv]⟩
  wait ans req h := by
    cases ans with
    | nil => simpa [randRange, eq_comm] using h
    | cons v vs =>
      simp only [randRange] at h
      split_ifs at h

/-! ### Building readers -/

theorem Draw.Reader.mono {α : Type} {Q Q' : Request → Prop} {b b' : Nat} {F : List Nat → Draw α}
    (h : Draw.Reader Q b F) (hb : b ≤ b') (hQ : ∀ req, Q req → Q' req) : Draw.Reader Q' b' F where
  done ans a rest e := by
    obtain ⟨⟨used, hu, hl⟩, hm⟩ := h.done ans a rest e
    exact ⟨⟨used, hu, hl.trans hb⟩, hm⟩
  outOfRange := h.outOfRange
  wait ans req e := ⟨(h.wait ans req e).1.trans_le hb, hQ _ (h.wait ans req e).2⟩

/-- A computation that draws nothing. -/
theorem Draw.reader_pure {α : Type} (Q : Request → Prop) (b : Nat) (a : α) :
    Draw.Reader Q b (fun ans => .done a ans) where
  done ans a' rest h := by
    simp only [Draw.done.injEq] at h
    obtain ⟨rfl, rfl⟩ := h
    exact ⟨⟨[], rfl, Nat.zero_le _⟩, fun _ => rfl⟩
  outOfRange ans req h := by simp at h
  wait ans req h := by simp at h

/-- Go on with a finished computation. -/
def Draw.andThen {α β : Type} (G : α → List Nat → Draw β) : Draw α → Draw β
  | .wait req => .wait req
  | .outOfRange req => .outOfRange req
  | .done a rest => G a rest

/-- Two drawing computations, one after the other. -/
theorem Draw.reader_andThen {α β : Type} {Q : Request → Prop} {b c : Nat} {F : List Nat → Draw α}
    {G : α → List Nat → Draw β} (hF : Draw.Reader Q b F) (hG : ∀ a, Draw.Reader Q c (G a)) :
    Draw.Reader Q (b + c) (fun ans => (F ans).andThen G) where
  done ans x rest h := by
    cases hx : F ans with
    | wait req => simp [hx, Draw.andThen] at h
    | outOfRange req => simp [hx, Draw.andThen] at h
    | done a r =>
      rw [hx] at h
      obtain ⟨⟨u, hu, hul⟩, hm⟩ := hF.done ans a r hx
      obtain ⟨⟨v, hv, hvl⟩, hn⟩ := (hG a).done r x rest h
      refine ⟨⟨u ++ v, by rw [hu, hv, List.append_assoc], by rw [List.length_append]; omega⟩, fun more => ?_⟩
      simp only [hm more]; exact hn more
  outOfRange ans req h := by
    cases hx : F ans with
    | wait req => simp [hx, Draw.andThen] at h
    | outOfRange q =>
      obtain ⟨h1, h2⟩ := hF.outOfRange ans q hx
      simp only [hx, Draw.andThen, Draw.outOfRange.injEq] at h
      subst h
      exact ⟨h1, fun more => by simp only [h2 more, Draw.andThen]⟩
    | done a r =>
      rw [hx] at h
      obtain ⟨⟨u, hu, hul⟩, hm⟩ := hF.done ans a r hx
      obtain ⟨⟨v, hv, hvn⟩, hn⟩ := (hG a).outOfRange r req h
      exact ⟨⟨v, by rw [hu]; simp [hv], hvn⟩, fun more => by simp only [hm more]; exact hn more⟩
  wait ans req h := by
    cases hx : F ans with
    | wait q =>
      simp only [hx, Draw.andThen, Draw.wait.injEq] at h
      subst h
      exact ⟨by have := (hF.wait ans q hx).1; omega, (hF.wait ans q hx).2⟩
    | outOfRange req => simp [hx, Draw.andThen] at h
    | done a r =>
      rw [hx] at h
      obtain ⟨⟨u, hu, hul⟩, -⟩ := hF.done ans a r hx
      obtain ⟨h1, h2⟩ := (hG a).wait r req h
      exact ⟨by rw [hu, List.length_append]; omega, h2⟩

/-! ### The Miller-Rabin tester -/

/-- A round is one witness (R163, R164). -/
theorem witnessRounds_succ (n d r k : Nat) : witnessRounds n d r (k + 1) = fun ans =>
    (randRange 2 (n - 2) ans).andThen fun a =>
      if roundPasses n d r a then witnessRounds n d r k else fun ans => .done false ans := by
  funext ans
  rw [witnessRounds]
  cases randRange 2 (n - 2) ans with
  | wait req => rfl
  | outOfRange req => rfl
  | done a rest =>
    simp only [Draw.andThen]
    split <;> rfl

theorem witnessRounds_reader (n d r k : Nat) :
    Draw.Reader (· = .randRange 2 (n - 2)) k (witnessRounds n d r k) := by
  induction k with
  | zero => exact Draw.reader_pure _ _ true
  | succ k ih =>
    rw [witnessRounds_succ, Nat.add_comm]
    refine Draw.reader_andThen (randRange_reader 2 (n - 2)) fun a => ?_
    split
    · exact ih
    · exact Draw.reader_pure _ _ false

/-- The tester asks only for witnesses of an odd n >= 5, at most `rounds` of them (R161, R164). -/
theorem isProbablePrime_reader (n rounds : Nat) :
    Draw.Reader (fun req => req = .randRange 2 (n - 2) ∧ 5 ≤ n ∧ n % 2 = 1) rounds
      (isProbablePrime n rounds) := by
  by_cases h1 : n < 2
  · have h : isProbablePrime n rounds = fun ans => .done false ans := by
      funext
      simp [isProbablePrime, h1]
    rw [h]
    exact Draw.reader_pure _ _ false
  by_cases h2 : n = 2 ∨ n = 3
  · have h : isProbablePrime n rounds = fun ans => .done true ans := by
      funext
      simp [isProbablePrime, h1, h2]
    rw [h]
    exact Draw.reader_pure _ _ true
  by_cases h3 : n % 2 = 0
  · have h : isProbablePrime n rounds = fun ans => .done false ans := by
      funext
      simp [isProbablePrime, h1, h2, h3]
    rw [h]
    exact Draw.reader_pure _ _ false
  have h : isProbablePrime n rounds = witnessRounds n (decompose n).1 (decompose n).2 rounds := by
    funext
    simp [isProbablePrime, h1, h2, h3]
  rw [h]
  exact (witnessRounds_reader ..).mono le_rfl fun req hr => ⟨hr, by omega, by omega⟩

/-- The rounds whose witnesses pass are gone through one by one. -/
theorem witnessRounds_append {n d r : Nat} {ws : List Nat} (rest : List Nat) (k : Nat)
    (hin : ∀ a ∈ ws, 2 ≤ a ∧ a ≤ n - 2) (hpass : ∀ a ∈ ws, roundPasses n d r a = true) :
    witnessRounds n d r (ws.length + k) (ws ++ rest) = witnessRounds n d r k rest := by
  induction ws with
  | nil => simp
  | cons a ws ih =>
    rw [List.length_cons, show ws.length + 1 + k = (ws.length + k) + 1 by omega, List.cons_append,
      witnessRounds, randRange_cons _ (hin a (by simp))]
    simp only [hpass a (by simp), if_true]
    exact ih (fun b hb => hin b (by simp [hb])) (fun b hb => hpass b (by simp [hb]))

/-- For odd n >= 5 the tester is its rounds (R164). -/
theorem isProbablePrime_odd {n : Nat} (rounds : Nat) (ans : List Nat) (hodd : n % 2 = 1) (hn : 5 ≤ n) :
    isProbablePrime n rounds ans = witnessRounds n (decompose n).1 (decompose n).2 rounds ans := by
  unfold isProbablePrime
  rw [if_neg (by omega), if_neg (by omega), if_neg (by omega)]

/-! ### The end of a drawing command -/

/-- What `conclude` can answer: the four ends of R53, R232 and R233, and nothing else. -/
theorem State.conclude_next {α : Type} {s t : State} {i : Instr} {write : State → α → State} {r : Run α}
    (h : s.conclude i write r = .next t) :
    (∃ a att rest, r = .done a att rest ∧
      t = (write { s with attcnt := att, answers := rest } a).complete) ∨
    (∃ e att rest, r = .raised e att rest ∧ t = { s with attcnt := att, answers := rest }.fail e) ∨
    ∃ req att, r = .wait req att ∧ t = { s with attcnt := att }.waitFor i req := by
  cases r with
  | done a att rest =>
    simp only [State.conclude, Host.Outcome.next.injEq] at h
    exact .inl ⟨a, att, rest, rfl, h.symm⟩
  | raised e att rest =>
    simp only [State.conclude, Host.Outcome.next.injEq] at h
    exact .inr (.inl ⟨e, att, rest, rfl, h.symm⟩)
  | wait req att =>
    simp only [State.conclude, Host.Outcome.next.injEq] at h
    exact .inr (.inr ⟨req, att, rfl, h.symm⟩)
  | outOfRange req => simp [State.conclude] at h

theorem State.conclude_refused {α : Type} {s : State} {i : Instr} {write : State → α → State} {r : Run α}
    {why : Refusal} (h : s.conclude i write r = .refused why) :
    ∃ req, r = .outOfRange req ∧ why = .randomOutOfRange req := by
  cases r with
  | done a att rest => simp [State.conclude] at h
  | raised e att rest => simp [State.conclude] at h
  | wait req att => simp [State.conclude] at h
  | outOfRange req =>
    simp only [State.conclude, Host.Outcome.refused.injEq] at h
    exact ⟨req, rfl, h.symm⟩

theorem State.conclude_not_fault {α : Type} {s : State} {i : Instr} {write : State → α → State} {r : Run α}
    (f : Fault) : s.conclude i write r ≠ .fault f := by
  cases r <;> simp [State.conclude]

end Sys2Proof.Machine
end

