-- ==== Sys2Proof/Laws/Search.lean ====
section
/-!
SUPPORT. Laws/Search.lean: the candidate search and the key generation as computations that draw and count. The
fuel is never used up, each has its defining equation without fuel, and each reads the answers in order, at
most 17 for a candidate counted (one for the candidate, sixteen for its rounds).
-/

namespace Sys2Proof.Machine

/-! ### Candidates and the count -/

theorem candidate_testBit (k v j : Nat) :
    (candidate k v).testBit j = (v.testBit j || decide (k - 1 = j) || decide (j = 0)) := by
  unfold candidate
  rw [Nat.testBit_or, Nat.testBit_or, Nat.testBit_two_pow]
  congr 1
  rw [show (1 : Nat) = 2 ^ 0 from rfl, Nat.testBit_two_pow]
  simp [eq_comm]

/-- A candidate has its top and its low bit set and no bit above (R176). -/
theorem candidate_range {k v : Nat} (hk : 2 ≤ k) (hv : v < 2 ^ k) :
    2 ^ (k - 1) < candidate k v ∧ candidate k v < 2 ^ k ∧ candidate k v % 2 = 1 := by
  have hlt : candidate k v < 2 ^ k := by
    refine Nat.or_lt_two_pow (Nat.or_lt_two_pow hv ?_) (Nat.one_lt_two_pow (by omega))
    exact Nat.pow_lt_pow_right (by omega) (by omega)
  have hodd : candidate k v % 2 = 1 := by
    have := candidate_testBit k v 0
    rw [Nat.testBit_zero] at this
    simpa using this
  have hge : 2 ^ (k - 1) ≤ candidate k v := by
    apply Nat.ge_two_pow_of_testBit (i := k - 1)
    rw [candidate_testBit]
    simp
  have heven : 2 ^ (k - 1) % 2 = 0 := by
    obtain ⟨j, hj⟩ : ∃ j, k - 1 = j + 1 := ⟨k - 2, by omega⟩
    rw [hj, pow_succ]
    omega
  exact ⟨by omega, hlt, hodd⟩

theorem satInc_toNat (att : Word) : (satInc att).toNat = min (att.toNat + 1) (2 ^ 32 - 1) := by
  have := att.isLt
  unfold satInc
  split
  · rename_i h
    subst h
    decide
  · rename_i h
    have : att.toNat ≠ 2 ^ 32 - 1 := fun he => h (BitVec.eq_of_toNat_eq (by rw [he]; decide))
    rw [BitVec.toNat_add]
    simp
    omega

theorem capReached_false {maxatt att : Word} :
    capReached maxatt att = false ↔ maxatt = 0 ∨ att.toNat < maxatt.toNat := by
  unfold capReached
  simp
  tauto

theorem capReached_true {maxatt att : Word} :
    capReached maxatt att = true ↔ maxatt ≠ 0 ∧ maxatt.toNat ≤ att.toNat := by
  unfold capReached
  simp

/-! ### One candidate -/

/-- Draw one candidate and test it: whether it passes, and the candidate (one pass of the loop of R177). -/
def tryCandidate (k : Nat) (ans : List Nat) : Draw (Bool × Nat) :=
  match randBits k ans with
  | .wait req => .wait req
  | .outOfRange req => .outOfRange req
  | .done v rest =>
    match isProbablePrime (candidate k v) genRounds rest with
    | .wait req => .wait req
    | .outOfRange req => .outOfRange req
    | .done b rest' => .done (b, candidate k v) rest'

/-- The requests the generator makes for k-bit candidates. -/
def SearchRequest (k : Nat) (req : Request) : Prop :=
  req = .randBits k ∨ ∃ n, req = .randRange 2 (n - 2) ∧ 5 ≤ n ∧ n < 2 ^ k

/-- What an accepted or rejected candidate is: formed from the first answer, its verdict the tester's. -/
theorem tryCandidate_done {k c : Nat} {b : Bool} {ans rest : List Nat}
    (h : tryCandidate k ans = .done (b, c) rest) :
    ∃ v vs, ans = v :: vs ∧ v < 2 ^ k ∧ c = candidate k v ∧ isProbablePrime c genRounds vs = .done b rest := by
  unfold tryCandidate at h
  cases hx : randBits k ans with
  | wait req => simp [hx] at h
  | outOfRange req => simp [hx] at h
  | done v vs =>
    obtain ⟨rfl, hv⟩ := randBits_done hx
    rw [hx] at h
    simp only at h
    cases hy : isProbablePrime (candidate k v) genRounds vs with
    | wait req => simp [hy] at h
    | outOfRange req => simp [hy] at h
    | done b' r =>
      rw [hy] at h
      simp only [Draw.done.injEq, Prod.mk.injEq] at h
      obtain ⟨⟨rfl, rfl⟩, rfl⟩ := h
      exact ⟨v, vs, rfl, hv, rfl, hy⟩

theorem tryCandidate_of {k v : Nat} {b : Bool} {vs rest : List Nat} (hv : v < 2 ^ k)
    (h : isProbablePrime (candidate k v) genRounds vs = .done b rest) :
    tryCandidate k (v :: vs) = .done (b, candidate k v) rest := by
  simp [tryCandidate, randBits, hv, h]

/-- A pass reads at least one answer. -/
theorem tryCandidate_shorter {k : Nat} {x : Bool × Nat} {ans rest : List Nat}
    (h : tryCandidate k ans = .done x rest) : rest.length < ans.length := by
  obtain ⟨b, c⟩ := x
  obtain ⟨v, vs, rfl, -, -, hp⟩ := tryCandidate_done h
  obtain ⟨⟨used, hu, -⟩, -⟩ := (isProbablePrime_reader c genRounds).done vs b rest hp
  rw [hu]
  simp only [List.length_cons, List.length_append]
  omega

theorem tryCandidate_reader {k : Nat} (hk : 2 ≤ k) :
    Draw.Reader (SearchRequest k) 17 (tryCandidate k) where
  done ans x rest h := by
    obtain ⟨b, c⟩ := x
    obtain ⟨v, vs, rfl, hv, rfl, hp⟩ := tryCandidate_done h
    obtain ⟨⟨used, hu, hul⟩, hm⟩ := (isProbablePrime_reader _ genRounds).done vs b rest hp
    refine ⟨⟨v :: used, by rw [hu]; rfl, ?_⟩, fun more => tryCandidate_of hv (hm more)⟩
    have : genRounds = 16 := rfl
    rw [List.length_cons]
    omega
  outOfRange ans req h := by
    unfold tryCandidate at h
    cases hx : randBits k ans with
    | wait q => simp [hx] at h
    | outOfRange q =>
      rw [hx] at h
      simp only [Draw.outOfRange.injEq] at h
      subst h
      obtain ⟨h1, h2⟩ := (randBits_reader k).outOfRange ans q hx
      exact ⟨h1, fun more => by simp [tryCandidate, h2 more]⟩
    | done v vs =>
      obtain ⟨rfl, hv⟩ := randBits_done hx
      rw [hx] at h
      simp only at h
      cases hy : isProbablePrime (candidate k v) genRounds vs with
      | wait q => simp [hy] at h
      | done b r => simp [hy] at h
      | outOfRange q =>
        rw [hy] at h
        simp only [Draw.outOfRange.injEq] at h
        subst h
        obtain ⟨⟨a, ha, hna⟩, hm⟩ := (isProbablePrime_reader _ genRounds).outOfRange vs q hy
        exact ⟨⟨a, by simp [ha], hna⟩, fun more => by simp [tryCandidate, randBits, hv, hm more]⟩
  wait ans req h := by
    unfold tryCandidate at h
    cases hx : randBits k ans with
    | outOfRange q => simp [hx] at h
    | wait q =>
      rw [hx] at h
      simp only [Draw.wait.injEq] at h
      subst h
      obtain ⟨h1, h2⟩ := (randBits_reader k).wait ans q hx
      exact ⟨by omega, .inl h2⟩
    | done v vs =>
      obtain ⟨rfl, hv⟩ := randBits_done hx
      rw [hx] at h
      simp only at h
      cases hy : isProbablePrime (candidate k v) genRounds vs with
      | outOfRange q => simp [hy] at h
      | done b r => simp [hy] at h
      | wait q =>
        rw [hy] at h
        simp only [Draw.wait.injEq] at h
        subst h
        obtain ⟨h1, h2, h3, -⟩ := (isProbablePrime_reader _ genRounds).wait vs q hy
        have : genRounds = 16 := rfl
        refine ⟨by rw [List.length_cons]; omega, .inr ⟨_, h2, h3, (candidate_range hk hv).2.1⟩⟩

/-! ### The search without fuel -/

theorem primeLoop_succ (k : Nat) (maxatt : Word) (fuel : Nat) (att : Word) (ans : List Nat) :
    primeLoop k maxatt (fuel + 1) att ans =
      if capReached maxatt att then .raised .generationExhausted att ans
      else
        match tryCandidate k ans with
        | .wait req => .wait req (satInc att)
        | .outOfRange req => .outOfRange req
        | .done (true, c) rest => .done c (satInc att) rest
        | .done (false, _) rest => primeLoop k maxatt fuel (satInc att) rest := by
  conv_lhs => unfold primeLoop
  unfold tryCandidate
  split
  · rfl
  · cases randBits k ans with
    | wait req => rfl
    | outOfRange req => rfl
    | done v rest =>
      simp only
      cases isProbablePrime (candidate k v) genRounds rest with
      | wait req => rfl
      | outOfRange req => rfl
      | done b r => cases b <;> rfl

theorem primeLoop_fuel (k : Nat) (maxatt : Word) (f g : Nat) (att : Word) (ans : List Nat)
    (hf : ans.length < f) (hg : ans.length < g) :
    primeLoop k maxatt f att ans = primeLoop k maxatt g att ans := by
  induction f generalizing g att ans with
  | zero => omega
  | succ f ih =>
    obtain ⟨g, rfl⟩ : ∃ g', g = g' + 1 := ⟨g - 1, by omega⟩
    rw [primeLoop_succ, primeLoop_succ]
    split
    · rfl
    · cases hx : tryCandidate k ans with
      | wait req => rfl
      | outOfRange req => rfl
      | done x rest =>
        have := tryCandidate_shorter hx
        obtain ⟨b, c⟩ := x
        cases b
        · exact ih g _ _ (by omega) (by omega)
        · rfl

/-- The loop of R177, without fuel. -/
theorem generatePrime_eq (k : Nat) (maxatt att : Word) (ans : List Nat) :
    generatePrime k maxatt att ans =
      if capReached maxatt att then .raised .generationExhausted att ans
      else
        match tryCandidate k ans with
        | .wait req => .wait req (satInc att)
        | .outOfRange req => .outOfRange req
        | .done (true, c) rest => .done c (satInc att) rest
        | .done (false, _) rest => generatePrime k maxatt (satInc att) rest := by
  unfold generatePrime
  rw [primeLoop_succ]
  split
  · rfl
  · cases hx : tryCandidate k ans with
    | wait req => rfl
    | outOfRange req => rfl
    | done x rest =>
      have := tryCandidate_shorter hx
      obtain ⟨b, c⟩ := x
      cases b
      · exact primeLoop_fuel _ _ _ _ _ _ (by omega) (by omega)
      · rfl

/-- Induction over the candidates of a search. -/
theorem generatePrime_induction (k : Nat) (maxatt : Word) {P : Word → List Nat → Run Nat → Prop}
    (cap : ∀ att ans, capReached maxatt att = true → P att ans (.raised .generationExhausted att ans))
    (wait : ∀ att ans req, capReached maxatt att = false → tryCandidate k ans = .wait req →
      P att ans (.wait req (satInc att)))
    (outOfRange : ∀ att ans req, capReached maxatt att = false → tryCandidate k ans = .outOfRange req →
      P att ans (.outOfRange req))
    (accepted : ∀ att ans c rest, capReached maxatt att = false →
      tryCandidate k ans = .done (true, c) rest → P att ans (.done c (satInc att) rest))
    (rejected : ∀ att ans c rest, capReached maxatt att = false →
      tryCandidate k ans = .done (false, c) rest →
      P (satInc att) rest (generatePrime k maxatt (satInc att) rest) →
      P att ans (generatePrime k maxatt (satInc att) rest))
    (att : Word) (ans : List Nat) : P att ans (generatePrime k maxatt att ans) := by
  induction hn : ans.length using Nat.strong_induction_on generalizing att ans with
  | _ n ih =>
    rw [generatePrime_eq]
    cases hc : capReached maxatt att with
    | true => exact cap _ _ hc
    | false =>
      simp only [Bool.false_eq_true, if_false]
      cases hx : tryCandidate k ans with
      | wait req => exact wait _ _ _ hc hx
      | outOfRange req => exact outOfRange _ _ _ hc hx
      | done x rest =>
        have := tryCandidate_shorter hx
        obtain ⟨b, c⟩ := x
        cases b
        · exact rejected _ _ _ _ hc hx (ih _ (by omega) _ _ rfl)
        · exact accepted _ _ _ _ hc hx

/-! ### Computations that draw and count -/

/-- `F`, started with ATTCNT at `att`, reads the answers in order, at most 17 a candidate counted; the count
does not fall and keeps within a cap it was within; every request it can wait for satisfies `Q`. -/
structure Run.Reader {α : Type} (Q : Request → Prop) (maxatt att : Word) (F : List Nat → Run α) : Prop where
  done : ∀ ans a att' rest, F ans = .done a att' rest →
    att.toNat ≤ att'.toNat ∧ (∀ more, F (ans ++ more) = .done a att' (rest ++ more)) ∧
    ∃ used, ans = used ++ rest ∧ (maxatt ≠ 0 → att.toNat ≤ maxatt.toNat →
      att'.toNat ≤ maxatt.toNat ∧ used.length ≤ 17 * (att'.toNat - att.toNat))
  raised : ∀ ans e att' rest, F ans = .raised e att' rest →
    (∀ more, F (ans ++ more) = .raised e att' (rest ++ more)) ∧ ∃ used, ans = used ++ rest
  outOfRange : ∀ ans req, F ans = .outOfRange req →
    (∃ v ∈ ans, ¬ req.Admits v) ∧ ∀ more, F (ans ++ more) = .outOfRange req
  wait : ∀ ans req att', F ans = .wait req att' → Q req ∧
    (maxatt ≠ 0 → att.toNat ≤ maxatt.toNat → ans.length < 17 * (maxatt.toNat - att.toNat))

/-- A computation that draws and counts nothing. -/
theorem Run.reader_return {α : Type} (Q : Request → Prop) (maxatt att : Word) (a : α) :
    Run.Reader Q maxatt att (fun ans => .done a att ans) := by
  refine ⟨?_, by simp, by simp, by simp⟩
  rintro ans a' att' rest h
  simp only [Run.done.injEq] at h
  obtain ⟨rfl, rfl, rfl⟩ := h
  exact ⟨le_rfl, fun _ => rfl, [], rfl, fun _ hm => ⟨hm, by simp⟩⟩

/-- An error, raised at once. -/
theorem Run.reader_raise {α : Type} (Q : Request → Prop) (maxatt att : Word) (e : CmdError) :
    Run.Reader (α := α) Q maxatt att (fun ans => .raised e att ans) := by
  refine ⟨by simp, ?_, by simp, by simp⟩
  rintro ans e' att' rest h
  simp only [Run.raised.injEq] at h
  obtain ⟨rfl, rfl, rfl⟩ := h
  exact ⟨fun _ => rfl, [], rfl⟩

/-- One computation after another. -/
theorem Run.reader_andThen {α β : Type} {Q : Request → Prop} {maxatt att : Word} {F : List Nat → Run α}
    {G : α → Word → List Nat → Run β} (hF : Run.Reader Q maxatt att F)
    (hG : ∀ a att', Run.Reader Q maxatt att' (G a att')) :
    Run.Reader Q maxatt att (fun ans => (F ans).andThen G) where
  done ans b att'' rest h := by
    cases hx : F ans with
    | raised e a r => simp [hx, Run.andThen] at h
    | wait req a => simp [hx, Run.andThen] at h
    | outOfRange req => simp [hx, Run.andThen] at h
    | done a att' r =>
      rw [hx] at h
      obtain ⟨f1, f2, u, hu, f3⟩ := hF.done ans a att' r hx
      obtain ⟨g1, g2, v, hv, g3⟩ := (hG a att').done r b att'' rest h
      refine ⟨f1.trans g1, fun more => by rw [f2 more]; exact g2 more, u ++ v,
        by rw [hu, hv, List.append_assoc], fun hm hle => ?_⟩
      obtain ⟨a1, a2⟩ := f3 hm hle
      obtain ⟨b1, b2⟩ := g3 hm a1
      exact ⟨b1, by rw [List.length_append]; omega⟩
  raised ans e att'' rest h := by
    cases hx : F ans with
    | raised e' a r =>
      obtain ⟨f1, f2⟩ := hF.raised ans e' a r hx
      simp only [hx, Run.andThen, Run.raised.injEq] at h
      obtain ⟨rfl, rfl, rfl⟩ := h
      exact ⟨fun more => by rw [f1 more]; rfl, f2⟩
    | wait req a => simp [hx, Run.andThen] at h
    | outOfRange req => simp [hx, Run.andThen] at h
    | done a att' r =>
      rw [hx] at h
      obtain ⟨f1, f2, u, hu, f3⟩ := hF.done ans a att' r hx
      obtain ⟨g1, v, hv⟩ := (hG a att').raised r e att'' rest h
      exact ⟨fun more => by rw [f2 more]; exact g1 more, u ++ v, by rw [hu, hv, List.append_assoc]⟩
  outOfRange ans req h := by
    cases hx : F ans with
    | raised e' a r => simp [hx, Run.andThen] at h
    | wait req a => simp [hx, Run.andThen] at h
    | outOfRange q =>
      obtain ⟨f1, f2⟩ := hF.outOfRange ans q hx
      simp only [hx, Run.andThen, Run.outOfRange.injEq] at h
      subst h
      exact ⟨f1, fun more => by rw [f2 more]; rfl⟩
    | done a att' r =>
      rw [hx] at h
      obtain ⟨f1, f2, u, hu, f3⟩ := hF.done ans a att' r hx
      obtain ⟨⟨v, hv, hnv⟩, g⟩ := (hG a att').outOfRange r req h
      exact ⟨⟨v, by rw [hu]; simp [hv], hnv⟩, fun more => by rw [f2 more]; exact g more⟩
  wait ans req att'' h := by
    cases hx : F ans with
    | raised e' a r => simp [hx, Run.andThen] at h
    | outOfRange q => simp [hx, Run.andThen] at h
    | wait q a =>
      simp only [hx, Run.andThen, Run.wait.injEq] at h
      obtain ⟨rfl, rfl⟩ := h
      exact hF.wait ans q a hx
    | done a att' r =>
      rw [hx] at h
      obtain ⟨f1, f2, u, hu, f3⟩ := hF.done ans a att' r hx
      obtain ⟨g1, g2⟩ := (hG a att').wait r req att'' h
      refine ⟨g1, fun hm hle => ?_⟩
      obtain ⟨a1, a2⟩ := f3 hm hle
      have := g2 hm a1
      rw [hu, List.length_append]
      omega

theorem generatePrime_reader {k : Nat} (hk : 2 ≤ k) (maxatt att : Word) :
    Run.Reader (SearchRequest k) maxatt att (generatePrime k maxatt att) := by
  have all : ∀ att ans,
      (∀ a att' rest, generatePrime k maxatt att ans = .done a att' rest →
        att.toNat ≤ att'.toNat ∧ (∀ more, generatePrime k maxatt att (ans ++ more) =
          .done a att' (rest ++ more)) ∧
        ∃ used, ans = used ++ rest ∧ (maxatt ≠ 0 → att.toNat ≤ maxatt.toNat →
          att'.toNat ≤ maxatt.toNat ∧ used.length ≤ 17 * (att'.toNat - att.toNat))) ∧
      (∀ e att' rest, generatePrime k maxatt att ans = .raised e att' rest →
        (∀ more, generatePrime k maxatt att (ans ++ more) = .raised e att' (rest ++ more)) ∧
        ∃ used, ans = used ++ rest) ∧
      (∀ req, generatePrime k maxatt att ans = .outOfRange req →
        (∃ v ∈ ans, ¬ req.Admits v) ∧ ∀ more, generatePrime k maxatt att (ans ++ more) = .outOfRange req) ∧
      (∀ req att', generatePrime k maxatt att ans = .wait req att' → SearchRequest k req ∧
        (maxatt ≠ 0 → att.toNat ≤ maxatt.toNat → ans.length < 17 * (maxatt.toNat - att.toNat))) := by
    intro att ans
    have hlt := maxatt.isLt
    refine generatePrime_induction k maxatt (P := fun att ans r =>
      (∀ a att' rest, r = .done a att' rest →
        att.toNat ≤ att'.toNat ∧ (∀ more, generatePrime k maxatt att (ans ++ more) =
          .done a att' (rest ++ more)) ∧
        ∃ used, ans = used ++ rest ∧ (maxatt ≠ 0 → att.toNat ≤ maxatt.toNat →
          att'.toNat ≤ maxatt.toNat ∧ used.length ≤ 17 * (att'.toNat - att.toNat))) ∧
      (∀ e att' rest, r = .raised e att' rest →
        (∀ more, generatePrime k maxatt att (ans ++ more) = .raised e att' (rest ++ more)) ∧
        ∃ used, ans = used ++ rest) ∧
      (∀ req, r = .outOfRange req →
        (∃ v ∈ ans, ¬ req.Admits v) ∧ ∀ more, generatePrime k maxatt att (ans ++ more) = .outOfRange req) ∧
      (∀ req att', r = .wait req att' → SearchRequest k req ∧
        (maxatt ≠ 0 → att.toNat ≤ maxatt.toNat → ans.length < 17 * (maxatt.toNat - att.toNat))))
      ?_ ?_ ?_ ?_ ?_ att ans
    · intro att ans hc
      refine ⟨by simp, ?_, by simp, by simp⟩
      intro e att' rest h
      simp only [Run.raised.injEq] at h
      obtain ⟨rfl, rfl, rfl⟩ := h
      exact ⟨fun more => by rw [generatePrime_eq, hc]; rfl, [], rfl⟩
    · intro att ans req hc hw
      refine ⟨by simp, by simp, by simp, ?_⟩
      intro q att' h
      simp only [Run.wait.injEq] at h
      obtain ⟨rfl, rfl⟩ := h
      obtain ⟨h1, h2⟩ := (tryCandidate_reader hk).wait ans req hw
      refine ⟨h2, fun hm _ => ?_⟩
      rcases capReached_false.mp hc with h | h
      · exact absurd h hm
      · omega
    · intro att ans req hc hw
      refine ⟨by simp, by simp, ?_, by simp⟩
      intro q h
      simp only [Run.outOfRange.injEq] at h
      subst h
      obtain ⟨h1, h2⟩ := (tryCandidate_reader hk).outOfRange ans req hw
      exact ⟨h1, fun more => by rw [generatePrime_eq, hc, h2 more]; rfl⟩
    · intro att ans c rest hc hw
      refine ⟨?_, by simp, by simp, by simp⟩
      intro a att' r h
      simp only [Run.done.injEq] at h
      obtain ⟨rfl, rfl, rfl⟩ := h
      obtain ⟨⟨used, hu, hul⟩, hm⟩ := (tryCandidate_reader hk).done ans _ rest hw
      have := att.isLt
      refine ⟨by rw [satInc_toNat]; omega, fun more => by rw [generatePrime_eq, hc, hm more]; rfl,
        used, hu, fun hm0 _ => ?_⟩
      rcases capReached_false.mp hc with h | h
      · exact absurd h hm0
      · rw [satInc_toNat]
        omega
    · intro att ans c rest hc hw ih
      obtain ⟨⟨used, hu, hul⟩, hm⟩ := (tryCandidate_reader hk).done ans _ rest hw
      obtain ⟨i1, i2, i3, i4⟩ := ih
      have := att.isLt
      have hs := satInc_toNat att
      have hstep : ∀ more, generatePrime k maxatt att (ans ++ more) =
          generatePrime k maxatt (satInc att) (rest ++ more) := fun more => by
        rw [generatePrime_eq, hc, hm more]
        rfl
      refine ⟨?_, ?_, ?_, ?_⟩
      · intro a att' r h
        obtain ⟨j1, j2, v, hv, j3⟩ := i1 a att' r h
        refine ⟨by omega, fun more => by rw [hstep, j2], used ++ v, by rw [hu, hv, List.append_assoc],
          fun hm0 hle => ?_⟩
        rcases capReached_false.mp hc with h | h
        · exact absurd h hm0
        · obtain ⟨l1, l2⟩ := j3 hm0 (by omega)
          exact ⟨l1, by rw [List.length_append]; omega⟩
      · intro e att' r h
        obtain ⟨j1, v, hv⟩ := i2 e att' r h
        exact ⟨fun more => by rw [hstep, j1], used ++ v, by rw [hu, hv, List.append_assoc]⟩
      · intro req h
        obtain ⟨⟨v, hv, hnv⟩, j⟩ := i3 req h
        exact ⟨⟨v, by rw [hu]; simp [hv], hnv⟩, fun more => by rw [hstep, j]⟩
      · intro req att' h
        obtain ⟨j1, j2⟩ := i4 req att' h
        refine ⟨j1, fun hm0 hle => ?_⟩
        rcases capReached_false.mp hc with h | h
        · exact absurd h hm0
        · have := j2 hm0 (by omega)
          rw [hu, List.length_append]
          omega
  exact ⟨fun ans => (all att ans).1, fun ans => (all att ans).2.1, fun ans => (all att ans).2.2.1,
    fun ans => (all att ans).2.2.2⟩

/-- A finished search has read at least one answer. -/
theorem generatePrime_shorter {k : Nat} {maxatt att att' : Word} {ans rest : List Nat} {c : Nat}
    (h : generatePrime k maxatt att ans = .done c att' rest) : rest.length < ans.length := by
  refine generatePrime_induction k maxatt (P := fun _ ans r => ∀ c att' rest, r = .done c att' rest →
    rest.length < ans.length) ?_ ?_ ?_ ?_ ?_ att ans c att' rest h
  · intros
    simp_all
  · intros
    simp_all
  · intros
    simp_all
  · intro att ans c rest _ hx c' att' rest' h
    simp only [Run.done.injEq] at h
    obtain ⟨rfl, rfl, rfl⟩ := h
    exact tryCandidate_shorter hx
  · intro att ans c rest _ hx ih c' att' rest' h
    exact (ih c' att' rest' h).trans (tryCandidate_shorter hx)

/-- What an accepted candidate is: an odd number of exactly k bits, one at least counted (R175 to R177). -/
theorem generatePrime_done {k : Nat} (hk : 2 ≤ k) {maxatt att att' : Word} {ans rest : List Nat} {c : Nat}
    (h : generatePrime k maxatt att ans = .done c att' rest) :
    2 ^ (k - 1) < c ∧ c < 2 ^ k ∧ c % 2 = 1 ∧ 1 ≤ att'.toNat := by
  refine generatePrime_induction k maxatt (P := fun _ _ r => ∀ c att' rest, r = .done c att' rest →
    2 ^ (k - 1) < c ∧ c < 2 ^ k ∧ c % 2 = 1 ∧ 1 ≤ att'.toNat) ?_ ?_ ?_ ?_ ?_ att ans c att' rest h
  · intros
    simp_all
  · intros
    simp_all
  · intros
    simp_all
  · intro att ans c rest _ hx c' att' rest' h
    simp only [Run.done.injEq] at h
    obtain ⟨rfl, rfl, rfl⟩ := h
    obtain ⟨v, vs, -, hv, rfl, -⟩ := tryCandidate_done hx
    obtain ⟨h1, h2, h3⟩ := candidate_range hk hv
    exact ⟨h1, h2, h3, by rw [satInc_toNat]; omega⟩
  · exact fun _ _ _ _ _ _ ih => ih

/-- The search raises nothing but GenerationExhausted, and only at the cap (R177, R179). -/
theorem generatePrime_raised {k : Nat} {maxatt att att' : Word} {ans rest : List Nat} {e : CmdError}
    (h : generatePrime k maxatt att ans = .raised e att' rest) :
    e = .generationExhausted ∧ maxatt ≠ 0 ∧ (att.toNat ≤ maxatt.toNat → att' = maxatt) := by
  have := maxatt.isLt
  refine generatePrime_induction k maxatt (P := fun att _ r => ∀ e att' rest, r = .raised e att' rest →
    e = .generationExhausted ∧ maxatt ≠ 0 ∧ (att.toNat ≤ maxatt.toNat → att' = maxatt))
    ?_ ?_ ?_ ?_ ?_ att ans e att' rest h
  · intro att ans hc e att' rest h
    simp only [Run.raised.injEq] at h
    obtain ⟨rfl, rfl, rfl⟩ := h
    rw [capReached_true] at hc
    exact ⟨rfl, hc.1, fun hle => BitVec.eq_of_toNat_eq (by omega)⟩
  · intros
    simp_all
  · intros
    simp_all
  · intros
    simp_all
  · intro att ans c rest hc _ ih e att' rest' h
    obtain ⟨h1, h2, h3⟩ := ih e att' rest' h
    refine ⟨h1, h2, fun _ => h3 ?_⟩
    have := att.isLt
    rw [satInc_toNat]
    rcases capReached_false.mp hc with h | h
    · exact absurd h h2
    · omega

/-! ### Key generation -/

theorem distinctLoop_fuel (h p : Nat) (maxatt : Word) (f g : Nat) (att : Word) (ans : List Nat)
    (hf : ans.length < f) (hg : ans.length < g) :
    distinctLoop h p maxatt f att ans = distinctLoop h p maxatt g att ans := by
  induction f generalizing g att ans with
  | zero => omega
  | succ f ih =>
    obtain ⟨g, rfl⟩ : ∃ g', g = g' + 1 := ⟨g - 1, by omega⟩
    rw [distinctLoop, distinctLoop]
    cases hx : generatePrime h maxatt att ans with
    | wait req a => rfl
    | outOfRange req => rfl
    | raised e a rest => rfl
    | done q a rest =>
      simp only [Run.andThen]
      split
      · have := generatePrime_shorter hx
        exact ih g _ _ (by omega) (by omega)
      · rfl

/-- The distinctness loop of R192 without fuel. -/
def distinctPrime (h p : Nat) (maxatt att : Word) (ans : List Nat) : Run Nat :=
  distinctLoop h p maxatt (ans.length + 1) att ans

theorem distinctPrime_eq (h p : Nat) (maxatt att : Word) (ans : List Nat) :
    distinctPrime h p maxatt att ans = (generatePrime h maxatt att ans).andThen fun q att' rest =>
      if q = p then distinctPrime h p maxatt att' rest else .done q att' rest := by
  unfold distinctPrime
  rw [distinctLoop]
  cases hx : generatePrime h maxatt att ans with
  | wait req a => rfl
  | outOfRange req => rfl
  | raised e a rest => rfl
  | done q a rest =>
    simp only [Run.andThen]
    split
    · have := generatePrime_shorter hx
      exact distinctLoop_fuel h p maxatt _ _ _ _ (by omega) (by omega)
    · rfl

theorem primePair_eq (h : Nat) (maxatt att : Word) (ans : List Nat) :
    primePair h maxatt att ans = (generatePrime h maxatt att ans).andThen fun p att' rest =>
      (distinctPrime h p maxatt att' rest).andThen fun q att'' rest' => .done (p, q) att'' rest' := rfl

/-- Every search of the distinctness loop reads the answers as a search does (R192). -/
theorem distinctPrime_reader {h : Nat} (hh : 2 ≤ h) (p : Nat) (maxatt att : Word) :
    Run.Reader (SearchRequest h) maxatt att (distinctPrime h p maxatt att) := by
  have all : ∀ n ans att, List.length ans < n →
      (∀ a att' rest, distinctPrime h p maxatt att ans = .done a att' rest →
        att.toNat ≤ att'.toNat ∧ (∀ more, distinctPrime h p maxatt att (ans ++ more) =
          .done a att' (rest ++ more)) ∧
        ∃ used, ans = used ++ rest ∧ (maxatt ≠ 0 → att.toNat ≤ maxatt.toNat →
          att'.toNat ≤ maxatt.toNat ∧ used.length ≤ 17 * (att'.toNat - att.toNat))) ∧
      (∀ e att' rest, distinctPrime h p maxatt att ans = .raised e att' rest →
        (∀ more, distinctPrime h p maxatt att (ans ++ more) = .raised e att' (rest ++ more)) ∧
        ∃ used, ans = used ++ rest) ∧
      (∀ req, distinctPrime h p maxatt att ans = .outOfRange req →
        (∃ v ∈ ans, ¬ req.Admits v) ∧
          ∀ more, distinctPrime h p maxatt att (ans ++ more) = .outOfRange req) ∧
      (∀ req att', distinctPrime h p maxatt att ans = .wait req att' → SearchRequest h req ∧
        (maxatt ≠ 0 → att.toNat ≤ maxatt.toNat → ans.length < 17 * (maxatt.toNat - att.toNat))) := by
    intro n
    induction n with
    | zero => intros; omega
    | succ n ih =>
      intro ans att hn
      have hr := generatePrime_reader hh maxatt att
      cases hx : generatePrime h maxatt att ans with
      | wait req a =>
        have hw := hr.wait ans req a hx
        have he : distinctPrime h p maxatt att ans = .wait req a := by
          rw [distinctPrime_eq, hx]
          rfl
        rw [he]
        refine ⟨by simp, by simp, by simp, ?_⟩
        intro q att' hq
        simp only [Run.wait.injEq] at hq
        obtain ⟨rfl, rfl⟩ := hq
        exact hw
      | outOfRange req =>
        obtain ⟨h1, h2⟩ := hr.outOfRange ans req hx
        have he : distinctPrime h p maxatt att ans = .outOfRange req := by
          rw [distinctPrime_eq, hx]
          rfl
        rw [he]
        refine ⟨by simp, by simp, ?_, by simp⟩
        intro q hq
        simp only [Run.outOfRange.injEq] at hq
        subst hq
        exact ⟨h1, fun more => by rw [distinctPrime_eq, h2 more]; rfl⟩
      | raised e a r =>
        obtain ⟨h1, h2⟩ := hr.raised ans e a r hx
        have he : distinctPrime h p maxatt att ans = .raised e a r := by
          rw [distinctPrime_eq, hx]
          rfl
        rw [he]
        refine ⟨by simp, ?_, by simp, by simp⟩
        intro e' att' rest hq
        simp only [Run.raised.injEq] at hq
        obtain ⟨rfl, rfl, rfl⟩ := hq
        exact ⟨fun more => by rw [distinctPrime_eq, h1 more]; rfl, h2⟩
      | done q a r =>
        obtain ⟨f1, f2, u, hu, f3⟩ := hr.done ans q a r hx
        have hlen := generatePrime_shorter hx
        by_cases hqp : q = p
        · have hstep : ∀ more, distinctPrime h p maxatt att (ans ++ more) =
              distinctPrime h p maxatt a (r ++ more) := fun more => by
            rw [distinctPrime_eq, f2 more]
            simp [Run.andThen, hqp]
          have hstep0 : distinctPrime h p maxatt att ans = distinctPrime h p maxatt a r := by
            simpa using hstep []
          obtain ⟨i1, i2, i3, i4⟩ := ih r a (by omega)
          rw [hstep0]
          refine ⟨?_, ?_, ?_, ?_⟩
          · intro x att' rest hd
            obtain ⟨j1, j2, v, hv, j3⟩ := i1 x att' rest hd
            refine ⟨f1.trans j1, fun more => by rw [hstep, j2], u ++ v,
              by rw [hu, hv, List.append_assoc], fun hm hle => ?_⟩
            obtain ⟨a1, a2⟩ := f3 hm hle
            obtain ⟨b1, b2⟩ := j3 hm a1
            exact ⟨b1, by rw [List.length_append]; omega⟩
          · intro e att' rest hd
            obtain ⟨j1, v, hv⟩ := i2 e att' rest hd
            exact ⟨fun more => by rw [hstep, j1], u ++ v, by rw [hu, hv, List.append_assoc]⟩
          · intro req hd
            obtain ⟨⟨v, hv, hnv⟩, j⟩ := i3 req hd
            exact ⟨⟨v, by rw [hu]; simp [hv], hnv⟩, fun more => by rw [hstep, j]⟩
          · intro req att' hd
            obtain ⟨j1, j2⟩ := i4 req att' hd
            refine ⟨j1, fun hm hle => ?_⟩
            obtain ⟨a1, a2⟩ := f3 hm hle
            have := j2 hm a1
            rw [hu, List.length_append]
            omega
        · have he : ∀ more, distinctPrime h p maxatt att (ans ++ more) = .done q a (r ++ more) := fun more => by
            rw [distinctPrime_eq, f2 more]
            simp [Run.andThen, hqp]
          have he0 : distinctPrime h p maxatt att ans = .done q a r := by simpa using he []
          rw [he0]
          refine ⟨?_, by simp, by simp, by simp⟩
          intro x att' rest hd
          simp only [Run.done.injEq] at hd
          obtain ⟨rfl, rfl, rfl⟩ := hd
          exact ⟨f1, he, u, hu, f3⟩
  exact ⟨fun ans => (all _ ans att (Nat.lt_succ_self _)).1, fun ans => (all _ ans att (Nat.lt_succ_self _)).2.1,
    fun ans => (all _ ans att (Nat.lt_succ_self _)).2.2.1, fun ans => (all _ ans att (Nat.lt_succ_self _)).2.2.2⟩

/-- A prime other than p, of exactly h bits (R192). -/
theorem distinctPrime_done {h p : Nat} (hh : 2 ≤ h) {maxatt att att' : Word} {ans rest : List Nat} {q : Nat}
    (hd : distinctPrime h p maxatt att ans = .done q att' rest) :
    q ≠ p ∧ 2 ^ (h - 1) < q ∧ q < 2 ^ h ∧ q % 2 = 1 := by
  induction hn : ans.length using Nat.strong_induction_on generalizing att ans with
  | _ n ih =>
    rw [distinctPrime_eq] at hd
    cases hx : generatePrime h maxatt att ans with
    | wait req a => simp [hx, Run.andThen] at hd
    | outOfRange req => simp [hx, Run.andThen] at hd
    | raised e a r => simp [hx, Run.andThen] at hd
    | done x a r =>
      rw [hx] at hd
      simp only [Run.andThen] at hd
      split_ifs at hd with hp
      · have := generatePrime_shorter hx
        exact ih _ (by omega) hd rfl
      · simp only [Run.done.injEq] at hd
        obtain ⟨rfl, rfl, rfl⟩ := hd
        obtain ⟨h1, h2, h3, -⟩ := generatePrime_done hh hx
        exact ⟨hp, h1, h2, h3⟩

theorem distinctPrime_raised {h p : Nat} (hh : 2 ≤ h) {maxatt att att' : Word} {ans rest : List Nat}
    {e : CmdError} (hd : distinctPrime h p maxatt att ans = .raised e att' rest) :
    e = .generationExhausted ∧ maxatt ≠ 0 ∧ (att.toNat ≤ maxatt.toNat → att' = maxatt) := by
  induction hn : ans.length using Nat.strong_induction_on generalizing att ans with
  | _ n ih =>
    rw [distinctPrime_eq] at hd
    cases hx : generatePrime h maxatt att ans with
    | wait req a => simp [hx, Run.andThen] at hd
    | outOfRange req => simp [hx, Run.andThen] at hd
    | raised e a r =>
      simp only [hx, Run.andThen, Run.raised.injEq] at hd
      obtain ⟨rfl, rfl, rfl⟩ := hd
      exact generatePrime_raised hx
    | done x a r =>
      rw [hx] at hd
      simp only [Run.andThen] at hd
      split_ifs at hd with hp
      have := generatePrime_shorter hx
      obtain ⟨i1, i2, i3⟩ := ih _ (by omega) hd rfl
      obtain ⟨-, -, u, -, hc⟩ := (generatePrime_reader hh maxatt att).done ans x a r hx
      exact ⟨i1, i2, fun hle => i3 (hc i2 hle).1⟩

theorem generateKeys_reader {bits : Nat} (hb : 4 ≤ bits) (maxatt : Word) :
    Run.Reader (SearchRequest (bits / 2)) maxatt 0 (generateKeys bits maxatt) := by
  have hh : 2 ≤ bits / 2 := by omega
  unfold generateKeys
  refine Run.reader_andThen ?_ fun pq att => ?_
  · show Run.Reader _ maxatt 0 (fun ans => (generatePrime (bits / 2) maxatt 0 ans).andThen fun p att rest =>
      (distinctPrime (bits / 2) p maxatt att rest).andThen fun q att' rest' => .done (p, q) att' rest')
    exact Run.reader_andThen (generatePrime_reader hh maxatt 0) fun p att =>
      Run.reader_andThen (distinctPrime_reader hh p maxatt att) fun q att' =>
        Run.reader_return _ maxatt att' (p, q)
  · cases deriveKeys pq.1 pq.2 with
    | error e => exact Run.reader_raise _ maxatt att e
    | ok k => exact Run.reader_return _ maxatt att k

/-- What a finished key generation has found: two distinct odd numbers of bits/2 bits (R192) and the keys
derived from them (R194). -/
theorem generateKeys_done {bits : Nat} (hb : 4 ≤ bits) {maxatt att : Word} {ans rest : List Nat} {k : KeyPair}
    (hd : generateKeys bits maxatt ans = .done k att rest) :
    ∃ p q, p ≠ q ∧ 2 ^ (bits / 2 - 1) < p ∧ p < 2 ^ (bits / 2) ∧ p % 2 = 1 ∧
      2 ^ (bits / 2 - 1) < q ∧ q < 2 ^ (bits / 2) ∧ q % 2 = 1 ∧ deriveKeys p q = .ok k := by
  have hh : 2 ≤ bits / 2 := by omega
  unfold generateKeys at hd
  rw [primePair_eq] at hd
  cases hx : generatePrime (bits / 2) maxatt 0 ans with
  | wait req a =>
    rw [hx] at hd
    simp [Run.andThen] at hd
  | outOfRange req =>
    rw [hx] at hd
    simp [Run.andThen] at hd
  | raised e a r =>
    rw [hx] at hd
    simp [Run.andThen] at hd
  | done p a r =>
    rw [hx] at hd
    simp only [Run.andThen] at hd
    cases hy : distinctPrime (bits / 2) p maxatt a r with
    | wait req a => simp [hy] at hd
    | outOfRange req => simp [hy] at hd
    | raised e a r => simp [hy] at hd
    | done q a' r' =>
      rw [hy] at hd
      simp only at hd
      cases hz : deriveKeys p q with
      | error e => simp [hz] at hd
      | ok k' =>
        simp only [hz, Run.done.injEq] at hd
        obtain ⟨rfl, -, -⟩ := hd
        obtain ⟨p1, p2, p3, -⟩ := generatePrime_done hh hx
        obtain ⟨q0, q1, q2, q3⟩ := distinctPrime_done hh hy
        exact ⟨p, q, fun h => q0 h.symm, p1, p2, p3, q1, q2, q3, hz⟩

/-- Why a key generation raises an error: the cap (R177), or the derivation of the keys (R194). -/
theorem generateKeys_raised {bits : Nat} (hb : 4 ≤ bits) {maxatt att : Word} {ans rest : List Nat}
    {e : CmdError} (hd : generateKeys bits maxatt ans = .raised e att rest) :
    (e = .generationExhausted ∧ maxatt ≠ 0 ∧ att = maxatt) ∨
    ∃ p q, p ≠ q ∧ 2 ^ (bits / 2 - 1) < p ∧ p < 2 ^ (bits / 2) ∧ p % 2 = 1 ∧
      2 ^ (bits / 2 - 1) < q ∧ q < 2 ^ (bits / 2) ∧ q % 2 = 1 ∧ deriveKeys p q = .error e := by
  have hh : 2 ≤ bits / 2 := by omega
  unfold generateKeys at hd
  rw [primePair_eq] at hd
  cases hx : generatePrime (bits / 2) maxatt 0 ans with
  | wait req a =>
    rw [hx] at hd
    simp [Run.andThen] at hd
  | outOfRange req =>
    rw [hx] at hd
    simp [Run.andThen] at hd
  | raised e a r =>
    rw [hx] at hd
    simp only [Run.andThen, Run.raised.injEq] at hd
    obtain ⟨rfl, rfl, rfl⟩ := hd
    obtain ⟨h1, h2, h3⟩ := generatePrime_raised hx
    exact .inl ⟨h1, h2, h3 (by simp)⟩
  | done p a r =>
    rw [hx] at hd
    simp only [Run.andThen] at hd
    cases hy : distinctPrime (bits / 2) p maxatt a r with
    | wait req a => simp [hy] at hd
    | outOfRange req => simp [hy] at hd
    | raised e a' r' =>
      simp only [hy, Run.raised.injEq] at hd
      obtain ⟨rfl, rfl, rfl⟩ := hd
      obtain ⟨h1, h2, h3⟩ := distinctPrime_raised hh hy
      obtain ⟨-, -, u, -, hc⟩ := (generatePrime_reader hh maxatt 0).done ans p a r hx
      exact .inl ⟨h1, h2, h3 (hc h2 (by simp)).1⟩
    | done q a' r' =>
      rw [hy] at hd
      simp only at hd
      cases hz : deriveKeys p q with
      | ok k' => simp [hz] at hd
      | error e' =>
        simp only [hz, Run.raised.injEq] at hd
        obtain ⟨rfl, -, -⟩ := hd
        obtain ⟨p1, p2, p3, -⟩ := generatePrime_done hh hx
        obtain ⟨q0, q1, q2, q3⟩ := distinctPrime_done hh hy
        exact .inr ⟨p, q, fun h => q0 h.symm, p1, p2, p3, q1, q2, q3, hz⟩

end Sys2Proof.Machine
end

