-- ==== Sys2Proof/Laws/Requests.lean ====
section
/-!
SUPPORT. Laws/Requests.lean: a drawing computation makes its requests one at a time and reads one answer for
each (R53). `Run.OneByOneAt F ans` says so of the computation `F` at the answers `ans`; it holds of every command
that draws, at every list of answers.
-/

namespace Sys2Proof.Machine

/-- `F`, given `ans`, has read some first part of it and ends the same way with anything behind that part; or it
waits for a request, and refuses every next answer out of the request's range; or it is refused because, having
read a part of `ans`, it waited for a request that the next answer is out of range of. -/
def Run.OneByOneAt {α : Type} (F : List Nat → Run α) (ans : List Nat) : Prop :=
  match F ans with
  | .done a att rest => ∃ used, ans = used ++ rest ∧ ∀ more, F (used ++ more) = .done a att more
  | .raised e att rest => ∃ used, ans = used ++ rest ∧ ∀ more, F (used ++ more) = .raised e att more
  | .wait req _ => ∀ v more, ¬ req.Admits v → F (ans ++ v :: more) = .outOfRange req
  | .outOfRange req => ∃ pre v post att, ans = pre ++ v :: post ∧ F pre = .wait req att ∧ ¬ req.Admits v

theorem Run.oneByOne_return {α : Type} (a : α) (att : Word) (ans : List Nat) :
    Run.OneByOneAt (fun ans => .done a att ans) ans := ⟨[], rfl, fun _ => rfl⟩

theorem Run.oneByOne_raise {α : Type} (e : CmdError) (att : Word) (ans : List Nat) :
    Run.OneByOneAt (α := α) (fun ans => .raised e att ans) ans := ⟨[], rfl, fun _ => rfl⟩

/-- Two drawing computations, one after the other. -/
theorem Run.oneByOne_andThen {α β : Type} {F : List Nat → Run α} {G : α → Word → List Nat → Run β}
    {ans : List Nat} (hF : Run.OneByOneAt F ans)
    (hG : ∀ a att rest, F ans = .done a att rest → Run.OneByOneAt (G a att) rest) :
    Run.OneByOneAt (fun ans => (F ans).andThen G) ans := by
  unfold Run.OneByOneAt at hF ⊢
  cases hx : F ans with
  | raised e att rest =>
    simp only [hx] at hF
    obtain ⟨used, hu, hm⟩ := hF
    simp only [hx, Run.andThen]
    exact ⟨used, hu, fun more => by simp [hm more]⟩
  | wait req att =>
    simp only [hx] at hF
    simp only [hx, Run.andThen]
    exact fun v more hv => by simp [hF v more hv]
  | outOfRange req =>
    simp only [hx] at hF
    obtain ⟨pre, v, post, att, ha, hw, hv⟩ := hF
    simp only [hx, Run.andThen]
    exact ⟨pre, v, post, att, ha, by simp [hw], hv⟩
  | done a att rest =>
    simp only [hx] at hF
    obtain ⟨used, rfl, hm⟩ := hF
    have hg := hG a att rest hx
    unfold Run.OneByOneAt at hg
    have he : (F (used ++ rest)).andThen G = G a att rest := by rw [hx, Run.andThen]
    cases hy : G a att rest with
    | raised e att' rest' =>
      simp only [hy] at hg he
      obtain ⟨used', rfl, hn⟩ := hg
      simp only [he]
      exact ⟨used ++ used', by simp, fun more => by simp [hm, hn, Run.andThen]⟩
    | done b att' rest' =>
      simp only [hy] at hg he
      obtain ⟨used', rfl, hn⟩ := hg
      simp only [he]
      exact ⟨used ++ used', by simp, fun more => by simp [hm, hn, Run.andThen]⟩
    | wait req att' =>
      simp only [hy] at hg he
      simp only [he]
      exact fun v more hv => by simp [hm, hg v more hv, Run.andThen]
    | outOfRange req =>
      simp only [hy] at hg he
      obtain ⟨pre, v, post, att', rfl, hw, hv⟩ := hg
      simp only [he]
      exact ⟨used ++ pre, v, post, att', by simp, by simp [hm, hw, Run.andThen], hv⟩

/-! ### What follows for every such computation -/

/-- Whatever ends, ends the same way with more answers behind those it was given. -/
theorem Run.oneByOne_more {α : Type} {F : List Nat → Run α} {ans : List Nat} (h : Run.OneByOneAt F ans)
    (more : List Nat) :
    (∀ a att rest, F ans = .done a att rest → F (ans ++ more) = .done a att (rest ++ more)) ∧
    ∀ e att rest, F ans = .raised e att rest → F (ans ++ more) = .raised e att (rest ++ more) := by
  unfold Run.OneByOneAt at h
  constructor <;> intro x att rest hx <;> simp only [hx] at h <;> obtain ⟨used, rfl, hm⟩ := h <;>
    rw [List.append_assoc, hm]

/-- A refusal stays a refusal, whatever answers come behind. -/
theorem Run.oneByOne_refused {α : Type} {F : List Nat → Run α} (hF : ∀ ans, Run.OneByOneAt F ans)
    {ans : List Nat} {req : Request} (hx : F ans = .outOfRange req) (more : List Nat) :
    F (ans ++ more) = .outOfRange req := by
  have h := hF ans
  simp only [Run.OneByOneAt, hx] at h
  obtain ⟨pre, v, post, att, rfl, hw, hv⟩ := h
  have h := hF pre
  simp only [Run.OneByOneAt, hw] at h
  simpa using h v (post ++ more) hv

/-- A computation that ends and leaves `rest` would wait, given fewer answers than it has read. -/
theorem Run.oneByOne_wait_of_fewer {α : Type} {F : List Nat → Run α} (hF : ∀ ans, Run.OneByOneAt F ans)
    {pre tail rest : List Nat} (hl : rest.length < tail.length)
    (hx : (∃ a att, F (pre ++ tail) = .done a att rest) ∨ ∃ e att, F (pre ++ tail) = .raised e att rest) :
    ∃ req att, F pre = .wait req att := by
  cases hp : F pre with
  | wait req att => exact ⟨req, att, rfl⟩
  | outOfRange req =>
    rcases hx with ⟨a, att, hx⟩ | ⟨e, att, hx⟩ <;> simp [Run.oneByOne_refused hF hp tail] at hx
  | done a att rest' =>
    rcases hx with ⟨a, att, hx⟩ | ⟨e, att, hx⟩ <;> simp only [(Run.oneByOne_more (hF pre) tail).1 _ _ _ hp] at hx
    · simp only [Run.done.injEq] at hx
      rw [← hx.2.2, List.length_append] at hl
      omega
    · cases hx
  | raised e att rest' =>
    rcases hx with ⟨a, att, hx⟩ | ⟨e, att, hx⟩ <;> simp only [(Run.oneByOne_more (hF pre) tail).2 _ _ _ hp] at hx
    · cases hx
    · simp only [Run.raised.injEq] at hx
      rw [← hx.2.2, List.length_append] at hl
      omega

/-- A waiting computation reads one more answer, if in the range of its request, and leaves none. -/
theorem Run.oneByOne_next {α : Type} {F : List Nat → Run α} (hF : ∀ ans, Run.OneByOneAt F ans)
    {ans : List Nat} {req : Request} {att : Word} (hw : F ans = .wait req att) {v : Nat} (hv : req.Admits v) :
    (∃ a att', F (ans ++ [v]) = .done a att' []) ∨ (∃ e att', F (ans ++ [v]) = .raised e att' []) ∨
      ∃ q att', F (ans ++ [v]) = .wait q att' := by
  have hsplit : ∀ used rest : List Nat, ans ++ [v] = used ++ rest → rest ≠ [] → ∃ r, ans = used ++ r := by
    intro used rest h hne
    obtain ⟨r, w, rfl⟩ := List.eq_nil_or_concat rest |>.resolve_left hne
    rw [List.concat_eq_append, ← List.append_assoc] at h
    exact ⟨r, (List.append_inj' h rfl).1⟩
  have h := hF (ans ++ [v])
  unfold Run.OneByOneAt at h
  cases hx : F (ans ++ [v]) with
  | wait q att' => exact .inr (.inr ⟨q, att', rfl⟩)
  | done a att' rest =>
    simp only [hx] at h
    obtain ⟨used, hu, hm⟩ := h
    by_cases hne : rest = []
    · exact .inl ⟨a, att', by rw [hne]⟩
    · obtain ⟨r, rfl⟩ := hsplit used rest hu hne
      rw [hm] at hw
      cases hw
  | raised e att' rest =>
    simp only [hx] at h
    obtain ⟨used, hu, hm⟩ := h
    by_cases hne : rest = []
    · exact .inr (.inl ⟨e, att', by rw [hne]⟩)
    · obtain ⟨r, rfl⟩ := hsplit used rest hu hne
      rw [hm] at hw
      cases hw
  | outOfRange q =>
    simp only [hx] at h
    obtain ⟨pre, u, post, att', hu, hp, hn⟩ := h
    by_cases hne : post = []
    · subst hne
      obtain ⟨rfl, huv⟩ := List.append_inj' hu rfl
      simp only [List.cons.injEq, and_true] at huv
      rw [hw] at hp
      cases hp
      exact absurd hv (huv ▸ hn)
    · obtain ⟨r, rfl⟩ := hsplit (pre ++ [u]) post (by simpa using hu) hne
      have h := hF pre
      simp only [Run.OneByOneAt, hp] at h
      have := h u r hn
      rw [List.append_assoc, List.singleton_append, this] at hw
      cases hw

/-! ### Requests and the tester -/

theorem Draw.counted_andThen {α β : Type} (att : Word) (d : Draw α) (G : α → List Nat → Draw β) :
    (d.andThen G).counted att = (d.counted att).andThen fun a att' rest => (G a rest).counted att' := by
  cases d <;> rfl

theorem randBits_oneByOne (k : Nat) (att : Word) (ans : List Nat) :
    Run.OneByOneAt (fun ans => (randBits k ans).counted att) ans := by
  cases ans with
  | nil =>
    intro v more hv
    have hv : ¬ v < 2 ^ k := hv
    simp only [List.nil_append, randBits, hv, if_false, Draw.counted]
  | cons v rest =>
    by_cases hv : v < 2 ^ k
    · simp only [Run.OneByOneAt, randBits, hv, if_true, Draw.counted]
      exact ⟨[v], rfl, fun more => by simp [hv]⟩
    · simp only [Run.OneByOneAt, randBits, hv, if_false, Draw.counted]
      exact ⟨[], v, rest, att, rfl, rfl, hv⟩

theorem randRange_oneByOne (lo hi : Nat) (att : Word) (ans : List Nat) :
    Run.OneByOneAt (fun ans => (randRange lo hi ans).counted att) ans := by
  cases ans with
  | nil =>
    intro v more hv
    have hv : ¬ (lo ≤ v ∧ v ≤ hi) := hv
    simp only [List.nil_append, randRange, hv, if_false, Draw.counted]
  | cons v rest =>
    by_cases hv : lo ≤ v ∧ v ≤ hi
    · simp only [Run.OneByOneAt, randRange_cons _ hv, Draw.counted]
      exact ⟨[v], rfl, fun more => by simp [randRange_cons _ hv]⟩
    · simp only [Run.OneByOneAt, randRange, hv, if_false, Draw.counted]
      exact ⟨[], v, rest, att, rfl, rfl, hv⟩

theorem witnessRounds_oneByOne (n d r k : Nat) (att : Word) (ans : List Nat) :
    Run.OneByOneAt (fun ans => (witnessRounds n d r k ans).counted att) ans := by
  induction k generalizing ans with
  | zero => exact Run.oneByOne_return true att ans
  | succ k ih =>
    simp only [witnessRounds_succ, Draw.counted_andThen]
    refine Run.oneByOne_andThen (randRange_oneByOne 2 (n - 2) att ans) fun a att' rest h => ?_
    have hatt : att' = att := by
      cases hx : randRange 2 (n - 2) ans <;> simp_all [Draw.counted]
    subst hatt
    by_cases hp : roundPasses n d r a
    · simpa [hp] using ih rest
    · simpa [hp, Draw.counted] using Run.oneByOne_return false att' rest

theorem isProbablePrime_oneByOne (n rounds : Nat) (att : Word) (ans : List Nat) :
    Run.OneByOneAt (fun ans => (isProbablePrime n rounds ans).counted att) ans := by
  simp only [isProbablePrime]
  by_cases h1 : n < 2
  · simpa [h1, Draw.counted] using Run.oneByOne_return false att ans
  by_cases h2 : n = 2 ∨ n = 3
  · simpa [h1, h2, Draw.counted] using Run.oneByOne_return true att ans
  by_cases h3 : n % 2 = 0
  · simpa [h1, h2, h3, Draw.counted] using Run.oneByOne_return false att ans
  simpa [h1, h2, h3] using witnessRounds_oneByOne n _ _ rounds att ans

/-! ### The searches -/

theorem tryCandidate_andThen (k : Nat) : tryCandidate k = fun ans =>
    (randBits k ans).andThen fun v rest =>
      (isProbablePrime (candidate k v) genRounds rest).andThen fun b rest' => .done (b, candidate k v) rest' := by
  funext ans
  unfold tryCandidate
  cases randBits k ans with
  | wait req => rfl
  | outOfRange req => rfl
  | done v rest =>
    simp only [Draw.andThen]
    cases isProbablePrime (candidate k v) genRounds rest <;> rfl

theorem tryCandidate_oneByOne (k : Nat) (att : Word) (ans : List Nat) :
    Run.OneByOneAt (fun ans => (tryCandidate k ans).counted att) ans := by
  simp only [tryCandidate_andThen, Draw.counted_andThen]
  refine Run.oneByOne_andThen (randBits_oneByOne k att ans) fun v att' rest _ => ?_
  exact Run.oneByOne_andThen (isProbablePrime_oneByOne _ _ att' rest) fun b att'' rest' _ =>
    Run.oneByOne_return _ att'' rest'

/-- `generate_prime` as one candidate and then, unless that is accepted, itself (R177). -/
theorem generatePrime_andThen (k : Nat) (maxatt att : Word) : generatePrime k maxatt att = fun ans =>
    if capReached maxatt att then .raised .generationExhausted att ans
    else ((tryCandidate k ans).counted (satInc att)).andThen fun x att' rest =>
      if x.1 then .done x.2 att' rest else generatePrime k maxatt att' rest := by
  funext ans
  rw [generatePrime_eq]
  split_ifs
  · rfl
  · cases tryCandidate k ans with
    | wait req => rfl
    | outOfRange req => rfl
    | done x rest => obtain ⟨b, c⟩ := x; cases b <;> rfl

theorem generatePrime_oneByOne (k : Nat) (maxatt att : Word) (ans : List Nat) :
    Run.OneByOneAt (generatePrime k maxatt att) ans := by
  induction hn : ans.length using Nat.strong_induction_on generalizing att ans with
  | _ n ih =>
    rw [generatePrime_andThen]
    by_cases hc : capReached maxatt att
    · simpa [hc] using Run.oneByOne_raise .generationExhausted att ans
    · simp only [hc, Bool.false_eq_true, if_false]
      refine Run.oneByOne_andThen (tryCandidate_oneByOne k (satInc att) ans) fun x att' rest h => ?_
      by_cases hx : x.1
      · simpa [hx] using Run.oneByOne_return x.2 att' rest
      · simp only [hx, Bool.false_eq_true, if_false]
        cases hy : tryCandidate k ans with
        | wait req => simp [hy, Draw.counted] at h
        | outOfRange req => simp [hy, Draw.counted] at h
        | done y rest' =>
          simp only [hy, Draw.counted, Run.done.injEq] at h
          obtain ⟨-, -, rfl⟩ := h
          exact ih _ (hn ▸ tryCandidate_shorter hy) att' rest' rfl

theorem distinctPrime_oneByOne (h p : Nat) (maxatt att : Word) (ans : List Nat) :
    Run.OneByOneAt (distinctPrime h p maxatt att) ans := by
  induction hn : ans.length using Nat.strong_induction_on generalizing att ans with
  | _ n ih =>
    rw [show distinctPrime h p maxatt att = fun ans => _ from funext (distinctPrime_eq h p maxatt att)]
    refine Run.oneByOne_andThen (generatePrime_oneByOne h maxatt att ans) fun q att' rest hq => ?_
    by_cases hx : q = p
    · simp only [hx, if_true]
      exact ih _ (hn ▸ generatePrime_shorter hq) att' rest rfl
    · simpa [hx] using Run.oneByOne_return q att' rest

theorem generateKeys_oneByOne (bits : Nat) (maxatt : Word) (ans : List Nat) :
    Run.OneByOneAt (generateKeys bits maxatt) ans := by
  unfold generateKeys
  refine Run.oneByOne_andThen (F := primePair (bits / 2) maxatt 0) ?_ fun pq att rest _ => ?_
  · rw [show primePair (bits / 2) maxatt 0 = fun ans => _ from funext (primePair_eq _ maxatt 0)]
    refine Run.oneByOne_andThen (generatePrime_oneByOne _ maxatt 0 ans) fun p att rest _ => ?_
    exact Run.oneByOne_andThen (distinctPrime_oneByOne _ p maxatt att rest) fun q att' rest' _ =>
      Run.oneByOne_return (p, q) att' rest'
  · cases deriveKeys pq.1 pq.2 with
    | error e => exact Run.oneByOne_raise e att rest
    | ok k => exact Run.oneByOne_return k att rest

/-! ### The candidates of a search -/

/-- The answers a pass reads are one candidate's block (R176, R177). -/
theorem tryCandidate_block {k c : Nat} {b : Bool} {ans rest : List Nat}
    (h : tryCandidate k ans = .done (b, c) rest) : ∃ block, ans = block ++ rest ∧ CandidateBlock k c b block := by
  obtain ⟨v, vs, rfl, hv, rfl, hp⟩ := tryCandidate_done h
  have hone := isProbablePrime_oneByOne (candidate k v) genRounds 0 vs
  simp only [Run.OneByOneAt, hp, Draw.counted] at hone
  obtain ⟨used, rfl, hm⟩ := hone
  have hnil := hm []
  refine ⟨v :: used, rfl, v, used, rfl, hv, rfl, ?_⟩
  rw [List.append_nil] at hnil
  change isProbablePrime (candidate k v) genRounds used = _
  cases hx : isProbablePrime (candidate k v) genRounds used <;> simp_all

/-- A search that ends has read the blocks of the candidates it rejected and of the one it accepted, and has
counted each of them, saturating (R177). -/
theorem generatePrime_blocks {k : Nat} {maxatt att att' : Word} {ans rest : List Nat} {c : Nat}
    (h : generatePrime k maxatt att ans = .done c att' rest) :
    ∃ (rejected : List (List Nat)) (last : List Nat), ans = rejected.flatten ++ last ++ rest ∧
      (∀ b ∈ rejected, ∃ c, CandidateBlock k c false b) ∧ CandidateBlock k c true last ∧
      att'.toNat = min (att.toNat + rejected.length + 1) (2 ^ 32 - 1) := by
  refine generatePrime_induction k maxatt (P := fun att ans r => ∀ c att' rest, r = .done c att' rest →
    ∃ (rejected : List (List Nat)) (last : List Nat), ans = rejected.flatten ++ last ++ rest ∧
      (∀ b ∈ rejected, ∃ c, CandidateBlock k c false b) ∧ CandidateBlock k c true last ∧
      att'.toNat = min (att.toNat + rejected.length + 1) (2 ^ 32 - 1)) ?_ ?_ ?_ ?_ ?_ att ans c att' rest h
  · intros
    simp_all
  · intros
    simp_all
  · intros
    simp_all
  · rintro att ans c rest - hx c' att' rest' he
    simp only [Run.done.injEq] at he
    obtain ⟨rfl, rfl, rfl⟩ := he
    obtain ⟨block, hb, hc⟩ := tryCandidate_block hx
    exact ⟨[], block, by simpa using hb, by simp, hc, by rw [satInc_toNat]; simp⟩
  · rintro att ans c rest - hx ih c' att' rest' he
    obtain ⟨block, rfl, hc⟩ := tryCandidate_block hx
    obtain ⟨rejected, last, rfl, hr, hl, hn⟩ := ih c' att' rest' he
    refine ⟨block :: rejected, last, by simp, ?_, hl, ?_⟩
    · intro b hb
      rcases List.mem_cons.mp hb with rfl | hb
      · exact ⟨c, hc⟩
      · exact hr b hb
    · rw [hn, satInc_toNat, List.length_cons]
      omega

end Sys2Proof.Machine
end

