-- ==== Sys2Proof/Laws/Candidates.lean ====
section
/-!
SUPPORT. Laws/Candidates.lean: which candidates a search has drawn when it ends (R177, R192), and that a search
given the answers of such candidates goes through them one by one.
-/

namespace Sys2Proof.Machine

theorem acceptedValues_append (xs ys : List Candidate) :
    acceptedValues (xs ++ ys) = acceptedValues xs ++ acceptedValues ys := by
  simp [acceptedValues]

/-- Between two points of a search, with ATTCNT at `att` and then at `att'`, exactly `draws` were drawn. -/
structure Drew (k : Nat) (draws : List Candidate) (maxatt att att' : Word) (ans rest : List Nat) : Prop where
  blocks : ∀ c ∈ draws, CandidateBlock k c.value c.accepted c.block
  answers : ans = (draws.map Candidate.block).flatten ++ rest
  count : att'.toNat = min (att.toNat + draws.length) (2 ^ 32 - 1)
  cap : maxatt ≠ 0 → att.toNat ≤ maxatt.toNat → att.toNat + draws.length ≤ maxatt.toNat

theorem Drew.nil (k : Nat) (maxatt att : Word) (ans : List Nat) : Drew k [] maxatt att att ans ans where
  blocks := by simp
  answers := by simp
  count := by
    have := att.isLt
    simp only [List.length_nil]
    omega
  cap _ h := h

theorem Drew.append {k : Nat} {xs ys : List Candidate} {maxatt a b c : Word} {r s t : List Nat}
    (h : Drew k xs maxatt a b r s) (g : Drew k ys maxatt b c s t) : Drew k (xs ++ ys) maxatt a c r t where
  blocks x hx := (List.mem_append.mp hx).elim (h.blocks x) (g.blocks x)
  answers := by rw [h.answers, g.answers]; simp
  count := by
    have h1 := h.count
    have h2 := g.count
    rw [List.length_append]
    omega
  cap hm ha := by
    have h0 := maxatt.isLt
    have h1 := h.count
    have h2 := h.cap hm ha
    have h3 := g.cap hm (by omega)
    rw [List.length_append]
    omega

/-- One candidate, drawn where the cap allows it. -/
theorem Drew.single {k : Nat} {x : Candidate} {maxatt att : Word} {rest : List Nat}
    (hb : CandidateBlock k x.value x.accepted x.block) (hc : capReached maxatt att = false) :
    Drew k [x] maxatt att (satInc att) (x.block ++ rest) rest where
  blocks := by simpa using hb
  answers := by simp
  count := by rw [satInc_toNat]; rfl
  cap hm ha := by
    rcases capReached_false.mp hc with h | h
    · exact absurd h hm
    · simpa using h

/-! ### What a search that ends has drawn -/

/-- `generate_prime` ends with its last candidate, the only one accepted, or with none (R177). -/
theorem generatePrime_drew (k : Nat) (maxatt att : Word) (ans : List Nat) :
    (∀ c att' rest, generatePrime k maxatt att ans = .done c att' rest →
      ∃ draws block, acceptedValues draws = [] ∧ Drew k (draws ++ [⟨c, true, block⟩]) maxatt att att' ans rest) ∧
    ∀ e att' rest, generatePrime k maxatt att ans = .raised e att' rest →
      ∃ draws, acceptedValues draws = [] ∧ Drew k draws maxatt att att' ans rest := by
  refine generatePrime_induction k maxatt (P := fun att ans r =>
    (∀ c att' rest, r = .done c att' rest → ∃ draws block, acceptedValues draws = [] ∧
      Drew k (draws ++ [⟨c, true, block⟩]) maxatt att att' ans rest) ∧
    ∀ e att' rest, r = .raised e att' rest →
      ∃ draws, acceptedValues draws = [] ∧ Drew k draws maxatt att att' ans rest) ?_ ?_ ?_ ?_ ?_ att ans
  · refine fun att ans _ => ⟨nofun, fun e att' rest h => ?_⟩
    cases h
    exact ⟨[], rfl, Drew.nil ..⟩
  · exact fun _ _ _ _ _ => ⟨nofun, nofun⟩
  · exact fun _ _ _ _ _ => ⟨nofun, nofun⟩
  · refine fun att ans c rest hc hx => ⟨fun c' att' rest' h => ?_, nofun⟩
    cases h
    obtain ⟨block, rfl, hb⟩ := tryCandidate_block hx
    exact ⟨[], block, rfl, Drew.single (x := ⟨c, true, block⟩) hb hc⟩
  · refine fun att ans c rest hc hx ih => ?_
    obtain ⟨block, rfl, hb⟩ := tryCandidate_block hx
    have hs := Drew.single (x := ⟨c, false, block⟩) (rest := rest) hb hc
    refine ⟨fun c' att' rest' h => ?_, fun e att' rest' h => ?_⟩
    · obtain ⟨draws, last, ha, hd⟩ := ih.1 c' att' rest' h
      exact ⟨⟨c, false, block⟩ :: draws, last, by simpa [acceptedValues] using ha, hs.append hd⟩
    · obtain ⟨draws, ha, hd⟩ := ih.2 e att' rest' h
      exact ⟨⟨c, false, block⟩ :: draws, by simpa [acceptedValues] using ha, hs.append hd⟩

/-- The distinctness loop has accepted p any number of times, and last q where it ends with one (R192). -/
theorem distinctPrime_drew (k p : Nat) (maxatt att : Word) (ans : List Nat) :
    (∀ q att' rest, distinctPrime k p maxatt att ans = .done q att' rest →
      ∃ draws n block, q ≠ p ∧ acceptedValues draws = List.replicate n p ∧
        Drew k (draws ++ [⟨q, true, block⟩]) maxatt att att' ans rest) ∧
    ∀ e att' rest, distinctPrime k p maxatt att ans = .raised e att' rest →
      ∃ draws n, acceptedValues draws = List.replicate n p ∧ Drew k draws maxatt att att' ans rest := by
  induction hn : ans.length using Nat.strong_induction_on generalizing att ans with
  | _ n ih =>
    rw [distinctPrime_eq]
    cases hx : generatePrime k maxatt att ans with
    | wait req a => exact ⟨nofun, nofun⟩
    | outOfRange req => exact ⟨nofun, nofun⟩
    | raised e a r =>
      refine ⟨nofun, fun e' att' rest h => ?_⟩
      cases h
      obtain ⟨draws, ha, hd⟩ := (generatePrime_drew k maxatt att ans).2 _ _ _ hx
      exact ⟨draws, 0, ha, hd⟩
    | done q a r =>
      obtain ⟨draws, block, ha, hd⟩ := (generatePrime_drew k maxatt att ans).1 _ _ _ hx
      simp only [Run.andThen]
      by_cases hq : q = p
      · subst hq
        simp only [if_true]
        have hs := ih _ (hn ▸ generatePrime_shorter hx) a r rfl
        have hone : ∀ m ds, acceptedValues ds = List.replicate m q →
            acceptedValues ((draws ++ [⟨q, true, block⟩]) ++ ds) = List.replicate (m + 1) q := by
          intro m ds h
          rw [acceptedValues_append, acceptedValues_append, ha, h, List.replicate_succ]
          rfl
        refine ⟨fun q' att' rest h => ?_, fun e att' rest h => ?_⟩
        · obtain ⟨ds, m, last, hne, hm, hr⟩ := hs.1 _ _ _ h
          exact ⟨_, m + 1, last, hne, hone m ds hm, by rw [List.append_assoc]; exact hd.append hr⟩
        · obtain ⟨ds, m, hm, hr⟩ := hs.2 _ _ _ h
          exact ⟨_, m + 1, hone m ds hm, hd.append hr⟩
      · simp only [hq, if_false]
        refine ⟨fun q' att' rest h => ?_, nofun⟩
        cases h
        exact ⟨draws, 0, block, hq, ha, hd⟩

/-- The search of GENKEYS for its two primes (R192). -/
theorem primePair_drew (k : Nat) (maxatt : Word) (ans : List Nat) :
    (∀ p q att rest, primePair k maxatt 0 ans = .done (p, q) att rest →
      p ≠ q ∧ ∃ draws n block, acceptedValues draws = p :: List.replicate n p ∧
        Drew k (draws ++ [⟨q, true, block⟩]) maxatt 0 att ans rest) ∧
    ∀ e att rest, primePair k maxatt 0 ans = .raised e att rest →
      ∃ draws p n, acceptedValues draws = List.replicate n p ∧ Drew k draws maxatt 0 att ans rest := by
  rw [primePair_eq]
  cases hx : generatePrime k maxatt 0 ans with
  | wait req a => exact ⟨nofun, nofun⟩
  | outOfRange req => exact ⟨nofun, nofun⟩
  | raised e a r =>
    refine ⟨nofun, fun e' att' rest h => ?_⟩
    cases h
    obtain ⟨draws, ha, hd⟩ := (generatePrime_drew k maxatt 0 ans).2 _ _ _ hx
    exact ⟨draws, 0, 0, ha, hd⟩
  | done p a r =>
    obtain ⟨draws, block, ha, hd⟩ := (generatePrime_drew k maxatt 0 ans).1 _ _ _ hx
    have hone : ∀ ds vs, acceptedValues ds = vs →
        acceptedValues ((draws ++ [⟨p, true, block⟩]) ++ ds) = p :: vs := by
      rintro ds vs rfl
      rw [acceptedValues_append, acceptedValues_append, ha]
      rfl
    simp only [Run.andThen]
    cases hy : distinctPrime k p maxatt a r with
    | wait req a' => exact ⟨nofun, nofun⟩
    | outOfRange req => exact ⟨nofun, nofun⟩
    | raised e a' r' =>
      refine ⟨nofun, fun e' att' rest h => ?_⟩
      cases h
      obtain ⟨ds, n, hm, hr⟩ := (distinctPrime_drew k p maxatt a r).2 _ _ _ hy
      exact ⟨_, p, n + 1, hone ds _ hm, hd.append hr⟩
    | done q a' r' =>
      refine ⟨fun p' q' att' rest h => ?_, nofun⟩
      cases h
      obtain ⟨ds, n, last, hne, hm, hr⟩ := (distinctPrime_drew k p maxatt a r).1 _ _ _ hy
      exact ⟨hne.symm, _, n, last, hone ds _ hm, by rw [List.append_assoc]; exact hd.append hr⟩

/-- GENKEYS ends with the keys of the p and q it has drawn, with the error their exponents give, or exhausted. -/
theorem generateKeys_drew (bits : Nat) (maxatt : Word) (ans : List Nat) :
    (∀ key att rest, generateKeys bits maxatt ans = .done key att rest →
      ∃ p q, deriveKeys p q = .ok key ∧ p ≠ q ∧ ∃ draws n block, acceptedValues draws = p :: List.replicate n p ∧
        Drew (bits / 2) (draws ++ [⟨q, true, block⟩]) maxatt 0 att ans rest) ∧
    ∀ e att rest, generateKeys bits maxatt ans = .raised e att rest →
      (∃ p q, deriveKeys p q = .error e ∧ p ≠ q ∧ ∃ draws n block, acceptedValues draws = p :: List.replicate n p ∧
        Drew (bits / 2) (draws ++ [⟨q, true, block⟩]) maxatt 0 att ans rest) ∨
      (primePair (bits / 2) maxatt 0 ans = .raised e att rest ∧
        ∃ draws p n, acceptedValues draws = List.replicate n p ∧ Drew (bits / 2) draws maxatt 0 att ans rest) := by
  have hp := primePair_drew (bits / 2) maxatt ans
  unfold generateKeys
  cases hx : primePair (bits / 2) maxatt 0 ans with
  | wait req a => exact ⟨nofun, nofun⟩
  | outOfRange req => exact ⟨nofun, nofun⟩
  | raised e a r =>
    refine ⟨nofun, fun e' att rest h => ?_⟩
    cases h
    exact .inr ⟨rfl, hp.2 _ _ _ hx⟩
  | done pq a r =>
    obtain ⟨p, q⟩ := pq
    simp only [Run.andThen]
    cases hd : deriveKeys p q with
    | error e =>
      refine ⟨nofun, fun e' att rest h => ?_⟩
      cases h
      exact .inl ⟨p, q, hd, hp.1 _ _ _ _ hx⟩
    | ok key =>
      refine ⟨fun key' att rest h => ?_, nofun⟩
      cases h
      exact ⟨p, q, hd, hp.1 _ _ _ _ hx⟩

/-- A value drawn is an odd number of exactly k bits (R176). -/
theorem CandidateBlock.range {k c : Nat} {b : Bool} {block : List Nat} (hk : 2 ≤ k)
    (h : CandidateBlock k c b block) : 2 ^ (k - 1) < c ∧ c < 2 ^ k ∧ c % 2 = 1 := by
  obtain ⟨v, ws, -, hv, rfl, -⟩ := h
  exact candidate_range hk hv

/-- An accepted value is the value of a candidate drawn. -/
theorem mem_acceptedValues {draws : List Candidate} {v : Nat} (h : v ∈ acceptedValues draws) :
    ∃ c ∈ draws, c.value = v ∧ c.accepted = true := by
  simp only [acceptedValues, List.mem_map, List.mem_filter] at h
  obtain ⟨c, ⟨hc, ha⟩, rfl⟩ := h
  exact ⟨c, hc, rfl, ha⟩

/-! ### A search given the answers of candidates -/

/-- The answers of a candidate are read by its pass and no others are. -/
theorem CandidateBlock.try {k c : Nat} {b : Bool} {block : List Nat} (h : CandidateBlock k c b block)
    (rest : List Nat) : tryCandidate k (block ++ rest) = .done (b, c) rest := by
  obtain ⟨v, ws, rfl, hv, rfl, hp⟩ := h
  have := ((isProbablePrime_reader (candidate k v) genRounds).done ws b [] hp).2 rest
  exact tryCandidate_of hv (by simpa using this)

theorem CandidateBlock.generatePrime {k c : Nat} {b : Bool} {block : List Nat} {maxatt att : Word}
    (h : CandidateBlock k c b block) (hc : capReached maxatt att = false) (rest : List Nat) :
    Machine.generatePrime k maxatt att (block ++ rest) =
      if b then .done c (satInc att) rest else Machine.generatePrime k maxatt (satInc att) rest := by
  rw [generatePrime_eq, hc, h.try]
  cases b <;> rfl

/-- In the distinctness loop a rejected candidate and an accepted p are both gone through (R192). -/
theorem CandidateBlock.distinctPrime {k c p : Nat} {b : Bool} {block : List Nat} {maxatt att : Word}
    (h : CandidateBlock k c b block) (hc : capReached maxatt att = false) (hp : b = true → c = p)
    (rest : List Nat) :
    Machine.distinctPrime k p maxatt att (block ++ rest) =
      Machine.distinctPrime k p maxatt (satInc att) rest := by
  rw [distinctPrime_eq, h.generatePrime hc]
  cases b with
  | true => simp [Run.andThen, hp rfl]
  | false =>
    rw [distinctPrime_eq k p maxatt (satInc att) rest]
    rfl

theorem satInc_below {maxatt att : Word} (h : att.toNat < maxatt.toNat) :
    capReached maxatt att = false ∧ (satInc att).toNat = att.toNat + 1 := by
  have := maxatt.isLt
  exact ⟨capReached_false.mpr (.inr h), by rw [satInc_toNat]; omega⟩

/-- As many rejected candidates as the cap still allows exhaust the search (R177). -/
theorem generatePrime_exhausts {k : Nat} {maxatt : Word} (hm : maxatt ≠ 0) (rest : List Nat)
    (draws : List Candidate) (att : Word) (hb : ∀ c ∈ draws, CandidateBlock k c.value c.accepted c.block)
    (ha : acceptedValues draws = []) (hl : att.toNat + draws.length = maxatt.toNat) :
    generatePrime k maxatt att ((draws.map Candidate.block).flatten ++ rest) =
      .raised .generationExhausted maxatt rest := by
  induction draws generalizing att with
  | nil =>
    obtain rfl : att = maxatt := BitVec.eq_of_toNat_eq hl
    rw [generatePrime_eq, capReached_true.mpr ⟨hm, le_rfl⟩]
    rfl
  | cons c draws ih =>
    simp only [List.length_cons] at hl
    obtain ⟨hc, hs⟩ := satInc_below (maxatt := maxatt) (att := att) (by omega)
    have hrej : c.accepted = false := by
      by_contra h
      simp [acceptedValues, h] at ha
    rw [List.map_cons, List.flatten_cons, List.append_assoc, (hb c (by simp)).generatePrime hc, hrej]
    exact ih _ (fun x hx => hb x (by simp [hx])) (by simpa [acceptedValues, hrej] using ha) (by omega)

theorem distinctPrime_exhausts {k p : Nat} {maxatt : Word} (hm : maxatt ≠ 0) (rest : List Nat)
    (draws : List Candidate) (att : Word) (hb : ∀ c ∈ draws, CandidateBlock k c.value c.accepted c.block)
    (ha : ∀ v ∈ acceptedValues draws, v = p) (hl : att.toNat + draws.length = maxatt.toNat) :
    distinctPrime k p maxatt att ((draws.map Candidate.block).flatten ++ rest) =
      .raised .generationExhausted maxatt rest := by
  induction draws generalizing att with
  | nil =>
    obtain rfl : att = maxatt := BitVec.eq_of_toNat_eq hl
    rw [distinctPrime_eq, generatePrime_eq, capReached_true.mpr ⟨hm, le_rfl⟩]
    rfl
  | cons c draws ih =>
    simp only [List.length_cons] at hl
    obtain ⟨hc, hs⟩ := satInc_below (maxatt := maxatt) (att := att) (by omega)
    rw [List.map_cons, List.flatten_cons, List.append_assoc,
      (hb c (by simp)).distinctPrime hc fun h => ha _ (by simp [acceptedValues, h])]
    refine ih _ (fun x hx => hb x (by simp [hx])) (fun v hv => ha v ?_) (by omega)
    rw [← List.singleton_append, acceptedValues_append]
    exact List.mem_append.mpr (.inr hv)

/-- As many candidates as the cap allows, every accepted one the same, exhaust the search of GENKEYS (R192). -/
theorem primePair_exhausts {k p : Nat} {maxatt : Word} (hm : maxatt ≠ 0) (rest : List Nat)
    (draws : List Candidate) (att : Word) (hb : ∀ c ∈ draws, CandidateBlock k c.value c.accepted c.block)
    (ha : ∀ v ∈ acceptedValues draws, v = p) (hl : att.toNat + draws.length = maxatt.toNat) :
    primePair k maxatt att ((draws.map Candidate.block).flatten ++ rest) =
      .raised .generationExhausted maxatt rest := by
  induction draws generalizing att with
  | nil =>
    obtain rfl : att = maxatt := BitVec.eq_of_toNat_eq hl
    rw [primePair_eq, generatePrime_eq, capReached_true.mpr ⟨hm, le_rfl⟩]
    rfl
  | cons c draws ih =>
    simp only [List.length_cons] at hl
    obtain ⟨hc, hs⟩ := satInc_below (maxatt := maxatt) (att := att) (by omega)
    have hb' : ∀ x ∈ draws, CandidateBlock k x.value x.accepted x.block := fun x hx => hb x (by simp [hx])
    have ha' : ∀ v ∈ acceptedValues draws, v = p := fun v hv => ha v (by
      rw [← List.singleton_append, acceptedValues_append]
      exact List.mem_append.mpr (.inr hv))
    rw [List.map_cons, List.flatten_cons, List.append_assoc, primePair_eq, (hb c (by simp)).generatePrime hc]
    cases hacc : c.accepted with
    | false =>
      have := ih (satInc att) hb' ha' (by omega)
      rw [primePair_eq] at this
      exact this
    | true =>
      have hv : c.value = p := ha _ (by simp [acceptedValues, hacc])
      simp only [if_true, Run.andThen, hv]
      rw [distinctPrime_exhausts hm rest draws _ hb' ha' (by omega)]

end Sys2Proof.Machine
end

