-- ==== Sys2Proof/Laws/Commands.lean ====
section
/-!
SUPPORT. Laws/Commands.lean: for each command, everything a next state of its execution can be, so that a proof
about all outcomes need not unfold the meaning.
-/

namespace Sys2Proof.Machine

theorem exec_modexp_next {s t : State} (h : exec .modexp s = .next t) :
    (s.opc = 0 ∧ t = s.fail .badOperand) ∨
    (s.opc ≠ 0 ∧ t = (s.ures0 (modexp s.opa s.opb s.opc)).complete) := by
  simp only [exec, execModexp] at h
  split_ifs at h with h0
  · exact .inl ⟨h0, by simpa using h.symm⟩
  · exact .inr ⟨h0, by simpa using h.symm⟩

theorem exec_egcd_next {s t : State} (h : exec .egcd s = .next t) :
    t = (((s.sres0 (egcd s.svalA s.svalB).g).sres1 (egcd s.svalA s.svalB).x).sres2
      (egcd s.svalA s.svalB).y).complete := by
  simp only [exec, execEgcd, Host.Outcome.next.injEq] at h
  exact h.symm

theorem exec_modinv_next {s t : State} (h : exec .modinv s = .next t) :
    (modInverse s.svalA s.svalB = .zeroModulus ∧ t = s.fail .badOperand) ∨
    (modInverse s.svalA s.svalB = .noInverse ∧ t = s.fail .invalidModulus) ∨
    ∃ v, modInverse s.svalA s.svalB = .value v ∧ t = (s.sres0 v).complete := by
  simp only [exec, execModinv] at h
  cases hx : modInverse s.svalA s.svalB with
  | zeroModulus => exact .inl ⟨rfl, by simpa [hx] using h.symm⟩
  | noInverse => exact .inr (.inl ⟨rfl, by simpa [hx] using h.symm⟩)
  | value v => exact .inr (.inr ⟨v, rfl, by simpa [hx] using h.symm⟩)

/-- ISPRIME raises nothing once it draws; it ends with the tester's answer or waits for a witness. -/
theorem exec_isprime_next {s t : State} {rounds : Nat} (h : exec (.isprime rounds) s = .next t) :
    (rounds = 0 ∧ t = s.fail .badOperand) ∨
    (rounds ≠ 0 ∧
      ((∃ b rest, isProbablePrime s.opa rounds s.answers = .done b rest ∧
          t = ({ s with answers := rest }.setPrime b).complete) ∨
        ∃ req, isProbablePrime s.opa rounds s.answers = .wait req ∧ t = s.waitFor (.isprime rounds) req)) := by
  simp only [exec, execIsprime] at h
  split_ifs at h with h0
  · exact .inl ⟨h0, by simpa using h.symm⟩
  · refine .inr ⟨h0, ?_⟩
    cases hx : isProbablePrime s.opa rounds s.answers with
    | done b rest =>
      simp only [hx, Draw.counted, State.conclude, Host.Outcome.next.injEq] at h
      exact .inl ⟨b, rest, rfl, h.symm⟩
    | wait req =>
      simp only [hx, Draw.counted, State.conclude, Host.Outcome.next.injEq] at h
      exact .inr ⟨req, rfl, h.symm⟩
    | outOfRange req => simp [hx, Draw.counted, State.conclude] at h

theorem exec_genprime_next {s t : State} {k : Nat} (h : exec (.genprime k) s = .next t) :
    ((k < 2 ∨ s.width < k) ∧ t = s.fail .badOperand) ∨
    (2 ≤ k ∧ k ≤ s.width ∧
      ((∃ c att rest, generatePrime k s.maxatt 0 s.answers = .done c att rest ∧
          t = ({ s with attcnt := att, answers := rest }.ures0 c).complete) ∨
        (∃ e att rest, generatePrime k s.maxatt 0 s.answers = .raised e att rest ∧
          t = { s with attcnt := att, answers := rest }.fail e) ∨
        ∃ req att, generatePrime k s.maxatt 0 s.answers = .wait req att ∧
          t = { s with attcnt := att }.waitFor (.genprime k) req)) := by
  simp only [exec, execGenprime] at h
  split_ifs at h with h0
  · exact .inl ⟨h0, by simpa using h.symm⟩
  · exact .inr ⟨by omega, by omega, State.conclude_next h⟩

theorem exec_genkeys_next {s t : State} {bits : Nat} (h : exec (.genkeys bits) s = .next t) :
    ((bits % 2 = 1 ∨ bits < 8 ∨ s.width < bits) ∧ t = s.fail .badOperand) ∨
    (bits % 2 = 0 ∧ 8 ≤ bits ∧ bits ≤ s.width ∧
      ((∃ k att rest, generateKeys bits s.maxatt s.answers = .done k att rest ∧
          t = ({ s with attcnt := att, answers := rest }.writeKeys k).complete) ∨
        (∃ e att rest, generateKeys bits s.maxatt s.answers = .raised e att rest ∧
          t = { s with attcnt := att, answers := rest }.fail e) ∨
        ∃ req att, generateKeys bits s.maxatt s.answers = .wait req att ∧
          t = { s with attcnt := att }.waitFor (.genkeys bits) req)) := by
  have hmin : minKeyBits = 8 := rfl
  simp only [exec, execGenkeys] at h
  split_ifs at h with h0
  · exact .inl ⟨by omega, by simpa using h.symm⟩
  · exact .inr ⟨by omega, by omega, by omega, State.conclude_next h⟩

/-- ENCRYPT reads only existing message bytes: its length check comes first, so it never faults (R208). -/
theorem exec_encrypt_eq (s : State) : exec .encrypt s =
    if s.msgBytes < s.msglen.toNat then .next (s.fail .badOperand)
    else if s.pubN ≤ be2nat (s.msg.readList 0 s.msglen.toNat) then .next (s.fail .oversizedMessage)
    else .next (s.ures0 (modexp (be2nat (s.msg.readList 0 s.msglen.toNat)) s.pubE s.pubN)).complete := by
  simp only [exec, execEncrypt, State.memRead]
  by_cases h1 : s.msgBytes < s.msglen.toNat
  · rw [if_pos h1, if_pos h1]
  · rw [if_neg h1, if_neg h1, if_pos (by omega)]

theorem exec_decrypt_next {s t : State} (h : exec .decrypt s = .next t) :
    (s.privN = 0 ∧ t = s.fail .badOperand) ∨
    (s.privN ≠ 0 ∧
      (s.decryptedBuffer (modexp s.opa s.privD s.privN)).length ≤ s.msgBytes ∧
      t = State.complete { s with
        msg := s.msg.writeList 0 (s.decryptedBuffer (modexp s.opa s.privD s.privN))
        msglen := BitVec.ofNat 32 (nat2be (modexp s.opa s.privD s.privN)).length }) := by
  simp only [exec, execDecrypt, State.memWrite] at h
  split_ifs at h with h0 h1
  · exact .inl ⟨h0, by simpa using h.symm⟩
  · refine .inr ⟨h0, by omega, ?_⟩
    simp only [Host.Outcome.next.injEq] at h
    exact h.symm

/-- Only the three commands that draw are ever refused, and only for an answer out of range (R53). -/
theorem exec_refused {s : State} {i : Instr} {why : Refusal} (h : exec i s = .refused why) :
    ∃ req, why = .randomOutOfRange req ∧
      ((∃ rounds, i = .isprime rounds ∧ isProbablePrime s.opa rounds s.answers = .outOfRange req) ∨
        (∃ k, i = .genprime k ∧ 2 ≤ k ∧ generatePrime k s.maxatt 0 s.answers = .outOfRange req) ∨
        ∃ bits, i = .genkeys bits ∧ 8 ≤ bits ∧ generateKeys bits s.maxatt s.answers = .outOfRange req) := by
  cases i with
  | modexp =>
    simp only [exec, execModexp] at h
    split_ifs at h
  | egcd => simp [exec, execEgcd] at h
  | modinv =>
    simp only [exec, execModinv] at h
    split at h <;> simp at h
  | encrypt =>
    rw [exec_encrypt_eq] at h
    split_ifs at h
  | decrypt =>
    simp only [exec, execDecrypt, State.memWrite] at h
    split_ifs at h
  | isprime rounds =>
    simp only [exec, execIsprime] at h
    split_ifs at h
    obtain ⟨req, hr, hw⟩ := State.conclude_refused h
    refine ⟨req, hw, .inl ⟨rounds, rfl, ?_⟩⟩
    cases hx : isProbablePrime s.opa rounds s.answers with
    | done b rest => simp [hx, Draw.counted] at hr
    | wait q => simp [hx, Draw.counted] at hr
    | outOfRange q => simpa [hx, Draw.counted] using hr
  | genprime k =>
    simp only [exec, execGenprime] at h
    split_ifs at h with h0
    obtain ⟨req, hr, hw⟩ := State.conclude_refused h
    exact ⟨req, hw, .inr (.inl ⟨k, rfl, by omega, hr⟩)⟩
  | genkeys bits =>
    have hmin : minKeyBits = 8 := rfl
    simp only [exec, execGenkeys] at h
    split_ifs at h with h0
    obtain ⟨req, hr, hw⟩ := State.conclude_refused h
    exact ⟨req, hw, .inr (.inr ⟨bits, rfl, by omega, hr⟩)⟩

/-- Only DECRYPT can fault, and only where the encoding of its result outgrows the buffer; the invariant of
Safety.lean rules that out. -/
theorem exec_fault {s : State} {i : Instr} {f : Fault} (h : exec i s = .fault f) :
    i = .decrypt ∧ s.privN ≠ 0 ∧
      s.msgBytes < (s.decryptedBuffer (modexp s.opa s.privD s.privN)).length := by
  cases i with
  | modexp =>
    simp only [exec, execModexp] at h
    split_ifs at h
  | egcd => simp [exec, execEgcd] at h
  | modinv =>
    simp only [exec, execModinv] at h
    split at h <;> simp at h
  | encrypt =>
    rw [exec_encrypt_eq] at h
    split_ifs at h
  | decrypt =>
    simp only [exec, execDecrypt, State.memWrite] at h
    split_ifs at h with h0 h1
    exact ⟨rfl, h0, by omega⟩
  | isprime rounds =>
    simp only [exec, execIsprime] at h
    split_ifs at h
    exact absurd h (State.conclude_not_fault f)
  | genprime k =>
    simp only [exec, execGenprime] at h
    split_ifs at h
    exact absurd h (State.conclude_not_fault f)
  | genkeys bits =>
    simp only [exec, execGenkeys] at h
    split_ifs at h
    exact absurd h (State.conclude_not_fault f)

end Sys2Proof.Machine
end

