-- ==== Sys2Proof/Laws/HostPort.lean ====
section
/-!
SUPPORT. Laws/HostPort.lean: the address map and the two lanes of the host port: where each location stands,
limbs as bit ranges of a register value, and the four bytes of a bus word.
-/

namespace Sys2Proof.Machine

/-- A control register stands at its offset (R64). -/
theorem locate_csr (w : Nat) (c : Csr) : locate w c.offset = some (.csr c) := by cases c <;> rfl

/-- The control registers by their offsets (R64). -/
theorem csrAt_eq (a : Nat) : csrAt a =
    if a = 0 then some .id else if a = 4 then some .cfg else if a = 8 then some .status
    else if a = 12 then some .cmd else if a = 16 then some .sign else if a = 20 then some .msglen
    else if a = 24 then some .maxatt else if a = 28 then some .attcnt else none := by
  rcases Nat.lt_or_ge a 29 with h | h
  · interval_cases a <;> rfl
  · repeat rw [if_neg (by omega)]
    rw [csrAt, List.find?_eq_none]
    intro c _
    cases c <;> simp [Csr.offset] <;> omega

theorem BigReg.all_get (i : Nat) (r : BigReg) (h : BigReg.all[i]? = some r) : r.number = i := by
  have : i < 10 := by
    rcases Nat.lt_or_ge i 10 with h' | h'
    · exact h'
    · rw [List.getElem?_eq_none (by simpa [BigReg.all] using h')] at h; simp at h
  interval_cases i <;> simp [BigReg.all] at h <;> subst h <;> rfl

theorem BigReg.number_lt (r : BigReg) : r.number < 10 := by cases r <;> decide

theorem BigReg.all_number (r : BigReg) : BigReg.all[r.number]? = some r := by cases r <;> rfl

/-- Limb j of a register stands at its base + 4*j (R64). -/
theorem locate_limb (width j : Nat) (r : BigReg) (h : Config.LegalWidth width) (hj : j < width / 32) :
    locate width (r.base + 4*j) = some (.limb r j) := by
  obtain ⟨h1, h2, h3⟩ := h
  have hr := BigReg.number_lt r
  have hj' : j < 256 := by omega
  unfold locate BigReg.base
  rw [if_neg (by omega), if_neg (by omega), if_pos (by omega)]
  have e1 : (4096 + 1024 * r.number + 4 * j) % 1024 / 4 = j := by omega
  have e2 : (4096 + 1024 * r.number + 4 * j - 4096) / 1024 = r.number := by omega
  rw [e1, e2, if_pos hj, BigReg.all_number]; rfl

/-- Message word j stands at 0x4000 + 4*j (R64). -/
theorem locate_msgWord (width j : Nat) (h : Config.LegalWidth width) (hj : j < width / 32) :
    locate width (0x4000 + 4*j) = some (.msgWord j) := by
  obtain ⟨h1, h2, h3⟩ := h
  have hj' : j < 256 := by omega
  unfold locate
  rw [if_neg (by omega), if_neg (by omega), if_neg (by omega), if_pos (by omega)]
  have e1 : (16384 + 4 * j - 16384) / 4 = j := by omega
  rw [e1, if_pos hj]

/-- Whatever an offset reaches stands there, and exists (R64). -/
theorem locate_some (width a : Nat) (loc) (h : locate width a = some loc) :
    loc.offset = a ∧ loc.present width = true := by
  unfold locate at h
  split_ifs at h with h1 h2 h3 h4 h5 h6
  · rw [csrAt_eq] at h
    split_ifs at h <;> simp at h <;> subst h <;> simp_all [Location.offset, Csr.offset, Location.present]
  · simp only [Option.map_eq_some_iff] at h
    obtain ⟨r, hr, rfl⟩ := h
    have := BigReg.all_get _ _ hr
    simp only [Location.offset, Location.present, BigReg.base, this, decide_eq_true_eq]
    exact ⟨by omega, h4⟩
  · simp only [Option.some.injEq] at h
    subst h
    simp only [Location.offset, Location.present, decide_eq_true_eq]
    exact ⟨by omega, h6⟩

/-- A host write of a control register in an idle block. -/
theorem hostWrite_csr (s : State) (c : Csr) (d : Word) (h : s.busy = false) : hostWrite s c.offset d =
   match s.writeLocation d (.csr c) with | none => (.error, s) | some t => (.okay, t) := by
  cases hw : s.writeLocation d (.csr c) <;> simp [hostWrite, locate_csr, h, hw]

theorem limb_toNat (x j : Nat) : (limb x j).toNat = x / 2^(32*j) % 2^32 := by simp [limb]

/-- A register value is the sum of its limbs (R65). -/
theorem sum_limbs (x : Nat) : ∀ n, x < 2^(32*n) → x = ∑ k ∈ Finset.range n, (limb x k).toNat * 2^(32*k) := by
  have : ∀ n, x % 2^(32*n) = ∑ k ∈ Finset.range n, (limb x k).toNat * 2^(32*k) := by
    intro n
    induction n with
    | zero => simp [Nat.mod_one]
    | succ n ih =>
      rw [Finset.sum_range_succ, ← ih, limb_toNat]
      rw [show 32 * (n+1) = 32*n + 32 by ring, pow_add, Nat.mod_mul]; ring
  intro n hn
  rw [← this, Nat.mod_eq_of_lt hn]

theorem setLimb_lt (x j n : Nat) (d : Word) (hx : x < 2^(32*n)) (hj : j < n) : setLimb x j d < 2^(32*n) := by
  unfold setLimb
  obtain ⟨m, rfl⟩ : ∃ m, n = j + 1 + m := ⟨n - (j+1), by omega⟩
  have e : 32 * (j + 1 + m) = 32 * j + 32 + 32 * m := by ring
  rw [e] at hx ⊢
  rw [pow_add _ (32*j+32)] at hx ⊢
  have h1 : x / 2^(32*j+32) < 2^(32*m) := by
    rw [Nat.div_lt_iff_lt_mul (by positivity)]; rw [mul_comm]; exact hx
  have h2 := d.isLt
  have h3 : x % 2^(32*j) < 2^(32*j) := Nat.mod_lt _ (by positivity)
  have h4 : d.toNat * 2^(32*j) + x % 2^(32*j) < 2^(32*j+32) := by
    rw [pow_add]
    calc _ < d.toNat * 2^(32*j) + 1 * 2^(32*j) := by omega
      _ = (d.toNat + 1) * 2^(32*j) := by ring
      _ ≤ 2^32 * 2^(32*j) := Nat.mul_le_mul_right _ h2
      _ = _ := by ring
  calc _ = x / 2^(32*j+32) * 2^(32*j+32) + (d.toNat * 2^(32*j) + x % 2^(32*j)) := by ring
    _ < x / 2^(32*j+32) * 2^(32*j+32) + 1 * 2^(32*j+32) := by omega
    _ = (x / 2^(32*j+32) + 1) * 2^(32*j+32) := by ring
    _ ≤ 2^(32*m) * 2^(32*j+32) := Nat.mul_le_mul_right _ h1
    _ = _ := by ring

/-- Replacing a limb changes that limb and no other (R65). -/
theorem limb_setLimb (x j k : Nat) (d : Word) : limb (setLimb x j d) k = if k = j then d else limb x k := by
  apply BitVec.eq_of_getLsbD_eq
  intro i hi
  have hb : ∀ y k, (limb y k).getLsbD i = y.testBit (32*k + i) := by
    intro y k; unfold limb
    rw [BitVec.getLsbD_ofNat]; simp [hi, Nat.testBit_div_two_pow, Nat.add_comm]
  have hs : ∀ p, (setLimb x j d).testBit p = if p < 32*j then x.testBit p else if p < 32*j+32 then d.toNat.testBit (p - 32*j) else x.testBit p := by
    intro p
    have : setLimb x j d = 2^(32*j) * (2^32 * (x / 2^(32*j+32)) + d.toNat) + x % 2^(32*j) := by unfold setLimb; ring
    rw [this, Nat.testBit_two_pow_mul_add _ (Nat.mod_lt _ (by positivity))]
    split
    · rename_i h; simp [Nat.testBit_mod_two_pow, h]
    · rw [Nat.testBit_two_pow_mul_add _ d.isLt]
      by_cases h : p < 32*j+32
      · rw [if_pos (by omega), if_pos h]
      · rw [if_neg (by omega), if_neg h, Nat.testBit_div_two_pow]
        congr 1; omega
  rw [hb, hs]
  by_cases h : k = j
  · subst h
    rw [if_neg (by omega), if_pos (by omega), if_pos rfl, BitVec.testBit_toNat]; congr 1; omega
  · rw [if_neg h, hb]
    split
    · rfl
    · rw [if_neg (by omega)]

theorem State.width_eq_limbs (s : State) (h : Config.LegalWidth s.width) : 32 * s.limbs = s.width := by
  unfold State.limbs; obtain ⟨h, _⟩ := h; omega

/-- Byte lane 0 holds the byte of the lowest index (R69). -/
theorem wordBytes_append (a0 a1 a2 a3 : Byte) : wordBytes (a3 ++ a2 ++ a1 ++ a0) = [a0,a1,a2,a3] := by
  unfold wordBytes
  have := a0.isLt; have := a1.isLt; have := a2.isLt; have := a3.isLt
  simp only [List.cons.injEq, and_true]
  refine ⟨?_, ?_, ?_, ?_⟩ <;>
  · apply BitVec.eq_of_toNat_eq
    simp only [BitVec.extractLsb'_toNat, BitVec.toNat_append, Nat.shiftRight_eq_div_pow]
    rw [← Nat.shiftLeft_add_eq_or_of_lt (by omega), ← Nat.shiftLeft_add_eq_or_of_lt (by omega),
        ← Nat.shiftLeft_add_eq_or_of_lt (by omega)]
    simp only [Nat.shiftLeft_eq]
    omega

end Sys2Proof.Machine
end

