-- ==== Sys2Proof/Laws/Invariant.lean ====
section
/-!
SUPPORT. Laws/Invariant.lean: the invariant of Safety.lean under the updates the meanings are made of: the ends of a
command, the result forms and the model's own fields.
-/

namespace Sys2Proof.Machine

theorem State.Inv.fail (s : State) (e : CmdError) (h : s.Inv) : (s.fail e).Inv := by
  obtain ⟨h1,h2,h3,h4,h5,h6,h7,h8,h9,h10,h11,h12⟩ := h
  exact ⟨h1, fun r => by have := h2 r; cases r <;> exact this,
      h3, h4, by simp, by simp, by cases e <;> simp [CmdError.code], by cases e <;> simp [CmdError.code], h9, h10, h11, by simp⟩

theorem State.Inv.complete (s : State) (h : s.Inv) (he : s.err = false) : (s.complete).Inv := by
  obtain ⟨h1,h2,h3,h4,h5,h6,h7,h8,h9,h10,h11,h12⟩ := h
  exact ⟨h1, fun r => by have := h2 r; cases r <;> exact this, h3, h4, by simp, by simp [he], h7, h8, h9, h10, h11, by simp⟩

theorem State.Inv.counted (s : State) (att : Word) (ans : List Nat) (h : s.Inv) :
    State.Inv { s with attcnt := att, answers := ans } := by
  obtain ⟨h1,h2,h3,h4,h5,h6,h7,h8,h9,h10,h11,h12⟩ := h
  exact ⟨h1, fun r => by have := h2 r; cases r <;> exact this, h3, h4, h5, h6, h7, h8, h9, h10, h11, h12⟩

theorem State.Inv.sres0 (s : State) (v : Int) (h : s.Inv) (hv : v.natAbs < 2 ^ s.width) : (s.sres0 v).Inv := by
  obtain ⟨h1,h2,h3,h4,h5,h6,h7,h8,h9,h10,h11,h12⟩ := h
  exact ⟨h1, fun r => by have := h2 r; cases r <;> first | exact this | exact hv,
      h3, h4, h5, h6, h7, h8, by simp; omega, h10, h11, h12⟩

theorem State.Inv.sres1 (s : State) (v : Int) (h : s.Inv) (hv : v.natAbs < 2 ^ s.width) : (s.sres1 v).Inv := by
  obtain ⟨h1,h2,h3,h4,h5,h6,h7,h8,h9,h10,h11,h12⟩ := h
  exact ⟨h1, fun r => by have := h2 r; cases r <;> first | exact this | exact hv,
      h3, h4, h5, h6, h7, h8, h9, by simp; omega, h11, h12⟩

theorem State.Inv.sres2 (s : State) (v : Int) (h : s.Inv) (hv : v.natAbs < 2 ^ s.width) : (s.sres2 v).Inv := by
  obtain ⟨h1,h2,h3,h4,h5,h6,h7,h8,h9,h10,h11,h12⟩ := h
  exact ⟨h1, fun r => by have := h2 r; cases r <;> first | exact this | exact hv,
      h3, h4, h5, h6, h7, h8, h9, h10, by simp; omega, h12⟩

theorem State.Inv.ures0 (s : State) (v : Nat) (h : s.Inv) (hv : v < 2 ^ s.width) : (s.ures0 v).Inv := by
  obtain ⟨h1,h2,h3,h4,h5,h6,h7,h8,h9,h10,h11,h12⟩ := h
  exact ⟨h1, fun r => by have := h2 r; cases r <;> first | exact this | exact hv,
      h3, h4, h5, h6, h7, h8, by simp, h10, h11, h12⟩

theorem State.Inv.inputs (s : State) (ins) (h : s.Inv) : State.Inv { s with inputs := ins } := by
  obtain ⟨h1,h2,h3,h4,h5,h6,h7,h8,h9,h10,h11,h12⟩ := h
  exact ⟨h1, fun r => by have := h2 r; cases r <;> exact this, h3, h4, h5, h6, h7, h8, h9, h10, h11, h12⟩

theorem State.Inv.epoch (s : State) (n) (h : s.Inv) : State.Inv { s with epoch := n } := by
  obtain ⟨h1,h2,h3,h4,h5,h6,h7,h8,h9,h10,h11,h12⟩ := h
  exact ⟨h1, fun r => by have := h2 r; cases r <;> exact this, h3, h4, h5, h6, h7, h8, h9, h10, h11, h12⟩

theorem State.Inv.port (s : State) (p) (h : s.Inv) : State.Inv { s with port := p } := by
  obtain ⟨h1,h2,h3,h4,h5,h6,h7,h8,h9,h10,h11,h12⟩ := h
  exact ⟨h1, fun r => by have := h2 r; cases r <;> exact this, h3, h4, h5, h6, h7, h8, h9, h10, h11, h12⟩

end Sys2Proof.Machine
end

