-- ==== Sys2Proof/Laws/PerInstr.lean ====
section
/-!
SUPPORT. Laws/PerInstr.lean: the family OpcodeRow, a fact of every command as syntax: its encoding selects the row
of the opcode map it stands in, and the row gives the command back (30_encoding.md R90 to R92).
-/

namespace Sys2Proof.Laws.OpcodeRow

/-- The encoding of a well-formed command selects a row of the opcode map, and the row, with the word's ARG,
stands for that command. -/
def Statement (i : Instr) : Prop :=
  i.wellFormed = true →
    ∃ row ∈ opcodeTable, encode i &&& row.mask = row.pattern ∧ row.command (argOf (encode i)) = i

/-- OPCODE is the low byte of a format C word (R90). -/
theorem formatC_and (opcode arg : Nat) (h : opcode < 256) :
    formatC opcode arg &&& 0x000000FF = BitVec.ofNat 32 opcode := by
  apply BitVec.eq_of_toNat_eq
  rw [BitVec.toNat_and, show (0x000000FF : Word).toNat = 2 ^ 8 - 1 from rfl, Nat.and_two_pow_sub_one_eq_mod]
  simp only [formatC, BitVec.toNat_ofNat]
  omega

/-- ARG is the rest of the word (R91). -/
theorem argOf_formatC (opcode arg : Nat) (h : opcode < 256) (harg : arg < argBound) :
    argOf (formatC opcode arg) = arg := by
  unfold argBound at harg
  simp only [argOf, formatC, BitVec.toNat_ofNat]
  omega

theorem modexp : Statement .modexp :=
  fun _ => ⟨⟨"MODEXP", 0xFFFFFFFF, 0x00000001, fun _ => .modexp⟩, by simp [opcodeTable], by decide, rfl⟩

theorem egcd : Statement .egcd :=
  fun _ => ⟨⟨"EGCD", 0xFFFFFFFF, 0x00000002, fun _ => .egcd⟩, by simp [opcodeTable], by decide, rfl⟩

theorem modinv : Statement .modinv :=
  fun _ => ⟨⟨"MODINV", 0xFFFFFFFF, 0x00000003, fun _ => .modinv⟩, by simp [opcodeTable], by decide, rfl⟩

theorem isprime (rounds : Nat) : Statement (.isprime rounds) := fun h =>
  ⟨⟨"ISPRIME", 0x000000FF, 0x00000004, .isprime⟩, by simp [opcodeTable], formatC_and 4 rounds (by omega),
    congrArg Instr.isprime (argOf_formatC 4 rounds (by omega) (by simpa [Instr.wellFormed] using h))⟩

theorem genprime (bitLength : Nat) : Statement (.genprime bitLength) := fun h =>
  ⟨⟨"GENPRIME", 0x000000FF, 0x00000005, .genprime⟩, by simp [opcodeTable], formatC_and 5 bitLength (by omega),
    congrArg Instr.genprime (argOf_formatC 5 bitLength (by omega) (by simpa [Instr.wellFormed] using h))⟩

theorem genkeys (bits : Nat) : Statement (.genkeys bits) := fun h =>
  ⟨⟨"GENKEYS", 0x000000FF, 0x00000006, .genkeys⟩, by simp [opcodeTable], formatC_and 6 bits (by omega),
    congrArg Instr.genkeys (argOf_formatC 6 bits (by omega) (by simpa [Instr.wellFormed] using h))⟩

theorem encrypt : Statement .encrypt :=
  fun _ => ⟨⟨"ENCRYPT", 0xFFFFFFFF, 0x00000007, fun _ => .encrypt⟩, by simp [opcodeTable], by decide, rfl⟩

theorem decrypt : Statement .decrypt :=
  fun _ => ⟨⟨"DECRYPT", 0xFFFFFFFF, 0x00000008, fun _ => .decrypt⟩, by simp [opcodeTable], by decide, rfl⟩

end Sys2Proof.Laws.OpcodeRow
end

