-- ==== Sys2Proof/Laws/Primality.lean ====
section
/-!
SUPPORT. Laws/Primality.lean: the loops of the Miller-Rabin tester: the halving loop, the squarings, and a tester
whose witnesses pass, or fail, one after the other.
-/

namespace Sys2Proof.Machine

/-- The halving loop takes out the powers of two (R162). -/
theorem halveLoop_spec : ∀ fuel d r, 0 < d → d < 2 ^ fuel →
   (halveLoop fuel d r).1 % 2 = 1 ∧ r ≤ (halveLoop fuel d r).2 ∧ (halveLoop fuel d r).2 ≤ r + fuel ∧
   (halveLoop fuel d r).1 * 2 ^ ((halveLoop fuel d r).2 - r) = d := by
  intro fuel
  induction fuel with
  | zero => intro d r h1 h2; simp at h2; omega
  | succ f ih =>
    intro d r h1 h2
    unfold halveLoop
    split
    · rename_i he
      obtain ⟨i1, i2, i3, i4⟩ := ih (d/2) (r+1) (by omega) (by rw [pow_succ] at h2; omega)
      refine ⟨i1, by omega, by omega, ?_⟩
      have : (halveLoop f (d / 2) (r + 1)).2 - r = ((halveLoop f (d / 2) (r + 1)).2 - (r+1)) + 1 := by omega
      rw [this, pow_succ, ← mul_assoc, i4]; omega
    · simp; omega

/-- The squarings go through y^2, y^4, ... (R163). -/
theorem squaringsHit_spec (n : Nat) :
    ∀ k x y, x = y % n → (squaringsHit n k x = true ↔ ∃ j, 1 ≤ j ∧ j ≤ k ∧ y ^ (2^j) % n = n - 1) := by
  intro k
  induction k with
  | zero => intro x y _; simp [squaringsHit]
  | succ k ih =>
    intro x y hx
    have hxx : x * x % n = y ^ 2 % n := by rw [hx, ← Nat.mul_mod, pow_two]
    unfold squaringsHit
    split
    · rename_i h
      refine ⟨fun _ => ⟨1, le_rfl, by omega, by rw [pow_one, ← hxx]; exact h⟩, fun _ => rfl⟩
    · rename_i h
      rw [ih _ (y^2) hxx]
      constructor
      · rintro ⟨j, h1, h2, h3⟩
        exact ⟨j+1, by omega, by omega, by rw [pow_succ', pow_mul]; exact h3⟩
      · rintro ⟨j, h1, h2, h3⟩
        rcases Nat.lt_or_ge 1 j with hj | hj
        · refine ⟨j-1, by omega, by omega, ?_⟩
          rw [← pow_mul, ← pow_succ', Nat.sub_add_cancel h1]; exact h3
        · have : j = 1 := by omega
          subst this; rw [pow_one, ← hxx] at h3; exact absurd h3 h

/-- A tester whose witnesses all pass answers true, having read them and no more (R164). -/
theorem isProbablePrime_of_all_pass {n : Nat} {ws : List Nat} (rest : List Nat) (hodd : n % 2 = 1) (hn : 5 ≤ n)
    (hin : ∀ a ∈ ws, 2 ≤ a ∧ a ≤ n - 2)
    (hpass : ∀ a ∈ ws, roundPasses n (decompose n).1 (decompose n).2 a = true) :
    isProbablePrime n ws.length (ws ++ rest) = .done true rest := by
  rw [isProbablePrime_odd _ _ hodd hn]
  simpa [witnessRounds] using witnessRounds_append rest 0 hin hpass

/-- A tester stops with false at the first witness that fails (R164). -/
theorem isProbablePrime_of_fail {n k a : Nat} {ws : List Nat} (rest : List Nat) (hodd : n % 2 = 1) (hn : 5 ≤ n)
    (hin : ∀ b ∈ ws, 2 ≤ b ∧ b ≤ n - 2)
    (hpass : ∀ b ∈ ws, roundPasses n (decompose n).1 (decompose n).2 b = true) (ha : 2 ≤ a ∧ a ≤ n - 2)
    (hk : ws.length < k) (hfail : roundPasses n (decompose n).1 (decompose n).2 a = false) :
    isProbablePrime n k (ws ++ a :: rest) = .done false rest := by
  rw [isProbablePrime_odd _ _ hodd hn]
  obtain ⟨j, rfl⟩ : ∃ j, k = ws.length + (j + 1) := ⟨k - ws.length - 1, by omega⟩
  rw [witnessRounds_append _ _ hin hpass, witnessRounds, randRange_cons _ ha]
  simp [hfail]

end Sys2Proof.Machine
end

