-- ==== Sys2Proof/Laws/Sequencer.lean ====
section
/-!
SUPPORT. Laws/Sequencer.lean: everything a step, the CORE's turn, an answer and a host write can do, so that a
proof about all steps unfolds none of them.
-/

namespace Sys2Proof.Machine

/-- A step is the CORE's turn or one outside event. -/
theorem step_next {s t : State} (h : step s = .next t) :
    (s.inputs = [] ∧ coreTurn s = .next t) ∨
    (∃ rest, s.inputs = .coreTurn :: rest ∧ coreTurn { s with inputs := rest } = .next t) ∨
    ∃ e rest, s.inputs = e :: rest ∧ e ≠ .coreTurn ∧ t = State.receive { s with inputs := rest } e := by
  unfold step nextStep at h
  cases hi : s.inputs with
  | nil => exact .inl ⟨rfl, by simpa only [hi] using h⟩
  | cons e rest =>
    rw [hi] at h
    cases e with
    | coreTurn => exact .inr (.inl ⟨rest, rfl, h⟩)
    | _ => exact .inr (.inr ⟨_, rest, rfl, nofun, (Host.Outcome.next.inj h).symm⟩)

/-- The CORE's turn: nothing while IDLE, IllegalCommand for an illegal word, else the command (R30, R96). -/
theorem coreTurn_next {s t : State} (h : coreTurn s = .next t) :
    (s.seq = .idle ∧ t = s) ∨
    ∃ word req, s.seq = .busy word req ∧
      ((∃ why, decode word = .illegal why ∧ t = s.fail .illegalCommand) ∨
        ∃ i, decode word = .command i ∧ exec i s = .next t) := by
  unfold coreTurn at h
  cases hs : s.seq with
  | idle =>
    simp only [hs, Host.Outcome.next.injEq] at h
    exact .inl ⟨rfl, h.symm⟩
  | busy word req =>
    simp only [hs] at h
    refine .inr ⟨word, req, rfl, ?_⟩
    cases hd : decode word with
    | illegal why =>
      simp only [hd, Host.Outcome.next.injEq] at h
      exact .inl ⟨why, rfl, h.symm⟩
    | command i =>
      simp only [hd] at h
      exact .inr ⟨i, rfl, h⟩

/-- An answer is taken only by the request it answers (R53, R270). -/
theorem State.deliver_cases (s : State) (epoch v : Nat) :
    (∃ word req, s.seq = .busy word (some req) ∧ epoch = s.epoch ∧
      s.deliver epoch v = { s with answers := s.answers ++ [v], seq := .busy word none }) ∨
    s.deliver epoch v = s := by
  unfold State.deliver
  cases hs : s.seq with
  | idle => exact .inr rfl
  | busy word req =>
    cases req with
    | none => exact .inr rfl
    | some req =>
      by_cases h : epoch = s.epoch
      · exact .inl ⟨word, req, rfl, h, by simp [h]⟩
      · exact .inr (by simp [h])

/-- An answer to a request made before the last reset is ignored, whatever is outstanding now (R270). -/
theorem State.deliver_late (s : State) (epoch v : Nat) (h : epoch ≠ s.epoch) : s.deliver epoch v = s := by
  rcases s.deliver_cases epoch v with ⟨_, _, _, he, _⟩ | hd
  · exact absurd he h
  · exact hd

/-- What no host write touches. -/
theorem hostWrite_frame (s : State) (addr : Nat) (d : Word) :
    (hostWrite s addr d).2.width = s.width ∧ (hostWrite s addr d).2.epoch = s.epoch ∧
    (hostWrite s addr d).2.inputs = s.inputs ∧ (hostWrite s addr d).2.answers = s.answers ∧
    (hostWrite s addr d).2.attcnt = s.attcnt ∧ (hostWrite s addr d).2.prime = s.prime := by
  unfold hostWrite
  cases s.busy with
  | true => simp
  | false =>
    simp only [Bool.false_eq_true, if_false]
    cases locate s.width addr with
    | none => simp
    | some loc =>
      simp only [Option.bind_some]
      cases hw : s.writeLocation d loc with
      | none => simp
      | some t =>
        cases loc with
        | csr c => cases c <;> simp [State.writeLocation] at hw <;> subst hw <;> exact ⟨rfl, rfl, rfl, rfl, rfl, rfl⟩
        | limb r j =>
          simp only [State.writeLocation] at hw
          split_ifs at hw
          simp only [Option.some.injEq] at hw
          subst hw
          cases r <;> exact ⟨rfl, rfl, rfl, rfl, rfl, rfl⟩
        | msgWord j =>
          simp only [State.writeLocation, Option.some.injEq] at hw
          subst hw
          exact ⟨rfl, rfl, rfl, rfl, rfl, rfl⟩

/-- The count of resets rises with a reset and stays with every other event. -/
theorem State.receive_epoch (s : State) (e : Input) :
    (s.receive e).epoch = if e = .reset then s.epoch + 1 else s.epoch := by
  cases e with
  | hostRead addr => rfl
  | hostWrite addr d => exact (hostWrite_frame s addr d).2.1
  | answer epoch v =>
    change (s.deliver epoch v).epoch = _
    rcases s.deliver_cases epoch v with ⟨_, _, _, _, hd⟩ | hd <;> rw [hd] <;> rfl
  | reset => rfl
  | coreTurn => rfl

end Sys2Proof.Machine
end

