-- ==== Sys2Proof/Tests/Slice0.lean ====
section
/-!
SUPPORT. Tests/Slice0.lean: the smoke test of WellFormed, decoding of words written out from the opcode map, one
step per command on vectors of 95_test_vectors.md, and for every statement with hypotheses a witness that meets
them. Expected values are the spec's, in the part and row each test names.
-/

namespace Sys2Proof.Tests

open Sys2Proof Sys2Proof.Machine

-- One theorem after another: each `decide +kernel` waits for the kernel, and a thread apiece is too many.
set_option Elab.async false

/-! ### Helpers -/

/-- The next state, where there is one. -/
def nextOf : Host.Outcome State Fault Refusal → Option State
  | .next s => some s
  | .fault _ => none
  | .refused _ => none

theorem next_of {o : Host.Outcome State Fault Refusal} {t : State} (h : nextOf o = some t) : o = .next t := by
  cases o with
  | next s => exact congrArg Host.Outcome.next (Option.some.inj h)
  | fault f => exact absurd h nofun
  | refused r => exact absurd h nofun

/-- An idle block of W = 64 right after reset. -/
def idle64 : State := State.resetOf 64

/-- `s` with the command just accepted. -/
def issued (i : Instr) (s : State) : State := s.accept (encode i)

/-- What a command leaves: a part of the next state. -/
def after {α : Type} (i : Instr) (s : State) (f : State → α) : Option α := (nextOf (exec i (issued i s))).map f

/-- Sixteen witnesses 2. -/
def twos : List Nat := List.replicate 16 2

/-! ### WellFormed refuses what has no encoding -/

theorem test_isprime_too_many_rounds : (Instr.isprime (2 ^ 24)).wellFormed = false := by decide
theorem test_genprime_too_long : (Instr.genprime (2 ^ 24)).wellFormed = false := by decide
theorem test_genkeys_too_long : (Instr.genkeys (2 ^ 24)).wellFormed = false := by decide
theorem test_largest_arg_is_wellFormed : (Instr.isprime (2 ^ 24 - 1)).wellFormed = true := by decide

/-! ### Words written out bit by bit: ARG (24 bits), then OPCODE (8 bits) (30_encoding.md R90, R92) -/

theorem test_decode_modexp :
    decode ((0b000000000000000000000000 : BitVec 24) ++ (0b00000001 : BitVec 8)) = .command .modexp := by decide
theorem test_decode_egcd :
    decode ((0b000000000000000000000000 : BitVec 24) ++ (0b00000010 : BitVec 8)) = .command .egcd := by decide
theorem test_decode_modinv :
    decode ((0b000000000000000000000000 : BitVec 24) ++ (0b00000011 : BitVec 8)) = .command .modinv := by decide
theorem test_decode_isprime :
    decode ((0b111111111111111111111111 : BitVec 24) ++ (0b00000100 : BitVec 8)) =
      .command (.isprime 16777215) := by decide
theorem test_decode_genprime :
    decode ((0b000000000000000001000000 : BitVec 24) ++ (0b00000101 : BitVec 8)) = .command (.genprime 64) := by
  decide
theorem test_decode_genkeys :
    decode ((0b000000000000001000000000 : BitVec 24) ++ (0b00000110 : BitVec 8)) = .command (.genkeys 512) := by
  decide
theorem test_decode_encrypt :
    decode ((0b000000000000000000000000 : BitVec 24) ++ (0b00000111 : BitVec 8)) = .command .encrypt := by decide
theorem test_decode_decrypt :
    decode ((0b000000000000000000000000 : BitVec 24) ++ (0b00001000 : BitVec 8)) = .command .decrypt := by decide
theorem test_decode_opcode_zero_with_arg :
    decode ((0b000000000000000000000001 : BitVec 24) ++ (0b00000000 : BitVec 8)) = .illegal .reservedOpcode := by
  decide
theorem test_decode_all_ones :
    decode ((0b111111111111111111111111 : BitVec 24) ++ (0b11111111 : BitVec 8)) = .illegal .reservedOpcode := by
  decide
theorem test_decode_decrypt_with_arg :
    decode ((0b000000000000000000000001 : BitVec 24) ++ (0b00001000 : BitVec 8)) = .illegal .reservedArg := by
  decide

/-! ### One step per command (95_test_vectors.md part 2) -/

/-- V-X, the row of textbook RSA; a set RES0_NEG is cleared. -/
theorem test_modexp :
    after .modexp { idle64 with opa := 65, opb := 17, opc := 3233, res0Neg := true }
      (fun t => (t.res0, t.signWord, t.statusWord)) = some (2790, 0, 2) := by decide +kernel

/-- V-X, all-ones operands at W = 64. -/
theorem test_modexp_all_ones :
    after .modexp { idle64 with opa := 2 ^ 64 - 1, opb := 2 ^ 64 - 1, opc := 2 ^ 64 - 59 } State.res0 =
      some 4959809447704153900 := by decide +kernel

/-- V-E, the row (-7, 3): both coefficients negative. -/
theorem test_egcd :
    after .egcd { idle64 with opa := 7, opaNeg := true, opb := 3 }
      (fun t => (t.res0, t.res1, t.res2, t.signWord)) = some (1, 1, 2, 0x601) := by decide +kernel

/-- V-E, the row (240, -46): a negative g. -/
theorem test_egcd_negative_g :
    after .egcd { idle64 with opa := 240, opb := 46, opbNeg := true }
      (fun t => (t.res0, t.res1, t.res2, t.signWord)) = some (2, 9, 47, 0x102) := by decide +kernel

/-- V-I, the row (3, -7): the inverse of a negative modulus. -/
theorem test_modinv :
    after .modinv { idle64 with opa := 3, opb := 7, opbNeg := true } (fun t => (t.res0, t.res0Neg)) =
      some (5, true) := by decide +kernel

/-- V-I, the row (-1, 0): BadOperand, RES0 unchanged. -/
theorem test_modinv_zero_modulus :
    after .modinv { idle64 with opa := 1, opaNeg := true, res0 := 9 } (fun t => (t.res0, t.statusWord)) =
      some (9, 0x206) := by decide +kernel

/-- V-P, 221 with the strong liar 174 and then 137. -/
theorem test_isprime :
    after (.isprime 2) { idle64 with opa := 221, answers := [174, 137, 5] }
      (fun t => (t.prime, t.answers, t.statusWord)) = some (false, [5], 2) := by decide +kernel

/-- V-P, 13 with 0 rounds: BadOperand, PRIME keeps its value. -/
theorem test_isprime_no_rounds :
    after (.isprime 0) { idle64 with opa := 13, prime := true } State.statusWord = some 0x20E := by decide +kernel

/-- V-G, row 2: the candidate 9 is rejected, 11 is accepted. -/
theorem test_genprime :
    after (.genprime 4) { idle64 with answers := [0, 2, 2] ++ twos } (fun t => (t.res0, t.attcnt, t.statusWord)) =
      some (11, 2, 2) := by decide +kernel

/-- V-G, row 4: the cap of three candidates. -/
theorem test_genprime_exhausted :
    after (.genprime 4) { idle64 with maxatt := 3, answers := [0, 2, 1, 2, 7, 4] }
      (fun t => (t.res0, t.attcnt, t.statusWord)) = some (0, 3, 0x606) := by decide +kernel

/-- V-K, the fallback exponent 3. -/
theorem test_genkeys :
    after (.genkeys 40) { idle64 with answers := [0xE000F] ++ twos ++ [0x80015] ++ twos }
      (fun t => (t.pubN, t.pubE, t.privN, t.privD, t.attcnt)) =
      some (0x70019E013B, 3, 0x70019E013B, 0x4AABB000BB, 2) := by decide +kernel

/-- V-K, no coprime exponent: the key registers keep their values. -/
theorem test_genkeys_no_exponent :
    after (.genkeys 40)
      { idle64 with pubN := 0x1111, privD := 0x2222, answers := [0xE000F] ++ twos ++ [0x8025D] ++ twos }
      (fun t => (t.pubN, t.privD, t.attcnt, t.statusWord)) = some (0x1111, 0x2222, 2, 0x406) := by decide +kernel

/-- V-C, leading zeros do not change the value. -/
theorem test_encrypt :
    after .encrypt { idle64 with pubN := 3233, pubE := 17, msg := [(2, 0x41)], msglen := 3 }
      (fun t => (t.res0, t.statusWord)) = some (2790, 2) := by decide +kernel

/-- V-C, a message of value n. -/
theorem test_encrypt_oversized :
    after .encrypt { idle64 with pubN := 3233, pubE := 17, msg := [(0, 0x0C), (1, 0xA1)], msglen := 2, res0 := 7 }
      (fun t => (t.res0, t.statusWord)) = some (7, 0x506) := by decide +kernel

/-- V-C, two bytes, the tail of the buffer cleared. -/
theorem test_decrypt :
    after .decrypt
      { idle64 with privN := 3233, privD := 2753, opa := 3232, msg := [(0, 0xFF), (1, 0xFF), (7, 0xFF)] }
      (fun t => (t.msg.readList 0 8, t.msglen)) = some ([0x0C, 0xA0, 0, 0, 0, 0, 0, 0], 2) := by decide +kernel

/-- V-C, eight bytes; the host reads them in two little-endian words. -/
theorem test_decrypt_full_buffer :
    after .decrypt { idle64 with privN := 2 ^ 64 - 59, privD := 1, opa := 0x0102030405060708 }
      (fun t => (hostRead t 0x4000, hostRead t 0x4004, t.msglen)) =
      some ((.okay, 0x04030201), (.okay, 0x08070605), 8) := by decide +kernel

/-! ### The host port (95_test_vectors.md V-H) and the step -/

theorem test_limb_write :
    (idle64.receiveAll [.hostWrite 0x1000 0xDEADBEEF, .hostWrite 0x1004 0x01234567]).opa =
      0x01234567DEADBEEF := by decide +kernel

theorem test_message_word_write :
    ((idle64.receive (.hostWrite 0x4000 0x00563412)).msg.readList 0 4) = [0x12, 0x34, 0x56, 0x00] := by
  decide +kernel

theorem test_sign_write :
    hostRead (idle64.receive (.hostWrite 0x10 0xFFFFFFFF)) 0x10 = (.okay, 3) := by decide +kernel

theorem test_unmapped_offsets :
    ([0x0002, 0x1001, 0x0020, 0x0FFC, 0x1008, 0x13FC, 0x3800, 0x4008, 0x4400].map (hostRead idle64)) =
      List.replicate 9 (.error, 0) := by decide +kernel

theorem test_read_only :
    ([0x0000, 0x0004, 0x0008, 0x001C, 0x1C00, 0x2000, 0x2400].map (fun a => hostWrite idle64 a 5)) =
      List.replicate 7 (.error, idle64) := by decide +kernel

theorem test_busy_reads :
    ([0x0, 0x4, 0x8, 0xC, 0x10, 0x1000, 0x4000].map (hostRead (issued .egcd { idle64 with prime := true }))) =
      [(.okay, 0x424D5201), (.okay, 0x40), (.okay, 9), (.error, 0), (.error, 0), (.error, 0), (.error, 0)] := by
  decide +kernel

/-- V-D: the word 0x80000002 is illegal; it is accepted and completes with IllegalCommand. -/
theorem test_illegal_word :
    (nextOf (step (idle64.withFetchWord 32 0x80000002))).map State.statusWord = some 0x106 := by decide +kernel

/-- V-D: the word 0x00000205 with no answer yet: the block waits for RandBits(2). -/
theorem test_waiting_word :
    (nextOf (step (State.reset.withFetchWord 32 0x00000205))).map State.seq =
      some (.busy 0x205 (some (.randBits 2))) := by decide +kernel

/-- V-D: the same word, the answer given after the request. -/
theorem test_answer_resumes :
    (nextOf (step { (issued (.genprime 2) idle64).waitFor (.genprime 2) (.randBits 2) with
      inputs := [.answer 0 1] })).map (fun t => (t.seq, t.answers)) = some (.busy 0x205 none, [1]) := by decide +kernel

/-- V-G, row 7, and V-R: reset during a search that hangs. -/
theorem test_reset_while_busy :
    (nextOf (step { (issued (.genprime 4) { idle64 with res0 := 5 }) with answers := [9], inputs := [.reset] })) =
      some { idle64 with epoch := 1 } := by decide +kernel

/-- R270: an answer to a request made before a reset is ignored, also with a new request open. -/
theorem test_late_answer_ignored :
    (nextOf (step { (issued (.genprime 2) idle64).waitFor (.genprime 2) (.randBits 2) with
      epoch := 1, inputs := [.answer 0 1] })).map (fun t => (t.seq, t.answers)) =
      some (.busy 0x205 (some (.randBits 2)), []) := by decide +kernel

theorem test_decode_table_word : decodeTableWord 32 0x1004 = some (.isprime 16) := by decide
theorem test_decode_table_word_illegal : decodeTableWord 32 0x101 = none := by decide

/-! ### Witnesses: states and operands that meet the hypotheses of the statements -/

/-- A state with something in every register, idle. -/
def sample : State :=
  { idle64 with
    opa := 2790, opb := 2 ^ 64 - 1, opc := 3233, res0 := 5, res1 := 6, res2 := 7, pubN := 3233, pubE := 17,
    privN := 3233, privD := 2753, msg := [(0, 0x41), (7, 0xFF)], msglen := 1, opaNeg := true, opbNeg := true,
    res0Neg := true, res1Neg := true, res2Neg := true, maxatt := 3, attcnt := 2, prime := true }

/-- The same with a command issued. -/
def sampleBusy : State := issued .decrypt sample

theorem sample_inv : sample.Inv where
  width := by decide
  regs r := by cases r <;> decide
  msgForm := by decide
  msgIndex := by decide
  busyClear := by decide
  errDone := by decide
  errForm := by decide
  errRange := by decide
  zeroSign0 := by decide
  zeroSign1 := by decide
  zeroSign2 := by decide
  request _ _ h := by simp [sample, idle64, State.resetOf] at h

theorem sampleBusy_inv : sampleBusy.Inv where
  width := by decide
  regs r := by cases r <;> decide
  msgForm := by decide
  msgIndex := by decide
  busyClear := by decide
  errDone := by decide
  errForm := by decide
  errRange := by decide
  zeroSign0 := by decide
  zeroSign1 := by decide
  zeroSign2 := by decide
  request _ _ h := by simp [sampleBusy, issued, State.accept] at h

/-- A waiting command, its request legal. -/
def sampleWaiting : State := (issued (.genprime 64) sample).waitFor (.genprime 64) (.randBits 64)

theorem sampleWaiting_inv : sampleWaiting.Inv where
  width := by decide
  regs r := by cases r <;> decide
  msgForm := by decide
  msgIndex := by decide
  busyClear := by decide
  errDone := by decide
  errForm := by decide
  errRange := by decide
  zeroSign0 := by decide
  zeroSign1 := by decide
  zeroSign2 := by decide
  request w req h := by
    simp only [sampleWaiting, State.waitFor, Seq.busy.injEq, Option.some.injEq] at h
    obtain ⟨rfl, rfl⟩ := h
    exact ⟨(by decide : 1 ≤ 64 ∧ 64 ≤ 64), .genprime 64, by decide⟩

theorem witness_DecodeAndEncodeAgree :
    (Instr.isprime (2 ^ 24 - 1)).wellFormed = true ∧ (Instr.genkeys 0).wellFormed = true ∧
    decode 0xFFFFFF05 = .command (.genprime (2 ^ 24 - 1)) ∧ decode 8 = .command .decrypt := by decide

theorem witness_DecodeFollowsOpcodeMap :
    ((1 : Word) &&& 0xFFFFFFFF = 0x00000001) ∧ ((0xFFFFFF06 : Word) &&& 0x000000FF = 0x00000006) ∧
    (∀ row ∈ opcodeTable, (0x00000101 : Word) &&& row.mask ≠ row.pattern) ∧
    (∀ row ∈ opcodeTable, (0x00000009 : Word) &&& row.mask ≠ row.pattern) ∧
    (∀ row ∈ opcodeTable, (0xFFFFFF00 : Word) &&& row.mask ≠ row.pattern) := by decide

theorem witness_IllegalWordsEndInIllegalCommand :
    (∃ s : State, s.seq = .idle ∧ s.inputs = .hostWrite 0x0C 0x100 :: .coreTurn :: []) ∧
    opcodeOf 0x100 = 0x00 ∧ 0x09 ≤ opcodeOf 9 ∧ 0x09 ≤ opcodeOf 0xFF ∧
    (opcodeOf 0x108 ∈ [0x01, 0x02, 0x03, 0x07, 0x08] ∧ argOf 0x108 ≠ 0) ∧
    (opcodeOf 0xFFFFFF01 ∈ [0x01, 0x02, 0x03, 0x07, 0x08] ∧ argOf 0xFFFFFF01 ≠ 0) :=
  ⟨⟨{ sample with inputs := [.hostWrite 0x0C 0x100, .coreTurn] }, rfl, rfl⟩, by decide⟩

theorem witness_CommandAcceptance : sample.seq = .idle ∧ sampleBusy.busy = true := by decide

theorem witness_StepRunsHeldCommand :
    (sampleBusy.seq = .busy 8 none ∧ decode 8 = .command .decrypt ∧ sampleBusy.inputs = []) ∧
    ∃ s : State, s.seq = .busy 0x4005 (some (.randBits 64)) ∧ decode 0x4005 = .command (.genprime 64) ∧
      s.inputs = .coreTurn :: [.reset] :=
  ⟨by decide, { sampleWaiting with inputs := [.coreTurn, .reset] }, by decide⟩

theorem witness_FetchWordRunsAcceptedCommand :
    decodeTableWord 32 0xFFFFFF04 = some (.isprime (2 ^ 24 - 1)) ∧ decodeTableWord 8 0x107 = some .encrypt ∧
    sample.seq = .idle := by decide

theorem witness_InputsAreTakenInOrder :
    (sample.seq = .idle ∧ sample.inputs = []) ∧
    (∃ s : State, s.seq = .idle ∧ s.inputs = .coreTurn :: [.hostRead 0x08]) ∧
    ∃ s : State, s.inputs = .answer 0 3 :: [.coreTurn] ∧ Input.answer 0 3 ≠ .coreTurn :=
  ⟨⟨rfl, rfl⟩, ⟨{ sample with inputs := [.coreTurn, .hostRead 0x08] }, rfl, rfl⟩,
    { sampleWaiting with inputs := [.answer 0 3, .coreTurn] }, rfl, by decide⟩

theorem witness_BusErrorChangesNothing :
    (hostWrite sample 0x1002 5).1 = .error ∧ (hostWrite sampleBusy 0x0C 5).1 = .error ∧
    (hostRead sample 0x43FC).1 = .error ∧ (hostRead sampleBusy 0x1000).1 = .error := by decide +kernel

theorem witness_BusyWindow :
    sampleBusy.Inv ∧ sampleBusy.busy = true ∧ (0x0C : Nat) ≠ 0x00 ∧ (0x0C : Nat) ≠ 0x04 ∧ (0x0C : Nat) ≠ 0x08 :=
  ⟨sampleBusy_inv, by decide⟩

theorem witness_AddressMap :
    Config.LegalWidth 32 ∧ Config.LegalWidth 8192 ∧
    locate 8192 0x37FC = some (.limb .privD 255) ∧ locate 8192 0x43FC = some (.msgWord 255) ∧
    locate 32 0x1000 = some (.limb .opa 0) ∧ locate 32 0x1C = some (.csr .attcnt) ∧
    (0x1001 % 4 ≠ 0) ∧ 0x4400 ≤ 0x4400 ∧
    Config.LegalWidth idle64.width ∧
      ∀ loc : Location, loc.present 64 = true → loc.offset ≠ 0x20 := by
  refine ⟨by decide, by decide, by decide, by decide, by decide, by decide, by decide, le_rfl, by decide, ?_⟩
  intro loc _ h
  cases loc with
  | csr c => cases c <;> simp [Location.offset, Csr.offset] at h
  | limb r j =>
    simp only [Location.offset, BigReg.base] at h
    omega
  | msgWord j =>
    simp only [Location.offset] at h
    omega

theorem witness_LimbAccess :
    sample.Inv ∧ sample.seq = .idle ∧ 0 < sample.limbs ∧ 1 < sample.limbs ∧ BigReg.privD.hostWritable = true ∧
    (0 : Nat) ≠ 1 :=
  ⟨sample_inv, by decide⟩

theorem witness_ReadOnlyLocations :
    sample.Inv ∧ sample.seq = .idle ∧ Csr.attcnt ∈ [Csr.id, Csr.cfg, Csr.status, Csr.attcnt] ∧
    BigReg.res2 ∈ [BigReg.res0, BigReg.res1, BigReg.res2] ∧ 1 < sample.limbs :=
  ⟨sample_inv, by decide⟩

theorem witness_MessageWindow :
    sample.Inv ∧ sample.seq = .idle ∧ 1 < sample.limbs ∧ (3 < 4) ∧ (3 < 4 * 1 ∨ 4 * 1 + 4 ≤ 3) ∧
    (8 < 4 * 1 ∨ 4 * 1 + 4 ≤ 8) :=
  ⟨sample_inv, by decide⟩

theorem witness_StatusRegister : sample.Inv ∧ sampleBusy.Inv ∧ sampleWaiting.Inv :=
  ⟨sample_inv, sampleBusy_inv, sampleWaiting_inv⟩

theorem witness_SignRegister : sample.seq = .idle := by decide

theorem witness_LengthAndCapRegisters : sample.seq = .idle := by decide

theorem witness_IdentificationIsConstant :
    Config.LegalWidth sampleBusy.width ∧ ∃ t, step sampleBusy = .next t :=
  ⟨by decide, _, next_of (t := { sample with
    msg := [(0, 0x41)], msglen := 1, seq := .idle, done := true }) (by decide +kernel)⟩

theorem witness_ScriptLinesWriteWhatTheySay :
    Config.LegalWidth sample.width ∧ sample.seq = .idle ∧ BigReg.opa.hostWritable = true ∧
    (2 ^ 64 - 1 < 2 ^ sample.width) ∧ sample.reg .opa < 2 ^ sample.width ∧ sample.msg.wf = true ∧
    [(1 : Byte), 0, 3, 4, 5, 6, 7, 0].length ≤ sample.msgBytes ∧ ([] : List Byte).length ≤ sample.msgBytes ∧
    ([(7 : Byte)].length ≤ 3 ∧ 3 < 4 * (([(7 : Byte)].length + 3) / 4)) ∧ 4 * (([(7 : Byte)].length + 3) / 4) ≤ 4 := by
  decide

theorem witness_ResetFromEveryState :
    (∃ s : State, Config.LegalWidth s.width ∧ s.inputs = .reset :: [.hostRead 8] ∧ s.busy = true) ∧
    (∃ s t : State, step s = .next t ∧ s.seq = .busy 8 none ∧ t.epoch = s.epoch) ∧
    ∃ s : State, s.inputs = .answer 0 3 :: [.coreTurn] ∧ 0 < s.epoch ∧ s.busy = true :=
  ⟨⟨{ sampleWaiting with answers := [5], inputs := [.reset, .hostRead 8] }, by decide⟩,
    ⟨sampleBusy, { sample with msg := [(0, 0x41)], done := true }, next_of (by decide +kernel), rfl, rfl⟩,
    { sampleWaiting with epoch := 1, inputs := [.answer 0 3, .coreTurn] }, by decide⟩

theorem witness_CommandsInResetState :
    Config.LegalWidth 32 ∧ Config.LegalWidth 8192 ∧ (1 ≤ 1) ∧ (2 ≤ 2 ∧ 2 ≤ 32) ∧ (2 ≤ 8192 ∧ 8192 ≤ 8192) ∧
    (8 % 2 = 0 ∧ 8 ≤ 8 ∧ 8 ≤ 32) := by decide

theorem witness_ModexpIsPowerModulo : (1 : Nat) ≤ 1 := le_rfl

theorem witness_ModexpCommand :
    { sample with opc := 0 }.opc = 0 ∧ sample.opc ≠ 0 ∧ opcodeOf 0x101 = 0x01 ∧ argOf 0x101 ≠ 0 := by decide

theorem witness_EgcdBezoutAndSign : (0 : Int) < 1 ∧ (-1 : Int) < 0 ∧ (-1 : Int) ≠ 0 := by decide

theorem witness_EgcdResultsFit :
    1 ≤ 1 ∧ (-1 : Int).natAbs < 2 ^ 1 ∧ (1 : Int).natAbs < 2 ^ 1 ∧ (-(2 ^ 64 - 1) : Int).natAbs < 2 ^ 64 := by
  decide

theorem witness_EgcdCommand :
    ∃ (s : State) (a b : Int), a = (if s.opaNeg then -(s.opa : Int) else s.opa) ∧
      b = (if s.opbNeg then -(s.opb : Int) else s.opb) ∧ a = -2790 ∧ b = -(2 ^ 64 - 1) :=
  ⟨sample, -2790, -(2 ^ 64 - 1), by decide⟩

theorem witness_ModInverseBySign :
    ((2 : Int) ≤ 2 ∧ Int.gcd 1 2 = 1) ∧ ((2 : Int) ≤ 8 ∧ Int.gcd 4 8 ≠ 1) ∧
    ((-2 : Int) ≤ -2 ∧ Int.gcd 1 (-2) = 1) ∧ ((-46 : Int) ≤ -2 ∧ Int.gcd 240 (-46) ≠ 1) ∧
    ((0 : Int) ≤ 1 ∧ (1 : Int) < 2 ∧ 1 * 1 ≡ 1 [ZMOD 2]) ∧
    ((1 : Int) = 1 ∨ (1 : Int) = -1) ∧ ((5 : Int) ≠ 1 ∧ (5 : Int) ≠ -1) := by decide

theorem witness_ModinvCommand :
    (Nat.gcd 2 1 = 1 ∧ 1 ≠ 0) ∧ Nat.gcd 4 8 ≠ 1 ∧
    ∃ (s : State) (a m : Int), a = (if s.opaNeg then -(s.opa : Int) else s.opa) ∧
      m = (if s.opbNeg then -(s.opb : Int) else s.opb) ∧ s.opb = 0 ∧ s.opa = 1 ∧ a = -1 ∧ m = 0 :=
  ⟨by decide, by decide, { sample with opa := 1, opb := 0 }, -1, 0, by decide⟩

theorem witness_MillerRabinDecomposition : 5 % 2 = 1 ∧ 5 ≤ 5 := by decide

theorem witness_RoundPassesExactly : 2 ≤ 2 ∧ 1 ≤ 1 := by decide

theorem witness_IsprimeEarlyReturns :
    1 < 2 ∧ (3 = 2 ∨ 3 = 3) ∧ (2 < 4 ∧ 4 % 2 = 0) ∧ (¬ 5 < 2 ∧ ¬ (5 = 2 ∨ 5 = 3) ∧ 5 % 2 ≠ 0) := by decide

theorem witness_IsprimeOutcomes_early :
    1 ≤ 1 ∧ { sample with opa := 1 }.opa < 2 ∧ (4 ≤ { sample with opa := 4 }.opa ∧ { sample with opa := 4 }.opa % 2 = 0) ∧
    ({ sample with opa := 2 }.opa = 2 ∨ { sample with opa := 2 }.opa = 3) ∧
    ({ sample with opa := 3 }.opa = 2 ∨ { sample with opa := 3 }.opa = 3) := by decide

/-- 221: the liar 174 passes, 137 does not; 5 is prime (95_test_vectors.md V-P). -/
theorem witness_IsprimeOutcomes :
    (∃ (s : State) (ws rest : List Nat), s.opa = 221 ∧ s.opa % 2 = 1 ∧ 5 ≤ s.opa ∧
      (∀ a ∈ ws, 2 ≤ a ∧ a ≤ s.opa - 2) ∧ s.answers = ws ++ rest ∧ ws.length ≤ 2 ∧ ws = [174] ++ [137] ∧
      (∀ a ∈ [174], roundPasses s.opa (decompose s.opa).1 (decompose s.opa).2 a = true) ∧
      roundPasses s.opa (decompose s.opa).1 (decompose s.opa).2 137 = false) ∧
    (∃ (s : State) (ws rest : List Nat), s.opa = 221 ∧ s.opa % 2 = 1 ∧ 5 ≤ s.opa ∧
      (∀ a ∈ ws, 2 ≤ a ∧ a ≤ s.opa - 2) ∧ s.answers = ws ++ rest ∧ ws.length = 1 ∧
      ∀ a ∈ ws, roundPasses s.opa (decompose s.opa).1 (decompose s.opa).2 a = true) ∧
    (∃ (s : State) (ws rest : List Nat), Nat.Prime s.opa ∧ 5 ≤ s.opa ∧
      (∀ a ∈ ws, 2 ≤ a ∧ a ≤ s.opa - 2) ∧ s.answers = ws ++ rest ∧ ws.length = 2) :=
  ⟨⟨{ sample with opa := 221, answers := [174, 137, 1] }, [174, 137], [1], by decide +kernel⟩,
    ⟨{ sample with opa := 221, answers := [174] }, [174], [], by decide +kernel⟩,
    ⟨{ sample with opa := 5, answers := [2, 3] }, [2, 3], [], by decide⟩⟩

theorem witness_FalseAnswerMeansComposite :
    ∃ s t : State, s.err = false ∧ Succeeds (.isprime 1) s t ∧ t.prime = false :=
  ⟨{ sample with opa := 9, answers := [7] },
    { sample with opa := 9, answers := [], prime := false, done := true },
    rfl, ⟨next_of (by decide +kernel), rfl, rfl⟩, rfl⟩

theorem witness_CandidateForm :
    (2 ≤ 2 ∧ 3 < 2 ^ 2) ∧ (2 ≤ 4 ∧ 0 < 2 ^ 4 ∧ 1 ≤ 1 ∧ 1 < 4 - 1) ∧
    (9 < 2 ^ 4 ∧ ∀ j, 1 ≤ j → j < 4 - 1 → Nat.testBit 9 j = Nat.testBit 0 j) := by
  refine ⟨by decide, by decide, by decide, ?_⟩
  intro j h1 h2
  interval_cases j <;> rfl

theorem witness_GenprimeResult :
    ∃ s t : State, s.err = false ∧ Succeeds (.genprime 2) s t ∧ s.maxatt ≠ 0 :=
  ⟨{ sample with answers := [0] },
    { sample with answers := [], res0 := 3, res0Neg := false, attcnt := 1, done := true },
    rfl, ⟨next_of (by decide +kernel), rfl, rfl⟩, by decide⟩

/-- k = 2 gives the candidate 3 without a witness, k = 4 the candidate 11 with sixteen. -/
theorem witness_GenprimeAcceptsPrimeCandidate :
    (∃ (s : State) (ws rest : List Nat), 2 ≤ s.width ∧ (0 : Nat) ||| 2 ^ (2 - 1) ||| 1 = 3 ∧ Nat.Prime 3 ∧
      ws.length = (if 3 = 3 then 0 else 16) ∧ s.answers = 0 :: ws ++ rest) ∧
    ∃ (s : State) (ws rest : List Nat), 4 ≤ s.width ∧ 2 < 2 ^ 4 ∧ (2 : Nat) ||| 2 ^ (4 - 1) ||| 1 = 11 ∧
      Nat.Prime 11 ∧ ws.length = (if 11 = 3 then 0 else 16) ∧ (∀ a ∈ ws, 2 ≤ a ∧ a ≤ 11 - 2) ∧
      s.answers = 2 :: ws ++ rest :=
  ⟨⟨{ sample with answers := [0, 7] }, [], [7], by decide⟩,
    { sample with answers := 2 :: twos ++ [7] }, twos, [7], by decide +kernel⟩

/-- The candidate 9: 8 passes (8 = n - 1), 2 does not (95_test_vectors.md V-P). -/
theorem witness_RejectedCandidateIsCounted :
    3 ≤ 4 ∧ 1 < 2 ^ 4 ∧ ((0 : Word) = 0 ∨ (0 : Word).toNat < (0 : Word).toNat) ∧
    ((3 : Word) = 0 ∨ (2 : Word).toNat < (3 : Word).toNat) ∧ (9 : Nat) = 1 ||| 2 ^ (4 - 1) ||| 1 ∧
    ([] : List Nat).length < 16 ∧ 2 ≤ 2 ∧ 2 ≤ 9 - 2 ∧
    roundPasses 9 (decompose 9).1 (decompose 9).2 2 = false ∧
    ([174] : List Nat).length < 16 ∧ (221 : Nat) = 220 ||| 2 ^ (8 - 1) ||| 1 ∧ 220 < 2 ^ 8 ∧
    (∀ b ∈ [174], 2 ≤ b ∧ b ≤ 221 - 2 ∧ roundPasses 221 (decompose 221).1 (decompose 221).2 b = true) ∧
    roundPasses 221 (decompose 221).1 (decompose 221).2 137 = false := by decide +kernel

theorem witness_AttemptCap :
    (∃ s t : State, s.err = false ∧ FailsWith (.genprime 4) s .generationExhausted t) ∧
    (∃ s t : State, s.err = false ∧ FailsWith (.genkeys 8) s .generationExhausted t) ∧ (1 : Word) ≠ 0 :=
  ⟨⟨{ sample with maxatt := 1, answers := [0, 2] },
      { sample with maxatt := 1, answers := [], attcnt := 1, done := true, err := true, errcode := 6 },
      rfl, next_of (by decide +kernel), rfl, rfl, rfl⟩,
    ⟨{ sample with maxatt := 1, answers := [0, 2] },
      { sample with maxatt := 1, answers := [], attcnt := 1, done := true, err := true, errcode := 6 },
      rfl, next_of (by decide +kernel), rfl, rfl, rfl⟩, by decide⟩

/-- The answer 0 draws the 4-bit candidate 9, which the witness 2 rejects; the answer 2 draws 11, accepted. -/
theorem candidateBlock_nine : CandidateBlock 4 9 false [0, 2] := ⟨0, [2], rfl, by decide +kernel⟩
theorem candidateBlock_eleven : CandidateBlock 4 11 true (2 :: twos) := ⟨2, twos, rfl, by decide +kernel⟩

/-- Both searches with the cap reached: GENPRIME after two rejected candidates, GENKEYS after 9, 11 and 11 again. -/
theorem witness_AttemptCap_exhausted :
    (∃ (s t : State) (draws : List Candidate), 2 ≤ 4 ∧ 4 ≤ s.width ∧ s.maxatt ≠ 0 ∧
      t = { s with attcnt := s.maxatt, answers := t.answers, seq := .idle, done := true, err := true,
                   errcode := 6 } ∧
      DrawnBetween 4 draws s t ∧ draws.length = s.maxatt.toNat ∧ acceptedValues draws = []) ∧
    ∃ (s t : State) (draws : List Candidate) (n : Nat), 8 % 2 = 0 ∧ 8 ≤ s.width ∧ s.maxatt ≠ 0 ∧
      t = { s with attcnt := s.maxatt, answers := t.answers, seq := .idle, done := true, err := true,
                   errcode := 6 } ∧
      DrawnBetween (8 / 2) draws s t ∧ draws.length = s.maxatt.toNat ∧
      acceptedValues draws = List.replicate n 11 := by
  refine ⟨⟨{ sample with maxatt := 2, answers := [0, 2, 0, 2, 7] },
    { sample with maxatt := 2, answers := [7], attcnt := 2, done := true, err := true, errcode := 6 },
    [⟨9, false, [0, 2]⟩, ⟨9, false, [0, 2]⟩], by decide, by decide, by decide, rfl, ⟨?_, rfl, by decide, by decide⟩,
    rfl, rfl⟩,
    { sample with maxatt := 3, answers := [0, 2] ++ (2 :: twos) ++ (2 :: twos) ++ [7] },
    { sample with maxatt := 3, answers := [7], attcnt := 3, done := true, err := true, errcode := 6 },
    [⟨9, false, [0, 2]⟩, ⟨11, true, 2 :: twos⟩, ⟨11, true, 2 :: twos⟩], 2, by decide, by decide, by decide, rfl,
    ⟨?_, by decide, by decide, by decide⟩, rfl, rfl⟩
  · simpa using candidateBlock_nine
  · simpa using ⟨candidateBlock_nine, candidateBlock_eleven⟩

/-- A block of answers that draws the 4-bit prime 11, and one that draws 13. -/
theorem drawBlock_eleven : DrawBlock 4 11 (2 :: twos) := ⟨2, twos, rfl, by decide +kernel⟩
theorem drawBlock_thirteen : DrawBlock 4 13 (4 :: twos) := ⟨4, twos, rfl, by decide +kernel⟩

theorem witness_SearchMayNeverEnd :
    (∃ s : State, s.maxatt = 0 ∧ 4 ≤ s.width ∧ s.answers = (List.replicate 3 [1, 2]).flatten) ∧
    ∃ (s : State) (blocks : List (List Nat)), s.maxatt = 0 ∧ 8 % 2 = 0 ∧ 8 ≤ s.width ∧ Nat.Prime 11 ∧
      blocks ≠ [] ∧ (∀ b ∈ blocks, DrawBlock (8 / 2) 11 b) ∧ s.answers = blocks.flatten := by
  refine ⟨⟨{ sample with maxatt := 0, answers := [1, 2, 1, 2, 1, 2] }, by decide⟩,
    { sample with maxatt := 0, answers := (2 :: twos) ++ (2 :: twos) }, [2 :: twos, 2 :: twos], rfl, rfl,
    by decide, by decide, by decide, ?_, by decide +kernel⟩
  intro b hb
  simp only [List.mem_cons, List.not_mem_nil, or_false, or_self] at hb
  exact hb ▸ drawBlock_eleven

theorem witness_GenkeysResult :
    (∃ s t : State, s.err = false ∧ Succeeds (.genkeys 8) s t) ∧
    ∃ s t : State, s.err = false ∧ FailsWith (.genkeys 40) s .noCoprimeExponent t :=
  ⟨⟨{ sample with answers := (2 :: twos) ++ (4 :: twos) },
      { sample with
        answers := [], pubN := 143, pubE := 65537, privN := 143, privD := 113, attcnt := 2, done := true },
      rfl, next_of (by decide +kernel), rfl, rfl⟩,
    { sample with answers := [0xE000F] ++ twos ++ [0x8025D] ++ twos },
    { sample with answers := [], attcnt := 2, done := true, err := true, errcode := 4 },
    rfl, next_of (by decide +kernel), rfl, rfl, rfl⟩

/-- The distinctness loop once: 11, then 11 again, then 13; three candidates at a cap of three. -/
theorem witness_GenkeysFromTwoPrimes :
    ∃ (s : State) (first last rest : List Nat) (again : List (List Nat)),
      8 % 2 = 0 ∧ 8 ≤ s.width ∧ Nat.Prime 11 ∧ Nat.Prime 13 ∧ (11 : Nat) ≠ 13 ∧
      DrawBlock (8 / 2) 11 first ∧ (∀ b ∈ again, DrawBlock (8 / 2) 11 b) ∧ DrawBlock (8 / 2) 13 last ∧
      s.answers = first ++ again.flatten ++ last ++ rest ∧ again.length + 2 < 2 ^ 32 ∧
      (s.maxatt = 0 ∨ again.length + 2 ≤ s.maxatt.toNat) ∧
      Nat.Coprime 65537 ((11 - 1) * (13 - 1)) := by
  refine ⟨{ sample with answers := (2 :: twos) ++ (2 :: twos) ++ (4 :: twos) ++ [9] }, 2 :: twos, 4 :: twos, [9],
    [2 :: twos], rfl, by decide, by decide, by decide, by decide, drawBlock_eleven, ?_, drawBlock_thirteen,
    by decide +kernel, by decide, by decide, by decide⟩
  intro b hb
  rw [List.mem_singleton] at hb
  exact hb ▸ drawBlock_eleven

/-- The other exponents: 3, 17 and none (95_test_vectors.md V-K). -/
theorem witness_GenkeysFromTwoPrimes_exponents :
    (¬ Nat.Coprime 65537 481062027544 ∧ Nat.Coprime 3 481062027544) ∧
    (¬ Nat.Coprime 65537 481091388120 ∧ ¬ Nat.Coprime 3 481091388120 ∧ Nat.Coprime 17 481091388120) ∧
    (65537 ∣ 481597858056 ∧ 3 ∣ 481597858056 ∧ 17 ∣ 481597858056) ∧
    (917519 - 1) * (524309 - 1) = 481062027544 ∧ (917519 - 1) * (524341 - 1) = 481091388120 ∧
    (917519 - 1) * (524893 - 1) = 481597858056 := by decide +kernel

theorem witness_MessageEncodingIsShortest :
    (0 < 256 ∧ [(1 : Byte), 0].length = (bitlen 256 + 7) / 8 ∧ be2nat [1, 0] = 256) ∧
    (0 < 255 ∧ [(0xFF : Byte)].length = (bitlen 255 + 7) / 8 ∧ be2nat [0xFF] = 255) := by decide

theorem witness_EncryptCommand :
    (64 / 8 < (9 : Word).toNat) ∧ (8 : Word).toNat ≤ 64 / 8 ∧
    (∃ (s : State) (m : Nat), s.msglen.toNat ≤ s.width / 8 ∧ s.pubN ≤ m ∧ m = 3233 ∧
      m = ∑ i ∈ Finset.range s.msglen.toNat, (s.msg.read i).toNat * 256 ^ (s.msglen.toNat - 1 - i)) ∧
    (∃ (s : State) (m : Nat), s.msglen.toNat ≤ s.width / 8 ∧ m < s.pubN ∧ m = 3232 ∧
      m = ∑ i ∈ Finset.range s.msglen.toNat, (s.msg.read i).toNat * 256 ^ (s.msglen.toNat - 1 - i)) ∧
    opcodeOf 0x107 = 0x07 ∧ argOf 0x107 ≠ 0 :=
  ⟨by decide, by decide, ⟨{ sample with msg := [(0, 0x0C), (1, 0xA1)], msglen := 2 }, 3233, by decide⟩,
    ⟨{ sample with msg := [(0, 0x0C), (1, 0xA0)], msglen := 2 }, 3232, by decide⟩, by decide⟩

theorem witness_DecryptCommand :
    { sample with privN := 0 }.privN = 0 ∧ sample.Inv ∧ sample.privN ≠ 0 ∧
    (∃ v k : Nat, v = 65 ∧ k = 1 ∧ v = sample.opa ^ sample.privD % sample.privN ∧
      k = max 1 ((Nat.size v + 7) / 8) ∧ 0 < k) ∧
    opcodeOf 0x108 = 0x08 ∧ argOf 0x108 ≠ 0 :=
  ⟨rfl, sample_inv, by decide, ⟨65, 1, by decide +kernel⟩, by decide⟩

/-- 3233 = 61 * 53, 17 * 2753 = 1 modulo 3120, message [0x41] (95_test_vectors.md V-C). -/
theorem witness_RsaRoundTrip :
    ∃ (t : State) (bs : List Byte), sample.Inv ∧ sample.err = false ∧ Nat.Prime 61 ∧ Nat.Prime 53 ∧
      (61 : Nat) ≠ 53 ∧ sample.pubN = 61 * 53 ∧ sample.privN = 61 * 53 ∧
      sample.pubE * sample.privD % ((61 - 1) * (53 - 1)) = 1 ∧
      bs = sample.msg.readList 0 sample.msglen.toNat ∧ bs = [0x41] ∧ Succeeds .encrypt sample t :=
  ⟨{ sample with res0 := 2790, res0Neg := false, done := true }, [0x41], sample_inv, rfl, by norm_num, by norm_num,
    by decide, rfl, rfl, rfl, rfl, rfl, next_of (by decide +kernel), rfl, rfl⟩

theorem witness_BadOperandCauses :
    sample.err = false ∧ { sample with opb := 0 }.svalB = 0 ∧ { sample with opa := 1 }.svalA = -1 ∧
    (1 < 2 ∨ sample.width < 1) ∧ (65 < 2 ∨ sample.width < 65) ∧
    (6 % 2 = 1 ∨ 6 < 8 ∨ sample.width < 6) ∧ (9 % 2 = 1 ∨ 9 < 8 ∨ sample.width < 9) ∧
    sample.width / 8 < (9 : Word).toNat := by decide

theorem witness_ErrorsOfEachCommand :
    ∃ s t : State, s.err = false ∧ FailsWith (.genkeys 40) s .noCoprimeExponent t :=
  ⟨{ sample with answers := [0xE000F] ++ twos ++ [0x8025D] ++ twos },
    { sample with answers := [], attcnt := 2, done := true, err := true, errcode := 4 },
    rfl, next_of (by decide +kernel), rfl, rfl, rfl⟩

theorem witness_ErrorsArePrecise :
    (∃ s t : State, s.err = false ∧ FailsWith .modinv s .invalidModulus t ∧ ¬ Draws .modinv) ∧
    ∃ s t : State, s.err = false ∧ FailsWith (.genprime 65) s .badOperand t :=
  ⟨⟨{ sample with opa := 4, opb := 8 },
      { sample with opa := 4, opb := 8, done := true, err := true, errcode := 3 },
      rfl, ⟨next_of (by decide +kernel), rfl, rfl, rfl⟩, id⟩,
    sample, { sample with done := true, err := true, errcode := 2 }, rfl, next_of (by decide +kernel), rfl, rfl, rfl⟩

theorem witness_CommandsWriteOnlyTheirRow :
    (∃ t, exec .modexp sample = .next t ∧ ¬ Draws .modexp) ∧
    (Instr.isprime 1 ≠ .modexp ∧ Instr.isprime 1 ≠ .egcd ∧ Instr.isprime 1 ≠ .modinv ∧
      Instr.isprime 1 ≠ .encrypt ∧ (∀ k, Instr.isprime 1 ≠ .genprime k)) ∧
    ((∀ bits, Instr.egcd ≠ .genkeys bits) ∧ Instr.egcd ≠ .decrypt ∧ ∀ rounds, Instr.egcd ≠ .isprime rounds) :=
  ⟨⟨{ sample with res0 := 1890, res0Neg := false, done := true }, next_of (by decide +kernel), id⟩,
    ⟨nofun, nofun, nofun, nofun, nofun⟩, nofun, nofun, nofun⟩

theorem witness_CommandsReadOnlyTheirRow_error :
    ∃ s u t : State, s.msg.wf = true ∧ u.msg.wf = true ∧ ReadsAgree (.genprime 4) s u ∧ s ≠ u ∧ s.err = false ∧
      u.err = false ∧ s.errcode = 0 ∧ u.errcode = 0 ∧ exec (.genprime 4) s = .next t ∧
      t.errcode = CmdError.generationExhausted.code ∧ Draws (.genprime 4) :=
  ⟨{ sample with maxatt := 1, answers := [0, 2] }, { idle64 with maxatt := 1, answers := [0, 2] },
    { sample with maxatt := 1, answers := [], attcnt := 1, done := true, err := true, errcode := 6 },
    by decide, by decide, ⟨rfl, rfl, rfl⟩, by decide, rfl, rfl, rfl, rfl, next_of (by decide +kernel), rfl, trivial⟩

theorem witness_CommandsReadOnlyTheirRow :
    ∃ s u t : State, s.msg.wf = true ∧ u.msg.wf = true ∧ ReadsAgree .encrypt s u ∧ s ≠ u ∧ s.err = false ∧
      u.err = false ∧ s.errcode = 0 ∧ u.errcode = 0 ∧ exec .encrypt s = .next t ∧ t.busy = false ∧
      t.err = false := by
  refine ⟨sample, { sample with opa := 1, msg := [(0, 0x41)], attcnt := 9, prime := false },
    { sample with res0 := 2790, res0Neg := false, done := true }, by decide, by decide,
    ⟨rfl, ?_, rfl, rfl, rfl⟩, by decide, rfl, rfl, rfl, rfl, next_of (by decide +kernel), rfl, rfl⟩
  intro k hk
  have : k < 1 := hk
  interval_cases k
  rfl

theorem witness_SignBitsOnlyForEuclid :
    { sample with opa := 0 }.opa = 0 ∧ { sample with opb := 0 }.opb = 0 ∧ Instr.modexp ≠ .egcd ∧
    Instr.modexp ≠ .modinv := by decide

theorem witness_PrimeFlag :
    (∃ s t : State, s.err = false ∧ Succeeds (.isprime 1) s t ∧ t.prime = true) ∧
    (∃ s t : State, s.err = false ∧ exec (.isprime 0) s = .next t ∧ t.err = true) ∧
    (∃ s t : State, s.err = false ∧ exec (.isprime 1) s = .next t ∧ t.busy = true) ∧
    (∃ s t : State, s.err = false ∧ exec .egcd s = .next t) ∧ ∀ rounds, Instr.egcd ≠ .isprime rounds :=
  ⟨⟨{ sample with opa := 561, answers := [50], prime := false },
      { sample with opa := 561, answers := [], prime := true, done := true },
      rfl, ⟨next_of (by decide +kernel), rfl, rfl⟩, rfl⟩,
    ⟨sample, sample.fail .badOperand, rfl, rfl, rfl⟩,
    ⟨{ sample with opa := 5 }, { sample with opa := 5, seq := .busy 0x104 (some (.randRange 2 3)) }, rfl,
      next_of (by decide +kernel), rfl⟩, ⟨sample, _, rfl, rfl⟩, nofun⟩

theorem witness_AnswersAreReadInOrder :
    (∃ t, exec (.isprime 1) { sample with opa := 9, answers := [2, 5] } = .next t ∧ t.busy = false) ∧
    (∃ t, exec (.genprime 4) { sample with answers := [0] } = .next t ∧ t.busy = true) ∧
    (Request.randRange 2 7).Admits 7 ∧ ¬ (Request.randRange 2 7).Admits 8 ∧ [(2 : Nat)] = [] ++ [2] ∧ [2] ≠ [] ∧
    ∃ r, exec (.isprime 1) { sample with opa := 9, answers := [8] } = .refused r :=
  ⟨⟨{ sample with opa := 9, answers := [5], prime := false, done := true }, next_of (by decide +kernel), rfl⟩,
    ⟨{ sample with answers := [0], attcnt := 1, seq := .busy 0x405 (some (.randRange 2 7)) },
      next_of (by decide +kernel), rfl⟩, ⟨by decide, by decide⟩, fun h => absurd h.2 (by decide), rfl, nofun,
    .randomOutOfRange (.randRange 2 7), rfl⟩

theorem witness_WaitingDoesNotChangeTheOutcome :
    (∃ t, exec (.genprime 4) { sample with answers := [0] } = .next t ∧ t.busy = true ∧ t.inputs = [] ∧
      (Instr.genprime 4).wellFormed = true) ∧
    ∃ t, exec (.genprime 2) { sample with answers := [0] } = .next t ∧ t.busy = false :=
  ⟨⟨{ sample with answers := [0], attcnt := 1, seq := .busy 0x405 (some (.randRange 2 7)) },
      next_of (by decide +kernel), rfl, rfl, by decide⟩,
    { sample with answers := [], res0 := 3, res0Neg := false, attcnt := 1, done := true },
    next_of (by decide +kernel), rfl⟩

theorem witness_BoundedTermination :
    (∃ t, exec .egcd sample = .next t ∧ ¬ Draws .egcd ∧ sample.Inv) ∧
    (∃ s t : State, exec (.isprime 1) s = .next t ∧ 1 ≤ s.answers.length) ∧
    ∃ s t : State, exec (.genprime 4) s = .next t ∧ s.maxatt ≠ 0 ∧ 17 * s.maxatt.toNat ≤ s.answers.length :=
  ⟨⟨_, rfl, id, sample_inv⟩,
    ⟨{ sample with opa := 9, answers := [2] },
      { sample with opa := 9, answers := [], prime := false, done := true }, next_of (by decide +kernel), by decide⟩,
    { sample with maxatt := 1, answers := 2 :: twos },
    { sample with maxatt := 1, answers := [], res0 := 11, res0Neg := false, attcnt := 1, done := true },
    next_of (by decide +kernel), by decide, by decide⟩

theorem witness_ResetMeetsInvariant : Config.LegalWidth 32 ∧ Config.LegalWidth 64 ∧ Config.LegalWidth 8192 := by
  decide

theorem witness_StepKeepsInvariant :
    sampleBusy.Inv ∧ sampleWaiting.Inv ∧ ∃ t, step sampleBusy = .next t ∧ t.busy = false :=
  ⟨sampleBusy_inv, sampleWaiting_inv, { sample with msg := [(0, 0x41)], msglen := 1, seq := .idle, done := true },
    next_of (by decide +kernel), rfl⟩

/-- The four ways of the statement: an answer taken, a host access, a late answer, an answer nothing asked for. -/
theorem witness_InputsCannotDisturbRunningCommand :
    (∃ (s t : State) (e : Input) (rest : List Input), s.busy = true ∧ s.inputs = e :: rest ∧ e ≠ .coreTurn ∧
      e ≠ .reset ∧ step s = .next t ∧ t.answers = s.answers ++ [7]) ∧
    (∃ (s t : State) (e : Input) (rest : List Input), s.busy = true ∧ s.inputs = e :: rest ∧ e ≠ .coreTurn ∧
      e ≠ .reset ∧ step s = .next t ∧ t.port = some (.write .error)) ∧
    (∃ (s t : State) (e : Input) (rest : List Input), s.busy = true ∧ s.inputs = e :: rest ∧ e ≠ .coreTurn ∧
      e ≠ .reset ∧ step s = .next t ∧ e = .answer 0 7 ∧ s.epoch = 1 ∧ t.seq = .busy 0x4005 (some (.randBits 64))) ∧
    ∃ (s t : State) (e : Input) (rest : List Input), s.busy = true ∧ s.inputs = e :: rest ∧ e ≠ .coreTurn ∧
      e ≠ .reset ∧ step s = .next t ∧ e = .answer s.epoch 7 ∧ t.seq = .busy 8 none ∧ t.answers = [] :=
  ⟨⟨{ sampleWaiting with inputs := [.answer 0 7] }, { sampleWaiting with answers := [7], seq := .busy 0x4005 none },
      .answer 0 7, [], rfl, rfl, nofun, nofun, next_of (by decide +kernel), rfl⟩,
    ⟨{ sampleBusy with inputs := [.hostWrite 0x1000 5] }, { sampleBusy with port := some (.write .error) },
      .hostWrite 0x1000 5, [], rfl, rfl, nofun, nofun, next_of (by decide +kernel), rfl⟩,
    ⟨{ sampleWaiting with epoch := 1, inputs := [.answer 0 7] }, { sampleWaiting with epoch := 1 },
      .answer 0 7, [], rfl, rfl, nofun, nofun, next_of (by decide +kernel), rfl, rfl, rfl⟩,
    { sampleBusy with inputs := [.answer 0 7] }, sampleBusy,
    .answer 0 7, [], rfl, rfl, nofun, nofun, next_of (by decide +kernel), rfl, rfl, rfl⟩

end Sys2Proof.Tests
end

section
/-!
The family of 10_state.md: the identification registers (R32, R33), the operand signs (R24) and STATUS.PRIME (R36).
-/

namespace Sys2Proof.Machine

/-! ### Identification registers -/

/-- ID, CFG and STATUS answer a read in every state, BUSY or not (R68). -/
theorem hostRead_csr_readableWhileBusy (s : State) {c : Csr} (h : (Location.csr c).readableWhileBusy = true) :
    hostRead s c.offset = (.okay, s.readLocation (.csr c)) := by
  simp [hostRead, locate_csr, h]

/-- A read-only control register refuses every write, BUSY or not (R67, R68). -/
theorem hostWrite_csr_readOnly (s : State) {c : Csr} (d : Word) (h : s.writeLocation d (.csr c) = none) :
    hostWrite s c.offset d = (.error, s) := by
  cases hb : s.busy with
  | true => simp [hostWrite, hb]
  | false => simp [hostWrite_csr s c d hb, h]

theorem State.cfgWord_low (s : State) (h : s.width < 65536) : (s.cfgWord.extractLsb' 0 16).toNat = s.width := by
  simp only [State.cfgWord, BitVec.extractLsb'_toNat, BitVec.toNat_ofNat, Nat.shiftRight_zero]
  omega

theorem State.cfgWord_high (s : State) : s.cfgWord.extractLsb' 16 16 = 0 := by
  apply BitVec.eq_of_toNat_eq
  simp only [State.cfgWord, BitVec.extractLsb'_toNat, BitVec.ofNat_eq_ofNat, BitVec.toNat_ofNat,
    Nat.shiftRight_eq_div_pow]
  omega

/-! ### Width and PRIME along a command and a step -/

/-- A command keeps W, and any command but ISPRIME keeps PRIME. -/
theorem exec_width_prime {i : Instr} {s t : State} (h : exec i s = .next t) :
    t.width = s.width ∧ ((∀ rounds, i ≠ .isprime rounds) → t.prime = s.prime) := by
  cases i with
  | modexp => obtain ⟨-, rfl⟩ | ⟨-, rfl⟩ := exec_modexp_next h <;> simp
  | egcd => simp [exec_egcd_next h]
  | modinv => obtain ⟨-, rfl⟩ | ⟨-, rfl⟩ | ⟨v, -, rfl⟩ := exec_modinv_next h <;> simp
  | isprime rounds =>
    refine ⟨?_, fun hne => absurd rfl (hne rounds)⟩
    obtain ⟨-, rfl⟩ | ⟨-, ⟨b, rest, -, rfl⟩ | ⟨req, -, rfl⟩⟩ := exec_isprime_next h <;> simp
  | genprime k =>
    obtain ⟨-, rfl⟩ | ⟨-, -, ⟨c, att, rest, -, rfl⟩ | ⟨e, att, rest, -, rfl⟩ | ⟨req, att, -, rfl⟩⟩ :=
      exec_genprime_next h <;> simp
  | genkeys bits =>
    obtain ⟨-, rfl⟩ | ⟨-, -, -, ⟨k, att, rest, -, rfl⟩ | ⟨e, att, rest, -, rfl⟩ | ⟨req, att, -, rfl⟩⟩ :=
      exec_genkeys_next h <;> simp
  | encrypt =>
    rw [exec_encrypt_eq] at h
    split_ifs at h <;> cases h <;> simp
  | decrypt => obtain ⟨-, rfl⟩ | ⟨-, -, rfl⟩ := exec_decrypt_next h <;> simp

theorem coreTurn_width {s t : State} (h : coreTurn s = .next t) : t.width = s.width := by
  obtain ⟨-, rfl⟩ | ⟨word, req, -, ⟨why, -, rfl⟩ | ⟨i, -, hi⟩⟩ := coreTurn_next h
  · rfl
  · rfl
  · exact (exec_width_prime hi).1

/-- No outside event changes W, the reset event included (R45). -/
theorem State.receive_width (s : State) (e : Input) : (s.receive e).width = s.width := by
  cases e with
  | hostRead addr => rfl
  | hostWrite addr d => exact (hostWrite_frame s addr d).1
  | answer epoch v =>
    change (s.deliver epoch v).width = s.width
    obtain ⟨_, _, _, _, hd⟩ | hd := s.deliver_cases epoch v <;> rw [hd]
  | reset => rfl
  | coreTurn => rfl

theorem step_width {s t : State} (h : step s = .next t) : t.width = s.width := by
  obtain ⟨-, ht⟩ | ⟨rest, -, ht⟩ | ⟨e, rest, -, -, rfl⟩ := step_next h
  · exact coreTurn_width ht
  · have hturn := coreTurn_width ht
    exact hturn
  · exact State.receive_width _ e

/-- Settles O18: both registers read and refuse in every state, and every step keeps W. -/
theorem identificationIsConstant : Obligations.IdentificationIsConstant := by
  intro s hw
  have hlt : s.width < 65536 := by omega
  exact ⟨hostRead_csr_readableWhileBusy s (c := .id) rfl,
    ⟨s.cfgWord, hostRead_csr_readableWhileBusy s (c := .cfg) rfl, s.cfgWord_low hlt, s.cfgWord_high⟩,
    fun d => ⟨hostWrite_csr_readOnly s (c := .id) d rfl, hostWrite_csr_readOnly s (c := .cfg) d rfl⟩,
    fun _ => step_width⟩

/-- DECRYPT as its three outcomes: BadOperand, the buffer and MSGLEN written, or a fault where the buffer is too
small for the encoding (R70, R211). -/
theorem exec_decrypt_eq (s : State) : exec .decrypt s =
    if s.privN = 0 then .next (s.fail .badOperand)
    else if (s.decryptedBuffer (modexp s.opa s.privD s.privN)).length ≤ s.msgBytes then
      .next (State.complete { s with
        msg := s.msg.writeList 0 (s.decryptedBuffer (modexp s.opa s.privD s.privN))
        msglen := BitVec.ofNat 32 (nat2be (modexp s.opa s.privD s.privN)).length })
    else .fault .msgOutOfRange := by
  simp only [exec, execDecrypt, State.memWrite, Nat.zero_add]
  split_ifs <;> rfl

/-! ### Flags that a command does not read -/

/-- The state with OPA_NEG, OPB_NEG and PRIME replaced where a value is given and kept where none is, so that one
lemma about `exec` speaks of the operand signs (R24) and of PRIME (R36). -/
def State.overrideFlags (x y p : Option Bool) (s : State) : State :=
  { s with opaNeg := x.getD s.opaNeg, opbNeg := y.getD s.opbNeg, prime := p.getD s.prime }

/-- How a drawing command's run is concluded does not depend on a flag that its result write leaves alone. -/
theorem State.conclude_overrideFlags {α : Type} {x y p : Option Bool} {write : State → α → State}
    (hw : ∀ s a, write (s.overrideFlags x y p) a = (write s a).overrideFlags x y p)
    (s : State) (i : Instr) (r : Run α) :
    (s.overrideFlags x y p).conclude i write r = mapNext (State.overrideFlags x y p) (s.conclude i write r) := by
  cases r with
  | done a att rest =>
    have hwrite := hw { s with attcnt := att, answers := rest } a
    exact congrArg (fun t => Host.Outcome.next (State.complete t)) hwrite
  | raised e att rest => rfl
  | wait req att => rfl
  | outOfRange req => rfl

/-- No command but EGCD and MODINV depends on the operand signs, and none on PRIME, which only ISPRIME writes. -/
theorem exec_overrideFlags {i : Instr} {x y p : Option Bool}
    (hsigns : i ≠ .egcd ∧ i ≠ .modinv ∨ x = none ∧ y = none)
    (hprime : (∀ rounds, i ≠ .isprime rounds) ∨ p = none) (s : State) :
    exec i (s.overrideFlags x y p) = mapNext (State.overrideFlags x y p) (exec i s) := by
  cases i with
  | modexp =>
    simp only [exec, execModexp, apply_ite (mapNext _)]
    rfl
  | egcd =>
    obtain ⟨rfl, rfl⟩ := hsigns.resolve_left (by simp)
    rfl
  | modinv =>
    obtain ⟨rfl, rfl⟩ := hsigns.resolve_left (by simp)
    change execModinv _ = mapNext _ (execModinv s)
    have hA : (s.overrideFlags none none p).svalA = s.svalA := rfl
    have hB : (s.overrideFlags none none p).svalB = s.svalB := rfl
    unfold execModinv
    rw [hA, hB]
    cases modInverse s.svalA s.svalB <;> rfl
  | isprime rounds =>
    obtain rfl := hprime.resolve_left (by simp)
    simp only [exec, execIsprime, apply_ite (mapNext _),
      ← State.conclude_overrideFlags (p := none) (write := State.setPrime) (fun _ _ => rfl)]
    rfl
  | genprime k =>
    simp only [exec, execGenprime, apply_ite (mapNext _),
      ← State.conclude_overrideFlags (write := State.ures0) (fun _ _ => rfl)]
    rfl
  | genkeys bits =>
    simp only [exec, execGenkeys, apply_ite (mapNext _),
      ← State.conclude_overrideFlags (write := State.writeKeys) (fun _ _ => rfl)]
    rfl
  | encrypt =>
    simp only [exec_encrypt_eq, apply_ite (mapNext _)]
    rfl
  | decrypt =>
    simp only [exec_decrypt_eq, apply_ite (mapNext _)]
    rfl

/-! ### Operand signs -/

theorem signedValue_zero (neg : Bool) : signedValue neg 0 = 0 := by
  cases neg <;> rfl

/-- Settles O53: by `exec_overrideFlags`, with both operand signs replaced and PRIME kept. -/
theorem signBitsOnlyForEuclid : Obligations.SignBitsOnlyForEuclid := by
  intro s x y
  refine ⟨rfl, rfl, fun ha => ?_, fun hb => ?_, fun i hegcd hmodinv => ?_⟩
  · rw [State.svalA, ha, signedValue_zero]
  · rw [State.svalB, hb, signedValue_zero]
  · exact exec_overrideFlags (x := some x) (y := some y) (.inl ⟨hegcd, hmodinv⟩) (.inr rfl) s

/-! ### PRIME -/

/-- An ISPRIME that ends without error leaves the tester's answer in PRIME (R36, R166). -/
theorem prime_of_isprime_succeeds {s t : State} {rounds : Nat} (h : Succeeds (.isprime rounds) s t) :
    isProbablePrime s.opa rounds s.answers = .done t.prime t.answers := by
  obtain ⟨hexec, hbusy, herr⟩ := h
  obtain ⟨-, rfl⟩ | ⟨-, ⟨b, rest, htest, rfl⟩ | ⟨req, -, rfl⟩⟩ := exec_isprime_next hexec
  · simp at herr
  · exact htest
  · simp at hbusy

/-- An ISPRIME that ends with an error, or has not ended, leaves PRIME as it was (R36). -/
theorem prime_of_isprime_not_succeeded {s t : State} {rounds : Nat} (herr : s.err = false)
    (h : exec (.isprime rounds) s = .next t) (hend : t.err = true ∨ t.busy = true) : t.prime = s.prime := by
  obtain ⟨-, rfl⟩ | ⟨-, ⟨b, rest, -, rfl⟩ | ⟨req, -, rfl⟩⟩ := exec_isprime_next h
  · rfl
  · simp [herr] at hend
  · rfl

/-- ISPRIME does not read PRIME: its outcome is the same but for PRIME itself, which is the value given where
ISPRIME writes none and the tester's answer where it does. -/
theorem exec_isprime_setPrime (rounds : Nat) (s : State) (b : Bool) :
    exec (.isprime rounds) (s.setPrime b) =
      mapNext (fun t => t.setPrime (if rounds = 0 ∨ t.busy then b else t.prime)) (exec (.isprime rounds) s) := by
  by_cases h0 : rounds = 0
  · subst h0
    rfl
  · change execIsprime rounds _ = mapNext _ (execIsprime rounds s)
    simp only [execIsprime, h0, if_false, false_or]
    change State.conclude _ _ _ ((isProbablePrime s.opa rounds s.answers).counted s.attcnt) = _
    cases isProbablePrime s.opa rounds s.answers <;> rfl

/-- Settles O54: `prime_of_isprime_succeeds` and the frames say who writes PRIME; `exec_overrideFlags` and, for
ISPRIME, `exec_isprime_setPrime` say that no command reads it. -/
theorem primeFlag : Obligations.PrimeFlag := by
  refine ⟨fun s t rounds _ h => prime_of_isprime_succeeds h, fun s t i herr h hcase => ?_, fun _ => rfl,
    fun s i b => ?_⟩
  · by_cases hi : ∃ rounds, i = .isprime rounds
    · obtain ⟨rounds, rfl⟩ := hi
      exact prime_of_isprime_not_succeeded herr h (hcase.resolve_left fun hne => hne rounds rfl)
    · exact (exec_width_prime h).2 (not_exists.mp hi)
  · by_cases hi : ∃ rounds, i = .isprime rounds
    · obtain ⟨rounds, rfl⟩ := hi
      exact ⟨_, exec_isprime_setPrime rounds s b⟩
    · exact ⟨fun _ => b, exec_overrideFlags (p := some b) (.inr ⟨rfl, rfl⟩) (.inl (not_exists.mp hi)) s⟩

end Sys2Proof.Machine
end

section
/-!
The family of 20_memory.md: the address map (R62 to R66), the BUSY window (R68), the limbs of the registers (R65),
the message window (R69) and the big-endian value and encoding of a message (R71, R72).
-/

namespace Sys2Proof.Machine

/-! ### The address map -/

/-- A location that exists stands at its offset and nowhere else (R64). -/
theorem locate_eq_some_iff {width addr : Nat} {loc : Location} (hw : Config.LegalWidth width) :
    locate width addr = some loc ↔ loc.offset = addr ∧ loc.present width = true := by
  refine ⟨locate_some width addr loc, ?_⟩
  rintro ⟨rfl, hp⟩
  cases loc with
  | csr c => exact locate_csr width c
  | limb r j => exact locate_limb width j r hw (of_decide_eq_true hp)
  | msgWord j => exact locate_msgWord width j hw (of_decide_eq_true hp)

/-- Every location is word-aligned (R62). -/
theorem Location.offset_mod_four (loc : Location) : loc.offset % 4 = 0 := by
  cases loc with
  | csr c => cases c <;> rfl
  | limb r j =>
    simp only [Location.offset, BigReg.base]
    omega
  | msgWord j =>
    simp only [Location.offset]
    omega

/-- No location that exists stands at or above 0x4400 (R66). -/
theorem Location.offset_lt {width : Nat} {loc : Location} (hw : Config.LegalWidth width)
    (hp : loc.present width = true) : loc.offset < 0x4400 := by
  cases loc with
  | csr c => cases c <;> decide
  | limb r j =>
    have hj : j < width / 32 := of_decide_eq_true hp
    have hr := r.number_lt
    simp only [Location.offset, BigReg.base]
    omega
  | msgWord j =>
    have hj : j < width / 32 := of_decide_eq_true hp
    simp only [Location.offset]
    omega

/-- A misaligned offset, one at or above 0x4400 and one at which no location stands reach nothing (R62, R66). -/
theorem locate_eq_none {width addr : Nat} (hw : Config.LegalWidth width)
    (h : addr % 4 ≠ 0 ∨ 0x4400 ≤ addr ∨ ∀ loc : Location, loc.present width = true → loc.offset ≠ addr) :
    locate width addr = none := by
  rw [Option.eq_none_iff_forall_ne_some]
  intro loc hloc
  obtain ⟨rfl, hp⟩ := locate_some width addr loc hloc
  obtain hmis | hhigh | hno := h
  · exact hmis loc.offset_mod_four
  · exact absurd (Location.offset_lt hw hp) (not_lt.mpr hhigh)
  · exact hno loc hp rfl

/-! ### The outcome of an access by what its offset reaches -/

theorem hostRead_unmapped {s : State} {addr : Nat} (h : locate s.width addr = none) :
    hostRead s addr = (.error, 0) := by
  simp [hostRead, h]

theorem hostRead_idle {s : State} {addr : Nat} {loc : Location} (hs : s.seq = .idle)
    (h : locate s.width addr = some loc) : hostRead s addr = (.okay, s.readLocation loc) := by
  simp [hostRead, h, s.not_busy_iff.mpr hs]

theorem hostWrite_busy {s : State} (h : s.busy = true) (addr : Nat) (d : Word) :
    hostWrite s addr d = (.error, s) := by
  simp [hostWrite, h]

theorem hostWrite_unmapped {s : State} {addr : Nat} (h : locate s.width addr = none) (d : Word) :
    hostWrite s addr d = (.error, s) := by
  simp [hostWrite, h]

theorem hostWrite_readOnly {s : State} {addr : Nat} {loc : Location} {d : Word}
    (h : locate s.width addr = some loc) (hw : s.writeLocation d loc = none) :
    hostWrite s addr d = (.error, s) := by
  simp [hostWrite, h, hw]

theorem hostWrite_idle {s t : State} {addr : Nat} {loc : Location} {d : Word} (hs : s.seq = .idle)
    (h : locate s.width addr = some loc) (hw : s.writeLocation d loc = some t) :
    hostWrite s addr d = (.okay, t) := by
  simp [hostWrite, h, hw, s.not_busy_iff.mpr hs]

/-- Settles O11: `locate_eq_some_iff` is the map in both directions, and an offset off the map reaches nothing. -/
theorem addressMap : Obligations.AddressMap := by
  refine ⟨fun width addr loc hw => locate_eq_some_iff hw, fun j => ?_, ?_, fun width j => ?_, fun _ _ => rfl,
    fun s addr d hw h => ?_⟩
  · simp [Location.offset, BigReg.base, BigReg.number]
  · simp [Location.offset, Csr.offset]
  · simp [Location.present]
  · have hnone := locate_eq_none hw h
    exact ⟨hostRead_unmapped hnone, hostWrite_unmapped hnone d⟩

/-! ### The BUSY window -/

theorem Location.readableWhileBusy_iff (loc : Location) :
    loc.readableWhileBusy = true ↔ loc = .csr .id ∨ loc = .csr .cfg ∨ loc = .csr .status := by
  cases loc with
  | csr c => cases c <;> decide
  | limb r j => simp [Location.readableWhileBusy]
  | msgWord j => simp [Location.readableWhileBusy]

/-- While BUSY every offset but those of ID, CFG and STATUS refuses a read (R68). -/
theorem hostRead_busy_error {s : State} {addr : Nat} (hb : s.busy = true) (hid : addr ≠ 0x00)
    (hcfg : addr ≠ 0x04) (hstatus : addr ≠ 0x08) : hostRead s addr = (.error, 0) := by
  cases hloc : locate s.width addr with
  | none => exact hostRead_unmapped hloc
  | some loc =>
    have hno : loc.readableWhileBusy = false := by
      rw [← Bool.not_eq_true, Location.readableWhileBusy_iff]
      rintro (rfl | rfl | rfl)
      · exact hid (locate_some _ _ _ hloc).1.symm
      · exact hcfg (locate_some _ _ _ hloc).1.symm
      · exact hstatus (locate_some _ _ _ hloc).1.symm
    simp [hostRead, hloc, hb, hno]

theorem State.cfgWord_eq_width {s : State} (h : s.width < 65536) : s.cfgWord = BitVec.ofNat 32 s.width := by
  rw [State.cfgWord, Nat.mod_eq_of_lt h]

/-- STATUS of a running command: BUSY, and PRIME as it was (R34, R35, R68). -/
theorem State.Inv.statusWord_busy {s : State} (h : s.Inv) (hb : s.busy = true) :
    s.statusWord = if s.prime then 0x9 else 0x1 := by
  obtain ⟨hdone, herr⟩ := h.busyClear hb
  have hcode : s.errcode = 0 := by simpa [herr] using h.errForm
  cases hp : s.prime <;> simp [State.statusWord, hb, hdone, herr, hcode, hp]

/-- Settles O10: the three readable registers under the invariant, and the refusal of every other access. -/
theorem busyWindow : Obligations.BusyWindow := by
  intro s hinv hb
  have hw := hinv.width
  refine ⟨hostRead_csr_readableWhileBusy s (c := .id) rfl, ?_, ?_, fun addr => hostRead_busy_error hb,
    hostWrite_busy hb⟩
  · rw [← State.cfgWord_eq_width (by omega)]
    exact hostRead_csr_readableWhileBusy s (c := .cfg) rfl
  · rw [← hinv.statusWord_busy hb]
    exact hostRead_csr_readableWhileBusy s (c := .status) rfl

/-! ### Limbs of the registers and read-only locations -/

theorem BigReg.hostWritable_iff (r : BigReg) :
    r.hostWritable = true ↔ r ≠ .res0 ∧ r ≠ .res1 ∧ r ≠ .res2 := by
  cases r <;> decide

/-- Settles O12: the access by `locate_limb`, the sum by `sum_limbs` and the write by `limb_setLimb`. -/
theorem limbAccess : Obligations.LimbAccess := by
  refine ⟨fun s => by simp [State.reg, State.setReg], BigReg.hostWritable_iff, fun s r j hinv hs hj => ?_⟩
  have hloc := locate_limb s.width j r hinv.width hj
  have hwidth := s.width_eq_limbs hinv.width
  have hreg := hinv.regs r
  rw [← hwidth] at hreg ⊢
  refine ⟨hostRead_idle hs hloc, limb_toNat _ j, sum_limbs _ _ hreg, fun d hr => ?_⟩
  refine ⟨setLimb (s.reg r) j d, hostWrite_idle hs hloc (by simp [State.writeLocation, hr]),
    setLimb_lt _ _ _ d hreg hj, ?_, fun k hk => ?_⟩
  · rw [limb_setLimb, if_pos rfl]
  · rw [limb_setLimb, if_neg hk]

/-- Settles O13: each location by what `State.writeLocation` and `State.readLocation` give for it. -/
theorem readOnlyLocations : Obligations.ReadOnlyLocations := by
  intro s d hinv hs
  refine ⟨fun c hc => hostWrite_csr_readOnly s d ?_, fun r hr j hj => ?_,
    hostWrite_idle hs (locate_csr _ .sign) rfl, hostRead_idle hs (locate_csr _ .cmd)⟩
  · simp only [List.mem_cons, List.not_mem_nil, or_false] at hc
    obtain rfl | rfl | rfl | rfl := hc <;> rfl
  · have hro : r.hostWritable = false := by
      simp only [List.mem_cons, List.not_mem_nil, or_false] at hr
      obtain rfl | rfl | rfl := hr <;> rfl
    exact hostWrite_readOnly (locate_limb s.width j r hinv.width hj) (by simp [State.writeLocation, hro])

/-! ### The message window -/

@[simp] theorem length_wordBytes (d : Word) : (wordBytes d).length = 4 := rfl

/-- Byte lane i of a bus word is its bits 8*i+7 down to 8*i (R69). -/
theorem getD_wordBytes (d : Word) {i : Nat} (hi : i < 4) : (wordBytes d).getD i 0 = d.extractLsb' (8 * i) 8 := by
  interval_cases i <;> rfl

theorem wordBytes_msgWord (s : State) (j : Nat) : wordBytes (s.msgWord j) = s.msg.readList (4 * j) 4 :=
  wordBytes_append _ _ _ _

theorem State.extractLsb'_msgWord (s : State) (j : Nat) {i : Nat} (hi : i < 4) :
    (s.msgWord j).extractLsb' (8 * i) 8 = s.msg.read (4 * j + i) := by
  rw [← getD_wordBytes _ hi, wordBytes_msgWord, Memory.getD_readList _ _ _ _ hi]

/-- Settles O14: the read by `State.extractLsb'_msgWord`, the write by `Memory.read_writeList`. -/
theorem messageWindow : Obligations.MessageWindow := by
  intro s j hinv hs hj
  have hloc := locate_msgWord s.width j hinv.width hj
  refine ⟨⟨s.msgWord j, hostRead_idle hs hloc, fun i hi => s.extractLsb'_msgWord j hi⟩, fun d => ?_⟩
  refine ⟨s.msg.writeList (4 * j) (wordBytes d), hostWrite_idle hs hloc rfl, fun i hi => ?_, fun k hk => ?_⟩
  · rw [Memory.read_writeList _ _ _ _ hinv.msgForm, length_wordBytes, if_pos (by omega), Nat.add_sub_cancel_left,
      getD_wordBytes d hi]
  · rw [Memory.read_writeList _ _ _ _ hinv.msgForm, length_wordBytes, if_neg (by omega)]

/-! ### The value and the encoding of a message -/

/-- The value of a byte list as the sum of R71. -/
theorem be2nat_eq_sum (bs : List Byte) :
    be2nat bs = ∑ i ∈ Finset.range bs.length, (bs.getD i 0).toNat * 256 ^ (bs.length - 1 - i) := by
  induction bs with
  | nil => rfl
  | cons b bs ih =>
    rw [be2nat_cons, List.length_cons, Finset.sum_range_succ', ih, add_comm]
    congr 1
    refine Finset.sum_congr rfl fun i _ => ?_
    rw [List.getD_cons_succ, show bs.length + 1 - 1 - (i + 1) = bs.length - 1 - i by omega]

theorem be2nat_zero_cons (bs : List Byte) : be2nat (0 :: bs) = be2nat bs := by
  simp [be2nat_cons]

/-- Settles O43: the sum by induction on the list, whose first byte has the highest power. -/
theorem messageValueIsBigEndian : Obligations.MessageValueIsBigEndian :=
  ⟨rfl, be2nat_eq_sum, be2nat_zero_cons⟩

/-- ceil(bitlen(v) / 8) bytes, at least one for v > 0, hold v, and one byte less does not (R10, R72). -/
theorem byteCount_bounds {v : Nat} (hv : 0 < v) :
    0 < (bitlen v + 7) / 8 ∧ v < 256 ^ ((bitlen v + 7) / 8) ∧ 256 ^ ((bitlen v + 7) / 8 - 1) ≤ v := by
  rw [bitlen_eq_size, show (256 : Nat) = 2 ^ 8 from rfl, ← pow_mul, ← pow_mul, ← Nat.size_le, ← Nat.lt_size]
  have hsize := Nat.size_pos.mpr hv
  omega

theorem nat2be_of_pos {v : Nat} (hv : 0 < v) : nat2be v = natBytes ((bitlen v + 7) / 8) v :=
  if_neg hv.ne'

theorem length_nat2be {v : Nat} (hv : 0 < v) : (nat2be v).length = (bitlen v + 7) / 8 := by
  rw [nat2be_of_pos hv, length_natBytes]

theorem be2nat_nat2be (v : Nat) : be2nat (nat2be v) = v := by
  rcases Nat.eq_zero_or_pos v with rfl | hv
  · rfl
  · obtain ⟨-, hfits, -⟩ := byteCount_bounds hv
    rw [nat2be_of_pos hv, be2nat_natBytes, Nat.mod_eq_of_lt hfits]

/-- A first byte 0 would leave the value to one byte less than it needs. -/
theorem head?_nat2be_ne_zero {v : Nat} (hv : 0 < v) : (nat2be v).head? ≠ some 0 := by
  intro hhead
  obtain ⟨bs, hbs⟩ := List.head?_eq_some_iff.mp hhead
  have hlen := length_nat2be hv
  have hval := be2nat_nat2be v
  rw [hbs, List.length_cons] at hlen
  rw [hbs, be2nat_zero_cons] at hval
  obtain ⟨-, -, hlow⟩ := byteCount_bounds hv
  rw [← hlen, Nat.add_sub_cancel] at hlow
  exact absurd (be2nat_lt bs) (by omega)

/-- Settles O44: the value is kept, one byte less is too few, and the length and the value fix the list. -/
theorem messageEncodingIsShortest : Obligations.MessageEncodingIsShortest := by
  refine ⟨rfl, fun v => ?_⟩
  rcases Nat.eq_zero_or_pos v with rfl | hv
  · exact ⟨rfl, le_rfl, le_max_left _ _, fun h => absurd h (lt_irrefl 0)⟩
  · have hlen := length_nat2be hv
    obtain ⟨hpos, -, -⟩ := byteCount_bounds hv
    refine ⟨be2nat_nat2be v, hlen ▸ hpos, hlen ▸ le_max_right _ _, fun _ =>
      ⟨hlen, head?_nat2be_ne_zero hv, fun bs hl hval => ?_⟩⟩
    rw [nat2be_of_pos hv, ← hl, ← hval, natBytes_be2nat]

end Sys2Proof.Machine
end

section
/-!
The family of 30_encoding.md: the opcode map (R90 to R94) and the acceptance of a command word (R95).
-/

namespace Sys2Proof

/-! ### The rows of the opcode map -/

/-- A row that takes an argument looks at OPCODE alone (R92). -/
theorem and_opcodeMask_eq_iff (w p : Word) : w &&& 0x000000FF = p ↔ opcodeOf w = p.toNat := by
  rw [← BitVec.toNat_inj, BitVec.toNat_and, show (0x000000FF : Word).toNat = 2 ^ 8 - 1 from rfl,
    Nat.and_two_pow_sub_one_eq_mod]
  rfl

/-- A row without an argument looks at the whole word: OPCODE must match and ARG must be 0 (R92, R94). -/
theorem and_wordMask_eq_iff (w : Word) {p : Word} (hp : p.toNat < 256) :
    w &&& 0xFFFFFFFF = p ↔ opcodeOf w = p.toNat ∧ argOf w = 0 := by
  have hmask : w &&& 0xFFFFFFFF = w := BitVec.and_allOnes
  rw [hmask, ← BitVec.toNat_inj, opcodeOf, argOf]
  omega

/-- Every row fixes OPCODE, and either leaves ARG free or requires the whole word (R92). -/
theorem opcodeTable_form : ∀ row ∈ opcodeTable,
    row.pattern.toNat < 256 ∧ (row.mask = 0x000000FF ∨ row.mask = 0xFFFFFFFF) := by decide

/-- A word selects a row by its OPCODE, and by ARG = 0 unless the row takes an argument (R92, R94). -/
theorem selects_iff {row : OpcodeRow} (hrow : row ∈ opcodeTable) (w : Word) :
    w &&& row.mask = row.pattern ↔
      opcodeOf w = row.pattern.toNat ∧ (row.mask = 0x000000FF ∨ argOf w = 0) := by
  obtain ⟨hpattern, hmask | hmask⟩ := opcodeTable_form row hrow
  · rw [hmask, and_opcodeMask_eq_iff]
    simp
  · rw [hmask, and_wordMask_eq_iff w hpattern]
    simp

/-- No two rows have the same OPCODE. -/
theorem opcodeTable_patterns_nodup : (opcodeTable.map OpcodeRow.pattern).Nodup := by decide

/-- The rows do not overlap: a word selects at most one of them (R92). -/
theorem selected_row_unique {w : Word} {row row' : OpcodeRow} (hrow : row ∈ opcodeTable)
    (hrow' : row' ∈ opcodeTable) (hsel : w &&& row.mask = row.pattern) (hsel' : w &&& row'.mask = row'.pattern) :
    row = row' := by
  obtain ⟨hop, -⟩ := (selects_iff hrow w).mp hsel
  obtain ⟨hop', -⟩ := (selects_iff hrow' w).mp hsel'
  exact List.inj_on_of_nodup_map opcodeTable_patterns_nodup hrow hrow' (BitVec.eq_of_toNat_eq (hop.symm.trans hop'))

/-! ### What the decoder makes of a word -/

/-- A word that selects a row decodes to the row's command with the word's ARG (R92). -/
theorem decode_of_selects {row : OpcodeRow} (hrow : row ∈ opcodeTable) {w : Word}
    (hsel : w &&& row.mask = row.pattern) : decode w = .command (row.command (argOf w)) := by
  obtain ⟨hop, harg⟩ := (selects_iff hrow w).mp hsel
  simp only [opcodeTable, List.mem_cons, List.not_mem_nil, or_false] at hrow
  obtain rfl | rfl | rfl | rfl | rfl | rfl | rfl | rfl := hrow <;> simp_all [decode, withoutArg]

/-- OPCODE 0x00 and 0x09 to 0xFF are reserved (R93). -/
theorem decode_reservedOpcode {w : Word} (h : opcodeOf w = 0x00 ∨ 0x09 ≤ opcodeOf w) :
    decode w = .illegal .reservedOpcode := by
  unfold decode
  repeat rw [if_neg (by omega)]

/-- ARG must be 0 in MODEXP, EGCD, MODINV, ENCRYPT and DECRYPT (R94). -/
theorem decode_reservedArg {w : Word} (hop : opcodeOf w ∈ [0x01, 0x02, 0x03, 0x07, 0x08]) (harg : argOf w ≠ 0) :
    decode w = .illegal .reservedArg := by
  simp only [List.mem_cons, List.not_mem_nil, or_false] at hop
  obtain hop | hop | hop | hop | hop := hop <;> simp [decode, withoutArg, hop, harg]

/-- The words with a reserved OPCODE, or with a non-zero ARG where ARG must be 0 (R93, R94). -/
def ReservedWord (w : Word) : Prop :=
  opcodeOf w = 0x00 ∨ 0x09 ≤ opcodeOf w ∨ (opcodeOf w ∈ [0x01, 0x02, 0x03, 0x07, 0x08] ∧ argOf w ≠ 0)

theorem decode_reserved {w : Word} (h : ReservedWord w) : ∃ why, decode w = .illegal why := by
  obtain hop | hop | ⟨hop, harg⟩ := h
  · exact ⟨_, decode_reservedOpcode (.inl hop)⟩
  · exact ⟨_, decode_reservedOpcode (.inr hop)⟩
  · exact ⟨_, decode_reservedArg hop harg⟩

/-- A word that selects no row is reserved: its OPCODE is in no row, or its row requires ARG = 0 (R93, R94). -/
theorem reserved_of_no_row {w : Word} (h : ∀ row ∈ opcodeTable, w &&& row.mask ≠ row.pattern) :
    ReservedWord w := by
  have hno : ∀ row ∈ opcodeTable,
      ¬(opcodeOf w = row.pattern.toNat ∧ (row.mask = 0x000000FF ∨ argOf w = 0)) :=
    fun row hrow hsel => h row hrow ((selects_iff hrow w).mpr hsel)
  simp only [opcodeTable, List.forall_mem_cons, BitVec.reduceToNat, BitVec.reduceEq, true_or, false_or,
    and_true] at hno
  simp only [ReservedWord, List.mem_cons, List.not_mem_nil, or_false]
  omega

/-- Settles O2: `decode_of_selects`, and a word that selects no row is reserved, so illegal. -/
theorem decodeFollowsOpcodeMap : Obligations.DecodeFollowsOpcodeMap :=
  fun _ => ⟨fun _ hrow hsel => decode_of_selects hrow hsel, fun hno => decode_reserved (reserved_of_no_row hno)⟩

end Sys2Proof

namespace Sys2Proof.Machine

/-! ### Acceptance and the step -/

/-- Settles O5: CMD is the control register at 0x0C and its write is `State.accept`; while BUSY no write is taken. -/
theorem commandAcceptance : Obligations.CommandAcceptance :=
  fun s word => ⟨fun hidle => hostWrite_idle hidle (locate_csr s.width .cmd) rfl,
    fun hbusy => hostWrite_busy hbusy _ word⟩

/-- An outside event is one step of its own (log entry 3). -/
theorem step_event {s : State} {e : Input} {rest : List Input} (hinputs : s.inputs = e :: rest)
    (he : e ≠ .coreTurn) : step s = .next (State.receive { s with inputs := rest } e) := by
  unfold step nextStep
  rw [hinputs]
  cases e with
  | coreTurn => exact absurd rfl he
  | _ => rfl

theorem step_coreTurn {s : State} {rest : List Input} (hinputs : s.inputs = .coreTurn :: rest) :
    step s = coreTurn { s with inputs := rest } := by
  unfold step nextStep
  rw [hinputs]

/-- A held illegal word completes with IllegalCommand (R93, R94). -/
theorem coreTurn_illegal {s : State} {word : Word} {req : Option Request} {why : Illegal}
    (hseq : s.seq = .busy word req) (hill : decode word = .illegal why) :
    coreTurn s = .next (s.fail .illegalCommand) := by
  simp [coreTurn, hseq, hill]

/-- The host's write of a command word in an idle block: OKAY, and the word is accepted (R95). -/
theorem step_hostWrite_cmd {s : State} {word : Word} {rest : List Input} (hidle : s.seq = .idle)
    (hinputs : s.inputs = .hostWrite 0x0C word :: rest) :
    step s = .next { s.accept word with inputs := rest, port := some (.write .okay) } := by
  obtain ⟨hwrite, -⟩ := commandAcceptance { s with inputs := rest } word
  rw [step_event hinputs nofun, State.receive, hwrite hidle]
  rfl

/-- Settles O4: a reserved word is accepted like any other and the CORE's turn finds it illegal; by O2 a word that
selects no row is illegal, and the rows do not overlap. -/
theorem illegalWordsEndInIllegalCommand : Obligations.IllegalWordsEndInIllegalCommand := by
  refine ⟨fun s word rest hidle hinputs hreserved => ?_, fun word => ?_⟩
  · obtain ⟨why, hill⟩ := decode_reserved hreserved
    refine ⟨_, step_hostWrite_cmd hidle hinputs, rfl, ?_⟩
    rw [step_coreTurn rfl, coreTurn_illegal rfl hill]
    rfl
  · by_cases hsel : ∃ row ∈ opcodeTable, word &&& row.mask = row.pattern
    · obtain ⟨row, hrow, hmatch⟩ := hsel
      exact .inl ⟨row, ⟨hrow, hmatch⟩,
        fun _ ⟨hrow', hmatch'⟩ => selected_row_unique hrow' hrow hmatch' hmatch⟩
    · obtain ⟨-, hillegal⟩ := decodeFollowsOpcodeMap word
      exact .inr (hillegal fun row hrow hmatch => hsel ⟨row, hrow, hmatch⟩)

end Sys2Proof.Machine
end

section
/-!
The family of 40_modexp.md: the value of `modexp` (R125) and the command MODEXP (R127).
-/

namespace Sys2Proof.Machine

/-! ### The value of `modexp` -/

theorem lt_two_pow_bitlen (v : Nat) : v < 2 ^ bitlen v := by
  rw [bitlen_eq_size]
  exact Nat.lt_size_self v

/-- Square-and-multiply from the reduced base gives the power of the base itself (R125, R126). -/
theorem modexp_eq_pow_mod (b e : Nat) {n : Nat} (hn : 1 ≤ n) : modexp b e n = b ^ e % n := by
  calc modexp b e n = 1 % n * (b % n) ^ e % n :=
        modexpLoop_eq n hn _ _ _ _ (lt_two_pow_bitlen e) (Nat.mod_lt 1 hn)
    _ = b ^ e % n := by rw [Nat.mod_mul_mod, one_mul, ← Nat.pow_mod]

/-- Settles O22: `modexp_eq_pow_mod`, and a power may be taken of the base's remainder. -/
theorem modexpIsPowerModulo : Obligations.ModexpIsPowerModulo := by
  intro b e n hn
  rw [modexp_eq_pow_mod b e hn, modexp_eq_pow_mod (b % n) e hn]
  exact ⟨rfl, Nat.mod_lt _ hn, Nat.pow_mod b e n⟩

/-! ### MODEXP -/

/-- MODEXP with modulus 0 ends in BadOperand (R127). -/
theorem exec_modexp_zero_modulus {s : State} (h : s.opc = 0) : exec .modexp s = .next (s.fail .badOperand) :=
  if_pos h

/-- MODEXP with a modulus writes the power's remainder to RES0 and completes (R127). -/
theorem exec_modexp_of_modulus {s : State} (h : s.opc ≠ 0) :
    exec .modexp s = .next (s.ures0 (s.opa ^ s.opb % s.opc)).complete := by
  rw [← modexp_eq_pow_mod s.opa s.opb (Nat.one_le_iff_ne_zero.mpr h)]
  exact if_neg h

/-- Settles O23: the two outcomes by OPC, and the word by the decoder's rule for a reserved ARG. -/
theorem modexpCommand : Obligations.ModexpCommand :=
  ⟨fun _ => exec_modexp_zero_modulus, fun _ => exec_modexp_of_modulus, by decide,
    fun _ hop => decode_reservedArg (by simp [hop])⟩

end Sys2Proof.Machine
end

section
/-!
The family of 41_modinv.md: the extended Euclidean engine (R140, R141) and the value of `mod_inverse` (R143, R145).
-/

namespace Sys2Proof.Machine

/-! ### The extended Euclidean engine -/

@[simp] theorem egcd_zero_right (a : Int) : egcd a 0 = ⟨a, 1, 0⟩ := rfl

/-- One iteration of R140, read as a call of the engine on the next pair. -/
theorem egcd_of_ne_zero (a : Int) {b : Int} (hb : b ≠ 0) : egcd a b =
    ⟨(egcd b (a.fmod b)).g, (egcd b (a.fmod b)).y,
      (egcd b (a.fmod b)).x - a.fdiv b * (egcd b (a.fmod b)).y⟩ := by
  have hlt := natAbs_fmod_lt a b hb
  have hfuel := egcdLoop_fuel b.natAbs ((a.fmod b).natAbs + 1) b (a.fmod b) 1 0 0 1 hlt (by omega)
  rw [egcd, egcdLoop, if_neg hb, sub_fdiv_mul, egcdLoop_linear, hfuel]
  simp [egcd, sub_eq_add_neg]

/-- Induction along the pairs the engine goes through (R141 item 1). -/
theorem egcd_induction {P : Int → Int → Prop} (zero : ∀ a, P a 0)
    (step : ∀ a b, b ≠ 0 → P b (a.fmod b) → P a b) (a b : Int) : P a b := by
  induction hk : b.natAbs using Nat.strong_induction_on generalizing a b with
  | _ k ih =>
    subst hk
    by_cases hb : b = 0
    · exact hb ▸ zero a
    · exact step a b hb (ih _ (natAbs_fmod_lt a b hb) b (a.fmod b) rfl)

/-- The Bezout identity (R141 item 2). -/
theorem egcd_bezout (a b : Int) : a * (egcd a b).x + b * (egcd a b).y = (egcd a b).g := by
  induction a, b using egcd_induction with
  | zero a => simp
  | step a b hb ih =>
    rw [egcd_of_ne_zero a hb, ← ih]
    linear_combination -(egcd b (a.fmod b)).y * Int.mul_fdiv_add_fmod a b

/-- The engine's g is the greatest common divisor up to sign (R141 item 2). -/
theorem natAbs_egcd_g (a b : Int) : (egcd a b).g.natAbs = Int.gcd a b := by
  induction a, b using egcd_induction with
  | zero a => simp
  | step a b hb ih =>
    calc (egcd a b).g.natAbs = Int.gcd b (a.fmod b) := by rw [egcd_of_ne_zero a hb, ih]
      _ = Int.gcd b a := by rw [← sub_fdiv_mul, Int.gcd_sub_mul_right_right]
      _ = Int.gcd a b := Int.gcd_comm b a

/-- The sign of g is the sign of b: every later remainder is 0 or has it (R141 item 3). -/
theorem egcd_g_sign (a b : Int) : (0 < b → 0 < (egcd a b).g) ∧ (b < 0 → (egcd a b).g < 0) := by
  induction a, b using egcd_induction with
  | zero a => simp
  | step a b hb ih =>
    rw [egcd_of_ne_zero a hb]
    by_cases hr : a.fmod b = 0
    · simp [hr]
    · obtain ⟨ihpos, ihneg⟩ := ih
      refine ⟨fun hpos => ihpos ?_, fun hneg => ihneg ?_⟩
      · have := Int.fmod_nonneg_of_pos a hpos
        omega
      · obtain ⟨-, _⟩ := fmod_of_neg a b hneg
        omega

theorem egcd_g_pos (a : Int) {b : Int} (hb : 0 < b) : 0 < (egcd a b).g :=
  (egcd_g_sign a b).left hb

theorem egcd_g_neg (a : Int) {b : Int} (hb : b < 0) : (egcd a b).g < 0 :=
  (egcd_g_sign a b).right hb

theorem egcd_g_of_pos (a : Int) {b : Int} (hb : 0 < b) : (egcd a b).g = Int.gcd a b := by
  have := egcd_g_pos a hb
  have := natAbs_egcd_g a b
  omega

theorem egcd_g_of_neg (a : Int) {b : Int} (hb : b < 0) : (egcd a b).g = -Int.gcd a b := by
  have := egcd_g_neg a hb
  have := natAbs_egcd_g a b
  omega

/-! ### The modular inverse -/

/-- The test of R143 asks whether the operands are coprime. -/
theorem egcd_g_nonunit_iff (a m : Int) : ((egcd a m).g ≠ 1 ∧ (egcd a m).g ≠ -1) ↔ Int.gcd a m ≠ 1 := by
  rw [← natAbs_egcd_g]
  omega

theorem modInverse_of_gcd_ne_one {a m : Int} (h : Int.gcd a m ≠ 1) : modInverse a m = .noInverse :=
  if_pos ((egcd_g_nonunit_iff a m).mpr h)

theorem modInverse_zero_of_gcd_eq_one {a : Int} (h : Int.gcd a 0 = 1) : modInverse a 0 = .zeroModulus := by
  simp only [modInverse, egcd_g_nonunit_iff, h, ne_eq, not_true, if_false, if_true]

/-- The second reduction of R143 changes nothing: floor modulo is already in the modulus's range. -/
theorem modInverse_of_gcd_eq_one {a m : Int} (hm : m ≠ 0) (h : Int.gcd a m = 1) :
    modInverse a m = .value ((egcd a m).x.fmod m) := by
  simp only [modInverse, egcd_g_nonunit_iff, h, hm, ne_eq, not_true, if_false, Int.add_fmod_right, Int.fmod_fmod]

/-- The reduced coefficient times a is the engine's g modulo m, so 1 or -1 by the sign of m. -/
theorem mul_egcd_x_fmod_modEq (a m : Int) : a * (egcd a m).x.fmod m ≡ (egcd a m).g [ZMOD m] := by
  have hx : (egcd a m).x.fmod m ≡ (egcd a m).x [ZMOD m] := Int.modEq_iff_dvd.mpr Int.dvd_self_sub_fmod
  calc a * (egcd a m).x.fmod m ≡ a * (egcd a m).x [ZMOD m] := hx.mul_left a
    _ ≡ a * (egcd a m).x + m * (egcd a m).y [ZMOD m] := Int.modEq_add_modulus_mul_iff.mpr rfl
    _ = (egcd a m).g := egcd_bezout a m

/-- Two inverses of one number are congruent, so equal when both are reduced. -/
theorem inverse_unique {a m u v : Int} (hu : a * u ≡ 1 [ZMOD m]) (hv : a * v ≡ 1 [ZMOD m])
    (hu0 : 0 ≤ u) (hum : u < m) (hv0 : 0 ≤ v) (hvm : v < m) : u = v := by
  have huv : u ≡ v [ZMOD m] :=
    calc u = u * 1 := (mul_one u).symm
      _ ≡ u * (a * v) [ZMOD m] := hv.symm.mul_left u
      _ = v * (a * u) := by ring
      _ ≡ v * 1 [ZMOD m] := hu.mul_left v
      _ = v := mul_one v
  calc u = u % m := (Int.emod_eq_of_lt hu0 hum).symm
    _ = v % m := huv
    _ = v := Int.emod_eq_of_lt hv0 hvm

/-- Coprime operands and a positive modulus: the inverse, in [0, m) (R145). -/
theorem modInverse_of_pos {a m : Int} (hm : 0 < m) (h : Int.gcd a m = 1) :
    ∃ v, modInverse a m = .value v ∧ 0 ≤ v ∧ v < m ∧ a * v ≡ 1 [ZMOD m] := by
  have hmul := mul_egcd_x_fmod_modEq a m
  rw [egcd_g_of_pos a hm, h] at hmul
  exact ⟨_, modInverse_of_gcd_eq_one hm.ne' h, Int.fmod_nonneg_of_pos _ hm, Int.fmod_lt_of_pos _ hm, hmul⟩

/-- Coprime operands and a negative modulus: the negative of the inverse, in (m, 0] (R145). -/
theorem modInverse_of_neg {a m : Int} (hm : m < 0) (h : Int.gcd a m = 1) :
    ∃ v, modInverse a m = .value v ∧ m < v ∧ v ≤ 0 ∧ a * v ≡ -1 [ZMOD -m] := by
  obtain ⟨hlow, hhigh⟩ := fmod_of_neg (egcd a m).x m hm
  have hmul := mul_egcd_x_fmod_modEq a m
  rw [egcd_g_of_neg a hm, h] at hmul
  exact ⟨_, modInverse_of_gcd_eq_one hm.ne h, hlow, hhigh, Int.modEq_neg.mpr hmul⟩

/-- Settles O28: g is the gcd with the sign of m, and `modInverse_of_pos` and `modInverse_of_neg` give the value; for
m = 1 and m = -1 its range holds 0 alone. -/
theorem modInverseBySign : Obligations.ModInverseBySign := by
  refine fun a m => ⟨fun hm => ?pos, ?one, ?zero, ?negOne, fun hm => ?neg⟩
  case pos =>
    have hpos : 0 < m := by omega
    have hg := egcd_g_of_pos a hpos
    refine ⟨egcd_g_pos a hpos, by omega, fun h => ?_, modInverse_of_gcd_ne_one⟩
    obtain ⟨v, hval, hv0, hvm, hmul⟩ := modInverse_of_pos hpos h
    exact ⟨v, hval, hv0, hvm, hmul, fun u hu0 hum hu => inverse_unique hu hmul hu0 hum hv0 hvm⟩
  case one =>
    have h : Int.gcd a 1 = 1 := Int.gcd_one_right a
    obtain ⟨v, hval, hv0, hvm, -⟩ := modInverse_of_pos one_pos h
    obtain rfl : v = 0 := by omega
    exact ⟨by rw [egcd_g_of_pos a one_pos, h, Nat.cast_one], hval⟩
  case zero =>
    have hgcd : Int.gcd a 0 = a.natAbs := Int.gcd_zero_right a
    exact ⟨rfl, fun h => modInverse_zero_of_gcd_eq_one (by omega),
      fun h1 hneg => modInverse_of_gcd_ne_one (by omega)⟩
  case negOne =>
    have h : Int.gcd a (-1) = 1 := by simp
    obtain ⟨v, hval, hlow, hhigh, -⟩ := modInverse_of_neg (show (-1 : Int) < 0 by decide) h
    obtain rfl : v = 0 := by omega
    exact ⟨by rw [egcd_g_of_neg a (by decide), h, Nat.cast_one], hval⟩
  case neg =>
    have hneg : m < 0 := by omega
    have hg := egcd_g_of_neg a hneg
    exact ⟨egcd_g_neg a hneg, by omega, modInverse_of_neg hneg, modInverse_of_gcd_ne_one⟩

end Sys2Proof.Machine
end

section
/-!
The family of 42_primality.md: the decomposition of n - 1 (R162), what a round tests (R163), why a prime passes every
round, the tester's early returns (R161) and the outcomes of ISPRIME (R167).
-/

namespace Sys2Proof.Machine

/-! ### The decomposition -/

/-- Settles O30: the halving loop on n - 1, with fuel enough; r = 0 would leave d = n - 1, which is even. -/
theorem millerRabinDecomposition : Obligations.MillerRabinDecomposition := by
  intro n hodd hn
  have hfuel : n - 1 < 2 ^ bitlen n := (n.sub_le 1).trans_lt (lt_two_pow_bitlen n)
  obtain ⟨hd, -, hr, hprod⟩ := halveLoop_spec (bitlen n) (n - 1) 0 (by omega) hfuel
  rw [← decompose, Nat.sub_zero] at hprod
  rw [← decompose] at hd hr
  refine ⟨hprod, hd, by omega, Nat.one_le_iff_ne_zero.mpr fun hr0 => ?_, by omega⟩
  rw [hr0, pow_zero, mul_one] at hprod
  omega

/-! ### What a round tests -/

/-- A round through plain powers: the first test is for 1, the second and the squarings for n - 1 at the exponents
d * 2^j with j = 0 and j >= 1 (R163). -/
theorem roundPasses_iff {n r : Nat} (d a : Nat) (hn : 1 ≤ n) (hr : 1 ≤ r) :
    roundPasses n d r a = true ↔ a ^ d % n = 1 ∨ ∃ j, j < r ∧ a ^ (d * 2 ^ j) % n = n - 1 := by
  have hsquarings := squaringsHit_spec n (r - 1) (a ^ d % n) (a ^ d) rfl
  simp only [← pow_mul] at hsquarings
  simp only [roundPasses, modexp_eq_pow_mod a d hn, Bool.or_eq_true, decide_eq_true_eq, hsquarings, or_assoc]
  refine or_congr_right ⟨?_, ?_⟩
  · rintro (h0 | ⟨j, -, hj, h⟩)
    · exact ⟨0, hr, by simpa using h0⟩
    · exact ⟨j, by omega, h⟩
  · rintro ⟨_ | j, hj, h⟩
    · exact .inl (by simpa using h)
    · exact .inr ⟨j + 1, by omega, by omega, h⟩

/-! ### A prime passes every round -/

/-- Where 1 has no square roots but 1 and -1, repeated squaring that ends in 1 starts at 1 or goes through -1. -/
theorem eq_one_or_exists_pow_eq_neg_one {R : Type} [CommRing R] [IsDomain R] {x : R} {r : Nat}
    (h : x ^ 2 ^ r = 1) : x = 1 ∨ ∃ j < r, x ^ 2 ^ j = -1 := by
  induction r with
  | zero => exact .inl (by simpa using h)
  | succ r ih =>
    rw [pow_succ, pow_mul, sq, mul_self_eq_one_iff] at h
    obtain h1 | hneg := h
    · exact (ih h1).imp_right fun ⟨j, hj, hx⟩ => ⟨j, by omega, hx⟩
    · exact .inr ⟨r, by omega, hneg⟩

/-- By Fermat's theorem the powers a^d, a^(2d), ... of a witness end in 1 modulo a prime. -/
theorem roundPasses_of_prime {n a : Nat} (hp : Nat.Prime n) (hn : 5 ≤ n) (ha : 2 ≤ a ∧ a ≤ n - 2) :
    roundPasses n (decompose n).1 (decompose n).2 a = true := by
  obtain ⟨hprod, -, -, hr, -⟩ :=
    millerRabinDecomposition n (hp.eq_two_or_odd.resolve_left (by omega)) hn
  have : Fact (Nat.Prime n) := ⟨hp⟩
  have ha0 : (a : ZMod n) ≠ 0 := by
    rw [ne_eq, ZMod.natCast_eq_zero_iff]
    exact Nat.not_dvd_of_pos_of_lt (by omega) (by omega)
  have hend : ((a : ZMod n) ^ (decompose n).1) ^ 2 ^ (decompose n).2 = 1 := by
    rw [← pow_mul, hprod, ZMod.pow_card_sub_one_eq_one ha0]
  have hone (e : Nat) (h : (a : ZMod n) ^ e = 1) : a ^ e % n = 1 := by
    rw [← Nat.mod_eq_of_lt hp.one_lt, ← ZMod.natCast_eq_natCast_iff']
    exact_mod_cast h
  have hneg (e : Nat) (h : (a : ZMod n) ^ e = -1) : a ^ e % n = n - 1 := by
    rw [← Nat.mod_eq_of_lt (Nat.sub_one_lt hp.ne_zero), ← ZMod.natCast_eq_natCast_iff']
    simpa [Nat.cast_sub hp.one_le] using h
  rw [roundPasses_iff _ _ hp.one_le hr]
  obtain h1 | ⟨j, hj, hminus⟩ := eq_one_or_exists_pow_eq_neg_one hend
  · exact .inl (hone _ h1)
  · exact .inr ⟨j, hj, hneg _ (by rwa [pow_mul])⟩

/-! ### The early returns -/

theorem isProbablePrime_lt_two {n : Nat} (rounds : Nat) (ans : List Nat) (h : n < 2) :
    isProbablePrime n rounds ans = .done false ans :=
  if_pos h

theorem isProbablePrime_two_or_three {n : Nat} (rounds : Nat) (ans : List Nat) (h : n = 2 ∨ n = 3) :
    isProbablePrime n rounds ans = .done true ans := by
  rw [isProbablePrime, if_neg (by omega), if_pos h]

theorem isProbablePrime_even {n : Nat} (rounds : Nat) (ans : List Nat) (h : 2 < n) (heven : n % 2 = 0) :
    isProbablePrime n rounds ans = .done false ans := by
  rw [isProbablePrime, if_neg (by omega), if_neg (by omega), if_pos heven]

/-- Settles O32: one lemma for each early return; what is left over is arithmetic. -/
theorem isprimeEarlyReturns : Obligations.IsprimeEarlyReturns := fun _ rounds ans =>
  ⟨isProbablePrime_lt_two rounds ans, isProbablePrime_two_or_three rounds ans, isProbablePrime_even rounds ans,
    fun _ _ _ => by omega⟩

/-! ### ISPRIME -/

theorem exec_isprime_zero (s : State) : exec (.isprime 0) s = .next (s.fail .badOperand) := rfl

/-- ISPRIME with rounds completes with the tester's answer, once the tester has one (R166). -/
theorem exec_isprime_of_done {s : State} {rounds : Nat} {b : Bool} {rest : List Nat} (hr : 1 ≤ rounds)
    (h : isProbablePrime s.opa rounds s.answers = .done b rest) :
    exec (.isprime rounds) s = .next ({ s with answers := rest }.setPrime b).complete := by
  simp only [exec, execIsprime, Nat.one_le_iff_ne_zero.mp hr, if_false, h]
  rfl

/-- Settles O33: each row is `exec_isprime_of_done` at what the tester answers there; a prime is the case that all
witnesses pass. -/
theorem isprimeOutcomes : Obligations.IsprimeOutcomes := by
  refine fun s rounds ws rest => ⟨exec_isprime_zero s, fun hr h => ?composite, fun hr h => ?twoOrThree,
    fun hodd hn hr hin hans => ⟨fun hlen h => ?pass, fun hlen pre last hws hpass hfail => ?fail⟩⟩
  case composite =>
    obtain hlt | ⟨hfour, heven⟩ := h
    · exact exec_isprime_of_done hr (isProbablePrime_lt_two rounds s.answers hlt)
    · exact exec_isprime_of_done hr (isProbablePrime_even rounds s.answers (by omega) heven)
  case twoOrThree => exact exec_isprime_of_done hr (isProbablePrime_two_or_three rounds s.answers h)
  case pass =>
    have hpass : ∀ a ∈ ws, roundPasses s.opa (decompose s.opa).1 (decompose s.opa).2 a = true :=
      h.elim id fun hp a ha => roundPasses_of_prime hp hn (hin a ha)
    subst hlen
    exact exec_isprime_of_done hr (hans ▸ isProbablePrime_of_all_pass rest hodd hn hin hpass)
  case fail =>
    subst hws
    rw [List.append_assoc] at hans
    rw [List.length_append] at hlen
    exact exec_isprime_of_done hr (hans ▸ isProbablePrime_of_fail rest hodd hn
      (fun b hb => hin b (by simp [hb])) hpass (hin last (by simp)) hlen hfail)

end Sys2Proof.Machine
end

section
/-!
The family of 43_primegen.md: the range, the length and the bits of a candidate (R176).
-/

namespace Sys2Proof.Machine

/-! ### The form of a candidate -/

/-- A number has exactly k >= 1 significant bits when its top bit has weight 2^(k-1) (R10). -/
theorem bitlen_eq_of_bounds {k c : Nat} (hk : 1 ≤ k) (hge : 2 ^ (k - 1) ≤ c) (hlt : c < 2 ^ k) : bitlen c = k := by
  rw [bitlen_eq_size]
  have hle : c.size ≤ k := Nat.size_le.mpr hlt
  have hgt : k - 1 < c.size := Nat.lt_size.mpr hge
  omega

/-- Below its top bit and above its low bit a candidate has the bits of the answer (R176). -/
theorem candidate_testBit_of_inner (v : Nat) {k j : Nat} (hj : 1 ≤ j) (hjk : j < k - 1) :
    (candidate k v).testBit j = v.testBit j := by
  have htop : k - 1 ≠ j := by omega
  have hlow : j ≠ 0 := by omega
  simp [candidate_testBit, htop, hlow]

/-- Answers of k bits that agree on bits 1 to k-2 form the same candidate (R176). -/
theorem candidate_congr {k u v : Nat} (hu : u < 2 ^ k) (hv : v < 2 ^ k)
    (h : ∀ j, 1 ≤ j → j < k - 1 → u.testBit j = v.testBit j) : candidate k u = candidate k v := by
  refine Nat.eq_of_testBit_eq fun j => ?_
  obtain hends | ⟨hj, hjk⟩ | habove : (k - 1 = j ∨ j = 0) ∨ (1 ≤ j ∧ j < k - 1) ∨ k ≤ j := by omega
  · rw [candidate_testBit, candidate_testBit]
    obtain rfl | rfl := hends <;> simp
  · rw [candidate_testBit_of_inner u hj hjk, candidate_testBit_of_inner v hj hjk, h j hj hjk]
  · have hpow : 2 ^ k ≤ 2 ^ j := Nat.pow_le_pow_right two_pos habove
    rw [candidate_testBit, candidate_testBit, Nat.testBit_lt_two_pow (hu.trans_le hpow),
      Nat.testBit_lt_two_pow (hv.trans_le hpow)]

/-- Settles O35: `candidate_range` gives the bounds, the low bit and so the length; the bits are looked at one by
one. -/
theorem candidateForm : Obligations.CandidateForm := by
  intro k v hk hv
  obtain ⟨hgt, hlt, hodd⟩ := candidate_range hk hv
  exact ⟨hgt, Nat.le_sub_one_of_lt hlt, hodd, bitlen_eq_of_bounds (by omega) hgt.le hlt,
    fun _ hj hjk => candidate_testBit_of_inner v hj hjk, fun _ hu h => candidate_congr hu hv h⟩

end Sys2Proof.Machine
end

section
/-!
The family of 45_cipher.md: ENCRYPT (R207, R208), the encoding that DECRYPT writes (R211, R212) and the round trip of
the two (R213, R214).
-/

namespace Sys2Proof.Machine

/-! ### ENCRYPT -/

/-- The value of a message of n bytes as the sum of R71 over the buffer's bytes. -/
theorem be2nat_readList (m : Memory) (n : Nat) :
    be2nat (m.readList 0 n) = ∑ i ∈ Finset.range n, (m.read i).toNat * 256 ^ (n - 1 - i) := by
  rw [be2nat_eq_sum, Memory.length_readList]
  refine Finset.sum_congr rfl fun i hi => ?_
  rw [Memory.getD_readList m 0 n i (Finset.mem_range.mp hi), Nat.zero_add]

/-- A message longer than the buffer ends ENCRYPT in BadOperand, before its value is looked at (R208). -/
theorem exec_encrypt_too_long {s : State} (h : s.msgBytes < s.msglen.toNat) :
    exec .encrypt s = .next (s.fail .badOperand) := by
  rw [exec_encrypt_eq, if_pos h]

/-- A message value that is no residue modulo PUB_N ends ENCRYPT in OversizedMessage (R208). -/
theorem exec_encrypt_oversized {s : State} (hlen : s.msglen.toNat ≤ s.msgBytes)
    (h : s.pubN ≤ be2nat (s.msg.readList 0 s.msglen.toNat)) :
    exec .encrypt s = .next (s.fail .oversizedMessage) := by
  rw [exec_encrypt_eq, if_neg (Nat.not_lt.mpr hlen), if_pos h]

/-- ENCRYPT of a residue modulo PUB_N writes its power to RES0 and completes (R207). -/
theorem exec_encrypt_of_lt {s : State} (hlen : s.msglen.toNat ≤ s.msgBytes)
    (h : be2nat (s.msg.readList 0 s.msglen.toNat) < s.pubN) :
    exec .encrypt s =
      .next (s.ures0 (be2nat (s.msg.readList 0 s.msglen.toNat) ^ s.pubE % s.pubN)).complete := by
  rw [exec_encrypt_eq, if_neg (Nat.not_lt.mpr hlen), if_neg (Nat.not_le.mpr h),
    modexp_eq_pow_mod _ _ (Nat.one_le_of_lt h)]

/-- ENCRYPT succeeds only on a residue modulo PUB_N, and then it has written the residue's power (R207, R208). -/
theorem encrypt_succeeds {s t : State} (h : Succeeds .encrypt s t) :
    be2nat (s.msg.readList 0 s.msglen.toNat) < s.pubN ∧
      t = (s.ures0 (be2nat (s.msg.readList 0 s.msglen.toNat) ^ s.pubE % s.pubN)).complete := by
  obtain ⟨hexec, -, herr⟩ := h
  by_cases hlong : s.msgBytes < s.msglen.toNat
  · rw [exec_encrypt_too_long hlong, Host.Outcome.next.injEq] at hexec
    simp [← hexec] at herr
  have hlen := Nat.not_lt.mp hlong
  by_cases hbig : s.pubN ≤ be2nat (s.msg.readList 0 s.msglen.toNat)
  · rw [exec_encrypt_oversized hlen hbig, Host.Outcome.next.injEq] at hexec
    simp [← hexec] at herr
  have hlt := Nat.not_le.mp hbig
  rw [exec_encrypt_of_lt hlen hlt, Host.Outcome.next.injEq] at hexec
  exact ⟨hlt, hexec.symm⟩

/-- Settles O45: one lemma for each outcome, with the message value written as its sum. -/
theorem encryptCommand : Obligations.EncryptCommand := by
  refine ⟨fun s m hm => ?_, by decide, fun _ hop => decode_reservedArg (by simp [hop])⟩
  rw [← be2nat_readList] at hm
  subst hm
  exact ⟨exec_encrypt_too_long, exec_encrypt_oversized,
    fun hlen hlt => ⟨Nat.mod_lt _ (Nat.zero_lt_of_lt hlt), exec_encrypt_of_lt hlen hlt⟩⟩

/-! ### The encoding that DECRYPT writes -/

/-- The shortest encoding with the zero value no special case: at least one byte, and as many as hold the value. -/
theorem nat2be_eq_natBytes (v : Nat) : nat2be v = natBytes (max 1 ((v.size + 7) / 8)) v := by
  rcases Nat.eq_zero_or_pos v with rfl | hv
  · decide
  · obtain ⟨hpos, -, -⟩ := byteCount_bounds hv
    rw [nat2be_of_pos hv, ← bitlen_eq_size, max_eq_right hpos]

theorem length_nat2be_eq_max (v : Nat) : (nat2be v).length = max 1 ((v.size + 7) / 8) := by
  rw [nat2be_eq_natBytes, length_natBytes]

/-- A value below 2^W has its encoding fit in the W / 8 bytes of the buffer, W legal (R211). -/
theorem length_nat2be_le {w v : Nat} (hw : Config.LegalWidth w) (hv : v < 2 ^ w) : (nat2be v).length ≤ w / 8 := by
  obtain ⟨hmod, hmin, -⟩ := hw
  have hsize : v.size ≤ w := Nat.size_le.mpr hv
  rw [length_nat2be_eq_max]
  omega

/-- The buffer DECRYPT writes is the encoding with zeros behind it. -/
theorem getD_decryptedBuffer (s : State) (v j : Nat) : (s.decryptedBuffer v).getD j 0 = (nat2be v).getD j 0 := by
  rcases Nat.lt_or_ge j (nat2be v).length with hj | hj
  · exact List.getD_append _ _ _ _ hj
  · rw [State.decryptedBuffer, List.getD_append_right _ _ _ _ hj, List.getD_eq_getElem?_getD,
      List.getElem?_getD_replicate_default_eq, List.getD_eq_default _ _ hj]

/-! ### DECRYPT -/

theorem pow_mod_lt_two_pow {w n : Nat} (b e : Nat) (h : n ≠ 0) (hn : n < 2 ^ w) : b ^ e % n < 2 ^ w :=
  (Nat.mod_lt _ (Nat.pos_of_ne_zero h)).trans hn

/-- What DECRYPT of the value `v` leaves: the whole buffer overwritten, MSGLEN the length of the encoding (R211). -/
def State.decrypted (s : State) (v : Nat) : State :=
  State.complete { s with
    msg := s.msg.writeList 0 (s.decryptedBuffer v), msglen := BitVec.ofNat 32 (nat2be v).length }

/-- DECRYPT with modulus 0 ends in BadOperand (R212). -/
theorem exec_decrypt_zero_modulus {s : State} (h : s.privN = 0) : exec .decrypt s = .next (s.fail .badOperand) := by
  rw [exec_decrypt_eq, if_pos h]

/-- DECRYPT with a modulus that a register holds never faults: the remainder's encoding fits (R70, R211). -/
theorem exec_decrypt_of_modulus {s : State} (hw : Config.LegalWidth s.width) (hn : s.privN < 2 ^ s.width)
    (h : s.privN ≠ 0) : exec .decrypt s = .next (s.decrypted (s.opa ^ s.privD % s.privN)) := by
  have hfits := length_nat2be_le hw (pow_mod_lt_two_pow s.opa s.privD h hn)
  rw [exec_decrypt_eq, if_neg h, modexp_eq_pow_mod _ _ (Nat.one_le_iff_ne_zero.mpr h),
    if_pos (length_decryptedBuffer s _ hfits).le]
  rfl

/-- After DECRYPT the buffer reads as the encoding, and every byte behind it as 0 (R211). -/
theorem State.read_decrypted {s : State} {v : Nat} (hinv : s.Inv) (hv : (nat2be v).length ≤ s.msgBytes) (j : Nat) :
    (s.decrypted v).msg.read j = (nat2be v).getD j 0 := by
  have hread := Memory.read_writeList s.msg 0 j (s.decryptedBuffer v) hinv.msgForm
  rw [length_decryptedBuffer s v hv] at hread
  rcases Nat.lt_or_ge j s.msgBytes with hj | hj
  · rw [if_pos (by omega), Nat.sub_zero, getD_decryptedBuffer] at hread
    exact hread
  · rw [if_neg (by omega), Memory.read_unlisted fun c hc => ((hinv.msgIndex c hc).trans_le hj).ne] at hread
    rw [List.getD_eq_default _ _ (hv.trans hj)]
    exact hread

/-- DECRYPT completes with the encoding of OPA ^ PRIV_D mod PRIV_N as the message MSG[0 .. MSGLEN-1] (R211). -/
theorem decrypt_message {s : State} {v : Nat} (hw : Config.LegalWidth s.width) (hmsg : s.msg.wf = true)
    (hn : s.privN < 2 ^ s.width) (h : s.privN ≠ 0) (hv : s.opa ^ s.privD % s.privN = v) :
    ∃ u, exec .decrypt s = .next u ∧ u.busy = false ∧ u.err = s.err ∧
      u.msg.readList 0 u.msglen.toNat = nat2be v := by
  subst hv
  refine ⟨_, exec_decrypt_of_modulus hw hn h, rfl, rfl, ?_⟩
  have hlen := length_nat2be_le hw (pow_mod_lt_two_pow s.opa s.privD h hn)
  obtain ⟨-, -, hmax⟩ := hw
  have hmsglen : (s.decrypted (s.opa ^ s.privD % s.privN)).msglen.toNat =
      (nat2be (s.opa ^ s.privD % s.privN)).length := Nat.mod_eq_of_lt (by omega)
  rw [hmsglen]
  exact Memory.readList_writeList _ _ _ hmsg

/-- Settles O46: the encoding has k bytes, it fits, and `State.read_decrypted` says what every byte is. -/
theorem decryptCommand : Obligations.DecryptCommand := by
  refine ⟨fun _ => exec_decrypt_zero_modulus, fun s v k hinv hn hv hk => ?_, by decide,
    fun _ hop => decode_reservedArg (by simp [hop])⟩
  subst hv
  have hnW : s.privN < 2 ^ s.width := hinv.regs .privN
  have hfits := length_nat2be_le hinv.width (pow_mod_lt_two_pow s.opa s.privD hn hnW)
  have hlen := (length_nat2be_eq_max (s.opa ^ s.privD % s.privN)).trans hk.symm
  refine ⟨(s.decrypted (s.opa ^ s.privD % s.privN)).msg, ?next, hlen ▸ hfits, fun j hj => ?encoding,
    fun j hj => ?zeros⟩
  case next =>
    rw [exec_decrypt_of_modulus hinv.width hnW hn, ← hlen]
    rfl
  case encoding =>
    rw [← getD_natBytes _ _ _ hj, hk, ← nat2be_eq_natBytes]
    exact congrArg BitVec.toNat (State.read_decrypted hinv hfits j)
  case zeros => exact (State.read_decrypted hinv hfits j).trans (List.getD_eq_default _ _ (hlen ▸ hj))

/-! ### Messages that are the encoding of their value -/

/-- A message that begins with no zero byte is the encoding of its value: its length is the shortest (R214). -/
theorem nat2be_be2nat_cons {b : Byte} (bs : List Byte) (hb : b ≠ 0) : nat2be (be2nat (b :: bs)) = b :: bs := by
  have hlow : 2 ^ (8 * bs.length) ≤ be2nat (b :: bs) := by
    have hpos : 0 < b.toNat := Nat.pos_of_ne_zero fun h => hb (BitVec.eq_of_toNat_eq h)
    rw [be2nat_cons, pow_mul]
    exact (Nat.le_mul_of_pos_left _ hpos).trans (Nat.le_add_right _ _)
  have hhigh : be2nat (b :: bs) < 2 ^ (8 * (bs.length + 1)) := by
    rw [pow_mul]
    exact be2nat_lt (b :: bs)
  have hlen : max 1 ((Nat.size (be2nat (b :: bs)) + 7) / 8) = (b :: bs).length := by
    have hgt := Nat.lt_size.mpr hlow
    have hle := Nat.size_le.mpr hhigh
    rw [List.length_cons]
    omega
  rw [nat2be_eq_natBytes, hlen, natBytes_be2nat]

/-- The messages that are the encoding of their value (R214). -/
theorem nat2be_be2nat_eq_iff (bs : List Byte) :
    nat2be (be2nat bs) = bs ↔ bs ≠ [] ∧ (bs.head? ≠ some 0 ∨ bs = [0]) := by
  constructor
  · intro h
    rcases Nat.eq_zero_or_pos (be2nat bs) with hv | hv
    · rw [hv] at h
      exact ⟨h ▸ List.cons_ne_nil _ _, .inr h.symm⟩
    · exact ⟨fun hnil => absurd hv (hnil ▸ lt_irrefl 0), .inl (h ▸ head?_nat2be_ne_zero hv)⟩
  · rintro ⟨hne, hhead | rfl⟩
    · obtain ⟨b, cs, rfl⟩ := List.exists_cons_of_ne_nil hne
      exact nat2be_be2nat_cons cs fun hb => hhead (congrArg some hb)
    · decide

/-! ### The round trip -/

/-- By Fermat's theorem an exponent that is 1 modulo p - 1 changes nothing modulo p, multiples of p included. -/
theorem pow_mul_pred_succ_modEq {p : Nat} (hp : Nat.Prime p) (m k : Nat) : m ^ ((p - 1) * k + 1) ≡ m [MOD p] := by
  have : Fact (Nat.Prime p) := ⟨hp⟩
  rw [← ZMod.natCast_eq_natCast_iff, Nat.cast_pow]
  by_cases hm : (m : ZMod p) = 0
  · rw [hm, zero_pow (Nat.succ_ne_zero _)]
  · rw [pow_succ, pow_mul, ZMod.pow_card_sub_one_eq_one hm, one_pow, one_mul]

/-- Exponents inverse modulo (p-1)(q-1) undo each other on every residue modulo p * q, coprime to it or not (R213). -/
theorem rsa_pow_pow_mod {p q e d m : Nat} (hp : Nat.Prime p) (hq : Nat.Prime q) (hpq : p ≠ q)
    (hed : e * d % ((p - 1) * (q - 1)) = 1) (hm : m < p * q) : (m ^ e % (p * q)) ^ d % (p * q) = m := by
  obtain ⟨k, hk⟩ : ∃ k, e * d = (p - 1) * (q - 1) * k + 1 :=
    ⟨_, hed ▸ (Nat.div_add_mod (e * d) ((p - 1) * (q - 1))).symm⟩
  have hmodp : m ^ (e * d) ≡ m [MOD p] := by
    rw [hk, mul_assoc]
    exact pow_mul_pred_succ_modEq hp m _
  have hmodq : m ^ (e * d) ≡ m [MOD q] := by
    rw [hk, mul_comm (p - 1), mul_assoc]
    exact pow_mul_pred_succ_modEq hq m _
  have hmod : m ^ (e * d) ≡ m [MOD p * q] :=
    (Nat.modEq_and_modEq_iff_modEq_mul ((Nat.coprime_primes hp hq).mpr hpq)).mp ⟨hmodp, hmodq⟩
  calc (m ^ e % (p * q)) ^ d % (p * q) = m ^ (e * d) % (p * q) := by rw [← Nat.pow_mod, pow_mul]
    _ = m % (p * q) := hmod
    _ = m := Nat.mod_eq_of_lt hm

/-- Settles O47: ENCRYPT leaves m^e mod n in RES0, DECRYPT of it writes the encoding of (m^e mod n)^d mod n, which is
m by `rsa_pow_pow_mod`. -/
theorem rsaRoundTrip : Obligations.RsaRoundTrip := by
  intro s t p q bs hinv hserr hp hq hpq hpub hpriv hed hbs henc
  obtain ⟨hm, rfl⟩ := encrypt_succeeds henc
  rw [← hbs] at hm ⊢
  rw [hpub] at hm
  have hn : s.privN ≠ 0 := hpriv ▸ Nat.mul_ne_zero hp.ne_zero hq.ne_zero
  have hnW : s.privN < 2 ^ s.width := hinv.regs .privN
  have hback : (be2nat bs ^ s.pubE % s.pubN) ^ s.privD % s.privN = be2nat bs := by
    rw [hpub, hpriv]
    exact rsa_pow_pow_mod hp hq hpq hed hm
  obtain ⟨u, hexec, hbusy, herr, hmsg⟩ := decrypt_message
    (s := { (s.ures0 (be2nat bs ^ s.pubE % s.pubN)).complete with opa := be2nat bs ^ s.pubE % s.pubN })
    hinv.width hinv.msgForm hnW hn hback
  refine ⟨u, hexec, hbusy, herr.trans hserr, ?_⟩
  rw [hmsg]
  exact ⟨be2nat_nat2be _, rfl, nat2be_be2nat_eq_iff bs⟩

end Sys2Proof.Machine
end

section
/-!
The family of 60_exceptions.md: every cause of BadOperand (R235).
-/

namespace Sys2Proof.Machine

/-! ### Errors that a command's end shows -/

/-- ERRCODE tells the named errors apart (R231). -/
@[simp] theorem CmdError.code_inj {e e' : CmdError} : e.code = e'.code ↔ e = e' := by
  cases e <;> cases e' <;> decide

/-- A command that raises `e` at once ends with the error `e` (R233). -/
theorem failsWith_of_exec_fail {i : Instr} {s : State} {e : CmdError} (h : exec i s = .next (s.fail e)) :
    FailsWith i s e (s.fail e) :=
  ⟨h, rfl, rfl, rfl⟩

/-! ### The BadOperand exit of `mod_inverse` -/

/-- `mod_inverse` leaves by its BadOperand exit exactly for the modulus 0 and a unit (R143, R145). -/
theorem modInverse_eq_zeroModulus_iff (a m : Int) :
    modInverse a m = .zeroModulus ↔ m = 0 ∧ (a = 1 ∨ a = -1) := by
  by_cases hgcd : Int.gcd a m = 1
  · by_cases hm : m = 0
    · subst hm
      have hunit : a = 1 ∨ a = -1 := by
        rw [Int.gcd_zero_right] at hgcd
        omega
      simp [modInverse_zero_of_gcd_eq_one hgcd, hunit]
    · simp [modInverse_of_gcd_eq_one hm hgcd, hm]
  · simp only [modInverse_of_gcd_ne_one hgcd, reduceCtorEq, false_iff]
    rintro ⟨rfl, rfl | rfl⟩ <;> simp at hgcd

/-- The chosen public exponent is coprime to phi (R194). -/
theorem selectExponent_coprime {phi e : Nat} (h : selectExponent phi = some e) : Int.gcd e phi = 1 := by
  unfold selectExponent at h
  have hfound := List.find?_some h
  have hg : (egcd e phi).g = 1 := of_decide_eq_true hfound
  rw [← natAbs_egcd_g, hg, Int.natAbs_one]

/-- For factors above 1 the derivation of the keys fails only for want of a public exponent: phi is not 0 and the
chosen exponent is coprime to it, so neither error exit of `mod_inverse` is reached (R196). -/
theorem deriveKeys_error {p q : Nat} {e : CmdError} (hp : 2 ≤ p) (hq : 2 ≤ q) (h : deriveKeys p q = .error e) :
    e = .noCoprimeExponent := by
  have hphi : (((p - 1) * (q - 1) : Nat) : Int) ≠ 0 :=
    Int.natCast_ne_zero.mpr (Nat.mul_ne_zero (by omega) (by omega))
  unfold deriveKeys at h
  cases hsel : selectExponent ((p - 1) * (q - 1)) with
  | none =>
    rw [hsel] at h
    exact (Except.error.inj h).symm
  | some exponent =>
    simp only [hsel, modInverse_of_gcd_eq_one hphi (selectExponent_coprime hsel), reduceCtorEq] at h

/-- The key generator raises no BadOperand of its own (R196). -/
theorem generateKeys_raised_ne_badOperand {bits : Nat} (hb : 8 ≤ bits) {maxatt att : Word} {ans rest : List Nat}
    {e : CmdError} (h : generateKeys bits maxatt ans = .raised e att rest) : e ≠ .badOperand := by
  obtain ⟨rfl, -, -⟩ | ⟨p, q, -, hp, -, -, hq, -, -, hderive⟩ := generateKeys_raised (by omega) h
  · decide
  · have hpow : 1 ≤ 2 ^ (bits / 2 - 1) := Nat.one_le_two_pow
    simp [deriveKeys_error (by omega) (by omega) hderive]

/-! ### The causes of BadOperand -/

/-- The table of R235: what makes each command raise BadOperand. -/
def BadOperandCause : Instr → State → Prop
  | .modexp, s => s.opc = 0
  | .egcd, _ => False
  | .modinv, s => s.svalB = 0 ∧ (s.svalA = 1 ∨ s.svalA = -1)
  | .isprime rounds, _ => rounds = 0
  | .genprime k, s => k < 2 ∨ s.width < k
  | .genkeys bits, s => bits % 2 = 1 ∨ bits < 8 ∨ s.width < bits
  | .encrypt, s => s.width / 8 < s.msglen.toNat
  | .decrypt, s => s.privN = 0

/-- Where its cause holds, a command raises BadOperand at once. -/
theorem exec_of_badOperandCause {i : Instr} {s : State} (h : BadOperandCause i s) :
    exec i s = .next (s.fail .badOperand) := by
  cases i with
  | modexp => exact exec_modexp_zero_modulus h
  | egcd => exact h.elim
  | modinv =>
    have hzero := (modInverse_eq_zeroModulus_iff s.svalA s.svalB).mpr h
    simp only [exec, execModinv, hzero]
  | isprime rounds =>
    obtain rfl : rounds = 0 := h
    exact exec_isprime_zero s
  | genprime k => exact if_pos h
  | genkeys bits => exact if_pos h
  | encrypt => exact exec_encrypt_too_long h
  | decrypt => exact exec_decrypt_zero_modulus h

/-- A command ends in BadOperand from its cause alone: any other end completes, waits, or has another code. -/
theorem badOperandCause_of_failsWith {i : Instr} {s t : State} (hs : s.err = false)
    (h : FailsWith i s .badOperand t) : BadOperandCause i s := by
  obtain ⟨hexec, hbusy, herr, hcode⟩ := h
  cases i with
  | modexp =>
    obtain ⟨hzero, -⟩ | ⟨-, rfl⟩ := exec_modexp_next hexec
    · exact hzero
    · simp [hs] at herr
  | egcd => simp [exec_egcd_next hexec, hs] at herr
  | modinv =>
    obtain ⟨hzero, -⟩ | ⟨-, rfl⟩ | ⟨v, -, rfl⟩ := exec_modinv_next hexec
    · exact (modInverse_eq_zeroModulus_iff _ _).mp hzero
    · simp at hcode
    · simp [hs] at herr
  | isprime rounds =>
    obtain ⟨hzero, -⟩ | ⟨-, ⟨b, rest, -, rfl⟩ | ⟨req, -, rfl⟩⟩ := exec_isprime_next hexec
    · exact hzero
    · simp [hs] at herr
    · simp at hbusy
  | genprime k =>
    obtain ⟨hrange, -⟩ | ⟨-, -, ⟨c, att, rest, -, rfl⟩ | ⟨e, att, rest, hraised, rfl⟩ | ⟨req, att, -, rfl⟩⟩ :=
      exec_genprime_next hexec
    · exact hrange
    · simp [hs] at herr
    · obtain ⟨rfl, -, -⟩ := generatePrime_raised hraised
      simp at hcode
    · simp at hbusy
  | genkeys bits =>
    obtain ⟨hrange, -⟩ |
      ⟨-, hb, -, ⟨k, att, rest, -, rfl⟩ | ⟨e, att, rest, hraised, rfl⟩ | ⟨req, att, -, rfl⟩⟩ :=
      exec_genkeys_next hexec
    · exact hrange
    · simp [hs] at herr
    · exact absurd (CmdError.code_inj.mp hcode) (generateKeys_raised_ne_badOperand hb hraised)
    · simp at hbusy
  | encrypt =>
    rw [exec_encrypt_eq] at hexec
    split_ifs at hexec with hlong hbig <;> obtain rfl := Host.Outcome.next.inj hexec
    · exact hlong
    · simp at hcode
    · simp [hs] at herr
  | decrypt =>
    obtain ⟨hzero, -⟩ | ⟨-, -, rfl⟩ := exec_decrypt_next hexec
    · exact hzero
    · simp [hs] at herr

theorem exists_failsWith_badOperand_iff (i : Instr) {s : State} (hs : s.err = false) :
    (∃ t, FailsWith i s .badOperand t) ↔ BadOperandCause i s :=
  ⟨fun ⟨_, h⟩ => badOperandCause_of_failsWith hs h,
    fun h => ⟨_, failsWith_of_exec_fail (exec_of_badOperandCause h)⟩⟩

/-- Settles O48: each row is `exists_failsWith_badOperand_iff` at its command. -/
theorem badOperandCauses : Obligations.BadOperandCauses := by
  intro s hs
  have row (i : Instr) := exists_failsWith_badOperand_iff i hs
  exact ⟨row .modexp, (row .egcd).mp, row .modinv, fun rounds => row (.isprime rounds), fun k => row (.genprime k),
    fun bits => row (.genkeys bits), row .encrypt, row .decrypt⟩

end Sys2Proof.Machine
end

section
/-!
The encoding of the commands (30_encoding.md R90 to R94): decoding and encoding are inverse to each other.
-/

namespace Sys2Proof

/-! ### Decode and encode -/

/-- The two fields of a word put together are the word (R90). -/
theorem formatC_fields (w : Word) : formatC (opcodeOf w) (argOf w) = w := by
  apply BitVec.eq_of_toNat_eq
  simp only [opcodeOf, argOf, formatC, BitVec.toNat_ofNat]
  omega

theorem argOf_lt (w : Word) : argOf w < argBound := by
  have := w.isLt
  simp only [argOf, argBound]
  omega

/-- A well-formed command's word selects the command's row, so it decodes to the command (R92). -/
theorem decode_encode {i : Instr} (h : i.wellFormed = true) : decode (encode i) = .command i := by
  have hrow : Laws.OpcodeRow.Statement i := by
    cases i with
    | modexp => exact Laws.OpcodeRow.modexp
    | egcd => exact Laws.OpcodeRow.egcd
    | modinv => exact Laws.OpcodeRow.modinv
    | isprime rounds => exact Laws.OpcodeRow.isprime rounds
    | genprime bitLength => exact Laws.OpcodeRow.genprime bitLength
    | genkeys bits => exact Laws.OpcodeRow.genkeys bits
    | encrypt => exact Laws.OpcodeRow.encrypt
    | decrypt => exact Laws.OpcodeRow.decrypt
  obtain ⟨row, hmem, hsel, hcmd⟩ := hrow h
  rw [decode_of_selects hmem hsel, hcmd]

/-- A legal word selects a row of the opcode map, whose command it stands for (R92). -/
theorem selects_of_decode {w : Word} {i : Instr} (h : decode w = .command i) :
    ∃ row ∈ opcodeTable, w &&& row.mask = row.pattern ∧ row.command (argOf w) = i := by
  by_contra hno
  push Not at hno
  have hill : ∃ why, decode w = .illegal why :=
    decode_reserved (reserved_of_no_row fun row hmem hsel =>
      hno row hmem hsel (Decoded.command.inj ((decode_of_selects hmem hsel).symm.trans h)))
  obtain ⟨why, hwhy⟩ := hill
  rw [h] at hwhy
  cases hwhy

/-- Each row's command is well formed at every ARG that fits, and its encoding puts the row's OPCODE before ARG, or
before 0 where the row requires ARG = 0 (R92, R94). -/
theorem opcodeTable_encode {row : OpcodeRow} (hmem : row ∈ opcodeTable) {arg : Nat} (harg : arg < argBound) :
    (row.command arg).wellFormed = true ∧
      (row.mask = 0x000000FF ∨ arg = 0 → encode (row.command arg) = formatC row.pattern.toNat arg) := by
  simp only [opcodeTable, List.mem_cons, List.not_mem_nil, or_false] at hmem
  obtain rfl | rfl | rfl | rfl | rfl | rfl | rfl | rfl := hmem <;>
    simp [Instr.wellFormed, encode, harg] <;> rintro rfl <;> rfl

/-- A word that decodes to a command is the encoding of that command (R92). -/
theorem wellFormed_and_encode_of_decode {w : Word} {i : Instr} (h : decode w = .command i) :
    i.wellFormed = true ∧ encode i = w := by
  obtain ⟨row, hmem, hsel, rfl⟩ := selects_of_decode h
  obtain ⟨hop, harg⟩ := (selects_iff hmem w).mp hsel
  obtain ⟨hwf, henc⟩ := opcodeTable_encode hmem (argOf_lt w)
  exact ⟨hwf, by rw [henc harg, ← hop, formatC_fields]⟩

/-- Settles O1: an encoding selects its command's row, and a legal word is OPCODE and ARG of the row it selects. -/
theorem decodeAndEncodeAgree : Obligations.DecodeAndEncodeAgree :=
  ⟨fun _ => decode_encode, fun _ _ => wellFormed_and_encode_of_decode⟩

/-- Settles O3: each word is evaluated. -/
theorem sampleWordsDecode : Obligations.SampleWordsDecode := by
  unfold Obligations.SampleWordsDecode
  decide

end Sys2Proof
end

section
/-!
The size of the engine's coefficients (41_modinv.md R141 item 5) and the commands EGCD and MODINV (R142, R144).
-/

namespace Sys2Proof.Machine

/-! ### The engine's triple -/

theorem egcd_zero_left {b : Int} (hb : b ≠ 0) : egcd 0 b = ⟨b, 0, 1⟩ := by
  simp [egcd_of_ne_zero 0 hb]

/-- Settles O24: the Bezout identity, the gcd and its sign are lemmas of the engine; a zero operand ends it at once. -/
theorem egcdBezoutAndSign : Obligations.EgcdBezoutAndSign := fun a b =>
  ⟨egcd_bezout a b, natAbs_egcd_g a b, egcd_g_pos a, egcd_g_neg a, egcd_zero_right a, egcd_zero_left⟩

/-- Settles O26: one iteration is one step of the recursion. -/
theorem egcdEqualsRecursiveForm : Obligations.EgcdEqualsRecursiveForm := by
  intro a b
  split_ifs with hb
  · rw [hb, egcd_zero_right]
  · exact egcd_of_ne_zero a hb

/-! ### The size of the coefficients -/

theorem egcd_of_dvd {a b : Int} (hb : b ≠ 0) (h : b ∣ a) : egcd a b = ⟨b, 0, 1⟩ := by
  have hr : a.fmod b = 0 := Int.fmod_eq_zero_of_dvd h
  simp [egcd_of_ne_zero a hb, hr]

theorem natAbs_egcd_g_pos (a : Int) {b : Int} (hb : b ≠ 0) : 0 < (egcd a b).g.natAbs := by
  rw [natAbs_egcd_g]
  exact Int.gcd_pos_of_ne_zero_right a hb

/-- The second cofactor is bounded by the first operand, if the first is by the second: the Bezout identity leaves
less than one multiple of g over, and g divides the operand. -/
theorem natAbs_egcd_y_mul_le {a b : Int} (hb : b ≠ 0) (hdvd : ¬ b ∣ a)
    (hx : (egcd a b).x.natAbs * (egcd a b).g.natAbs ≤ b.natAbs) :
    (egcd a b).y.natAbs * (egcd a b).g.natAbs ≤ a.natAbs := by
  have hgpos := natAbs_egcd_g_pos a hb
  have hga : (egcd a b).g.natAbs ∣ a.natAbs := natAbs_egcd_g a b ▸ Int.gcd_dvd_natAbs_left a b
  have hgb : (egcd a b).g.natAbs ∣ b.natAbs := natAbs_egcd_g a b ▸ Int.gcd_dvd_natAbs_right a b
  have hbpos : 0 < b.natAbs := Int.natAbs_pos.mpr hb
  have hgne : (egcd a b).g.natAbs ≠ b.natAbs := fun h => hdvd (Int.natAbs_dvd_natAbs.mp (h ▸ hga))
  have hglt : (egcd a b).g.natAbs < b.natAbs := (Nat.le_of_dvd hbpos hgb).lt_of_ne hgne
  have hbez : b.natAbs * (egcd a b).y.natAbs ≤ (egcd a b).g.natAbs + a.natAbs * (egcd a b).x.natAbs := by
    rw [← Int.natAbs_mul, ← Int.natAbs_mul, show b * (egcd a b).y = (egcd a b).g - a * (egcd a b).x by
      rw [← egcd_bezout a b, add_sub_cancel_left]]
    exact Int.natAbs_sub_le _ _
  obtain ⟨k, hk⟩ := hga
  generalize (egcd a b).g.natAbs = g, (egcd a b).x.natAbs = x, (egcd a b).y.natAbs = y,
    a.natAbs = m, b.natAbs = n at *
  have hlt : n * (y * g) < n * (g * (k + 1)) := by
    calc n * (y * g) = (n * y) * g := (mul_assoc ..).symm
      _ ≤ (g + m * x) * g := Nat.mul_le_mul_right g hbez
      _ = g * g + m * (x * g) := by ring
      _ ≤ g * g + m * n := by gcongr
      _ < n * g + m * n := by gcongr
      _ = n * (g * (k + 1)) := by rw [hk]; ring
  have hyk : g * y < g * (k + 1) := mul_comm y g ▸ lt_of_mul_lt_mul_left' hlt
  have hle : y ≤ k := Nat.lt_succ_iff.mp (lt_of_mul_lt_mul_left' hyk)
  rw [hk, mul_comm]
  exact Nat.mul_le_mul_left g hle

/-- The first cofactor is bounded by the second operand: it is the second cofactor of the next pair (R141 item 5). -/
theorem natAbs_egcd_x_mul_le (a b : Int) (hb : b ≠ 0) :
    (egcd a b).x.natAbs * (egcd a b).g.natAbs ≤ b.natAbs := by
  induction a, b using egcd_induction with
  | zero a => exact absurd rfl hb
  | step a b hb ih =>
    rw [egcd_of_ne_zero a hb]
    by_cases hr : a.fmod b = 0
    · simp [hr]
    · by_cases hdvd : a.fmod b ∣ b
      · simpa [egcd_of_dvd hr hdvd] using (natAbs_fmod_lt a b hb).le
      · exact natAbs_egcd_y_mul_le hr hdvd (ih hr)

theorem natAbs_egcd_x_le (a b : Int) : (egcd a b).x.natAbs ≤ max 1 b.natAbs := by
  by_cases hb : b = 0
  · simp [hb]
  · have hle := (Nat.le_mul_of_pos_right _ (natAbs_egcd_g_pos a hb)).trans (natAbs_egcd_x_mul_le a b hb)
    exact hle.trans (le_max_right ..)

theorem natAbs_egcd_y_le (a b : Int) : (egcd a b).y.natAbs ≤ max 1 a.natAbs := by
  by_cases hb : b = 0
  · simp [hb]
  · by_cases hdvd : b ∣ a
    · simp [egcd_of_dvd hb hdvd]
    · have hmul := natAbs_egcd_y_mul_le hb hdvd (natAbs_egcd_x_mul_le a b hb)
      exact ((Nat.le_mul_of_pos_right _ (natAbs_egcd_g_pos a hb)).trans hmul).trans (le_max_right ..)

theorem natAbs_egcd_g_le (a b : Int) : (egcd a b).g.natAbs ≤ max a.natAbs b.natAbs := by
  by_cases hb : b = 0
  · simp [hb]
  · rw [natAbs_egcd_g]
    have hle : Int.gcd a b ≤ b.natAbs := Nat.gcd_le_right _ (Int.natAbs_pos.mpr hb)
    exact hle.trans (le_max_right ..)

/-- Operands that fit a register of at least one bit give results that fit it (R141 item 5). -/
theorem natAbs_egcd_lt {a b : Int} {w : Nat} (hw : 1 ≤ w) (ha : a.natAbs < 2 ^ w) (hb : b.natAbs < 2 ^ w) :
    (egcd a b).x.natAbs < 2 ^ w ∧ (egcd a b).y.natAbs < 2 ^ w ∧ (egcd a b).g.natAbs < 2 ^ w := by
  have hone : 1 < 2 ^ w := Nat.one_lt_two_pow (by omega)
  exact ⟨(natAbs_egcd_x_le a b).trans_lt (max_lt hone hb), (natAbs_egcd_y_le a b).trans_lt (max_lt hone ha),
    (natAbs_egcd_g_le a b).trans_lt (max_lt ha hb)⟩

/-- Settles O25: the three bounds, and that they lie below 2^w. -/
theorem egcdResultsFit : Obligations.EgcdResultsFit := fun a b =>
  ⟨natAbs_egcd_x_le a b, natAbs_egcd_y_le a b, natAbs_egcd_g_le a b, fun _ => natAbs_egcd_lt⟩

/-! ### EGCD and MODINV -/

@[simp] theorem natAbs_signedValue (neg : Bool) (magnitude : Nat) : (signedValue neg magnitude).natAbs = magnitude := by
  cases neg <;> simp [signedValue]

/-- Settles O27: the engine's triple is written whole, and the gcd is that of the magnitudes. -/
theorem egcdCommand : Obligations.EgcdCommand := by
  rintro s a b rfl rfl
  refine ⟨_, _, _, egcd_bezout s.svalA s.svalB, ?_, rfl, rfl⟩
  rw [natAbs_egcd_g, Int.gcd, State.svalA, State.svalB, natAbs_signedValue, natAbs_signedValue]

theorem exec_modinv_of_value {s : State} {v : Int} (h : modInverse s.svalA s.svalB = .value v) :
    exec .modinv s = .next (s.sres0 v).complete := by
  simp only [exec, execModinv, h]

theorem exec_modinv_of_noInverse {s : State} (h : modInverse s.svalA s.svalB = .noInverse) :
    exec .modinv s = .next (s.fail .invalidModulus) := by
  simp only [exec, execModinv, h]

/-- An inverse is smaller than the modulus, which is then not 0 (R143). -/
theorem natAbs_modInverse_lt {a m v : Int} (h : modInverse a m = .value v) : v.natAbs < m.natAbs := by
  by_cases hgcd : Int.gcd a m = 1
  · by_cases hm : m = 0
    · subst hm
      simp [modInverse_zero_of_gcd_eq_one hgcd] at h
    · obtain rfl := Inverse.value.inj ((modInverse_of_gcd_eq_one hm hgcd).symm.trans h)
      exact natAbs_fmod_lt _ m hm
  · simp [modInverse_of_gcd_ne_one hgcd] at h

/-- A reduced remainder is below the modulus and, if not 0, has its sign (R121). -/
theorem fmod_range {m : Int} (x : Int) (hm : m ≠ 0) :
    (x.fmod m).natAbs < m.natAbs ∧ (x.fmod m ≠ 0 → (x.fmod m).sign = m.sign) := by
  refine ⟨natAbs_fmod_lt x m hm, fun hx => ?_⟩
  obtain hneg | hpos := lt_or_gt_of_ne hm
  · obtain ⟨-, hle⟩ := fmod_of_neg x m hneg
    rw [Int.sign_eq_neg_one_of_neg hneg, Int.sign_eq_neg_one_of_neg (hle.lt_of_ne hx)]
  · have hle := Int.fmod_nonneg_of_pos x hpos
    rw [Int.sign_eq_one_of_pos hpos, Int.sign_eq_one_of_pos (hle.lt_of_ne hx.symm)]

/-- For coprime operands and a modulus the engine's g is the sign of the modulus (R141 item 3). -/
theorem egcd_g_eq_sign {a m : Int} (hm : m ≠ 0) (h : Int.gcd a m = 1) : (egcd a m).g = m.sign := by
  obtain hneg | hpos := lt_or_gt_of_ne hm
  · rw [egcd_g_of_neg a hneg, h, Int.sign_eq_neg_one_of_neg hneg]
    rfl
  · rw [egcd_g_of_pos a hpos, h, Int.sign_eq_one_of_pos hpos]
    rfl

/-- Settles O29: the value is the engine's coefficient reduced modulo OPB; the other cases are `mod_inverse`'s. -/
theorem modinvCommand : Obligations.ModinvCommand := by
  rintro s a m ha hm
  change a = s.svalA at ha
  change m = s.svalB at hm
  subst ha hm
  have hgcd : Int.gcd s.svalA s.svalB = Nat.gcd s.opa s.opb := by
    rw [Int.gcd, State.svalA, State.svalB, natAbs_signedValue, natAbs_signedValue]
  have hB : s.svalB.natAbs = s.opb := natAbs_signedValue _ _
  rw [← hgcd]
  refine ⟨fun h hopb => ?value, fun h => exec_modinv_of_noInverse (modInverse_of_gcd_ne_one h), fun hopb hopa => ?zero⟩
  case value =>
    have hne : s.svalB ≠ 0 := by omega
    obtain ⟨hlt, hsign⟩ := fmod_range (egcd s.svalA s.svalB).x hne
    refine ⟨_, ?_, hB ▸ hlt, hsign, exec_modinv_of_value (modInverse_of_gcd_eq_one hne h)⟩
    rw [← egcd_g_eq_sign hne h]
    exact mul_egcd_x_fmod_modEq _ _
  case zero =>
    have hA : s.svalA.natAbs = s.opa := natAbs_signedValue _ _
    exact exec_of_badOperandCause (i := .modinv) ⟨by omega, by omega⟩

end Sys2Proof.Machine
end

section
/-!
The keys derived from p and q (44_keygen.md R194 to R196): the exponent chosen and its inverse modulo phi.
-/

namespace Sys2Proof.Machine

/-! ### The public exponent -/

/-- The generator's gcd tells whether two numbers are coprime (R146). -/
theorem gcd_eq_one_iff (e : Nat) {phi : Nat} (h : 0 < phi) : gcd e phi = 1 ↔ Nat.Coprime e phi := by
  rw [gcd, egcd_g_of_pos _ (Int.natCast_pos.mpr h), Int.gcd_natCast_natCast, Nat.cast_eq_one, Nat.Coprime]

/-- "First match wins" (R194). -/
theorem selectExponent_eq {phi : Nat} (h : 0 < phi) : selectExponent phi =
    if Nat.Coprime 65537 phi then some 65537 else if Nat.Coprime 3 phi then some 3
    else if Nat.Coprime 17 phi then some 17 else none := by
  simp only [selectExponent, eCandidates, List.find?_cons, List.find?_nil, gcd_eq_one_iff _ h]
  by_cases h65537 : Nat.Coprime 65537 phi
  · rw [decide_eq_true h65537, if_pos h65537]
  rw [decide_eq_false h65537, if_neg h65537]
  by_cases h3 : Nat.Coprime 3 phi
  · rw [decide_eq_true h3, if_pos h3]
  rw [decide_eq_false h3, if_neg h3]
  by_cases h17 : Nat.Coprime 17 phi
  · rw [decide_eq_true h17, if_pos h17]
  · rw [decide_eq_false h17, if_neg h17]

theorem selectExponent_le {phi e : Nat} (h : selectExponent phi = some e) : e ≤ 65537 := by
  have hmem : e ∈ eCandidates := List.mem_of_find?_eq_some h
  simp only [eCandidates, List.mem_cons, List.not_mem_nil, or_false] at hmem
  omega

/-- The error NoCoprimeExponent is for a phi that all three candidates, which are primes, divide (R194). -/
theorem selectExponent_eq_none_iff {phi : Nat} (h : 0 < phi) :
    selectExponent phi = none ↔ 65537 ∣ phi ∧ 3 ∣ phi ∧ 17 ∣ phi := by
  have hdvd {c : Nat} (hc : Nat.Prime c) : ¬ Nat.Coprime c phi ↔ c ∣ phi := by
    rw [hc.coprime_iff_not_dvd, not_not]
  rw [selectExponent_eq h, ← hdvd (by norm_num : Nat.Prime 65537), ← hdvd Nat.prime_three,
    ← hdvd (by norm_num : Nat.Prime 17)]
  split_ifs <;> simp [*]

/-! ### The key pair -/

/-- The chosen exponent has an inverse d modulo phi, which with it makes the key pair (R194, R195). -/
theorem deriveKeys_of_some {p q e : Nat} (hphi : 1 < (p - 1) * (q - 1))
    (h : selectExponent ((p - 1) * (q - 1)) = some e) :
    ∃ d, deriveKeys p q = .ok ⟨p * q, e, d⟩ ∧ 0 < d ∧ d < (p - 1) * (q - 1) ∧
      e * d % ((p - 1) * (q - 1)) = 1 := by
  obtain ⟨v, hval, hv0, hvphi, hmul⟩ := modInverse_of_pos (by omega) (selectExponent_coprime h)
  obtain ⟨d, rfl⟩ := Int.eq_ofNat_of_zero_le hv0
  have hmod : e * d ≡ 1 [MOD (p - 1) * (q - 1)] := Int.natCast_modEq_iff.mp (by exact_mod_cast hmul)
  have hone : e * d % ((p - 1) * (q - 1)) = 1 := Nat.mod_eq_of_modEq hmod hphi
  refine ⟨d, ?_, Nat.pos_of_ne_zero ?_, by exact_mod_cast hvphi, hone⟩
  · simp only [deriveKeys, h, hval, Int.toNat_natCast]
  · rintro rfl
    simp at hone

theorem deriveKeys_of_none {p q : Nat} (h : selectExponent ((p - 1) * (q - 1)) = none) :
    deriveKeys p q = .error .noCoprimeExponent := by
  simp only [deriveKeys, h]

/-- A key pair derived is of the first exponent coprime to phi and its inverse (R194, R195). -/
theorem deriveKeys_ok {p q : Nat} {k : KeyPair} (hphi : 1 < (p - 1) * (q - 1)) (h : deriveKeys p q = .ok k) :
    k.n = p * q ∧ selectExponent ((p - 1) * (q - 1)) = some k.e ∧ 0 < k.d ∧ k.d < (p - 1) * (q - 1) ∧
      k.e * k.d % ((p - 1) * (q - 1)) = 1 := by
  cases hsel : selectExponent ((p - 1) * (q - 1)) with
  | none => simp [deriveKeys_of_none hsel] at h
  | some e =>
    obtain ⟨d, hok, hd⟩ := deriveKeys_of_some hphi hsel
    obtain rfl : ⟨p * q, e, d⟩ = k := Except.ok.inj (hok.symm.trans h)
    exact ⟨rfl, rfl, hd⟩

theorem selectExponent_of_error {p q : Nat} {e : CmdError} (hphi : 1 < (p - 1) * (q - 1))
    (h : deriveKeys p q = .error e) : selectExponent ((p - 1) * (q - 1)) = none := by
  cases hsel : selectExponent ((p - 1) * (q - 1)) with
  | none => rfl
  | some exponent =>
    obtain ⟨d, hok, -⟩ := deriveKeys_of_some hphi hsel
    cases hok.symm.trans h

theorem one_lt_phi {p q : Nat} (hp : 2 < p) (hq : 2 < q) : 1 < (p - 1) * (q - 1) :=
  Nat.one_lt_mul_iff.mpr ⟨by omega, by omega, by omega⟩

/-- The numbers of a key pair of two h-bit factors have at most 2*h bits, e at most 17 (R191, R194). -/
theorem deriveKeys_lt {p q h : Nat} {k : KeyPair} (hp : 2 < p) (hph : p < 2 ^ h) (hq : 2 < q) (hqh : q < 2 ^ h)
    (hk : deriveKeys p q = .ok k) : k.n < 2 ^ (2 * h) ∧ k.e < 2 ^ 17 ∧ k.d < 2 ^ (2 * h) := by
  obtain ⟨hn, hsel, -, hd, -⟩ := deriveKeys_ok (one_lt_phi hp hq) hk
  have hpq : p * q < 2 ^ (2 * h) := by
    rw [two_mul, pow_add]
    exact Nat.mul_lt_mul'' hph hqh
  have he := selectExponent_le hsel
  have hphi : (p - 1) * (q - 1) ≤ p * q := Nat.mul_le_mul (by omega) (by omega)
  exact ⟨hn ▸ hpq, by omega, by omega⟩

end Sys2Proof.Machine
end

section
/-!
The step and the host port once more: the order of events (30_encoding.md section 3, 20_memory.md section 5), accesses
that return ERROR (R61), and STATUS, SIGN, MSGLEN, MAXATT and ATTCNT (10_state.md section 4).
-/

namespace Sys2Proof.Machine

/-! ### The CORE's turn -/

theorem coreTurn_idle {s : State} (h : s.seq = .idle) : coreTurn s = .next s := by
  simp [coreTurn, h]

theorem coreTurn_command {s : State} {word : Word} {req : Option Request} {i : Instr}
    (hseq : s.seq = .busy word req) (hi : decode word = .command i) : coreTurn s = exec i s := by
  simp [coreTurn, hseq, hi]

theorem step_no_input {s : State} (h : s.inputs = []) : step s = coreTurn s := by
  simp [step, nextStep, h]

/-- Settles O6: with no input and with `coreTurn` the step is the CORE's turn. -/
theorem stepRunsHeldCommand : Obligations.StepRunsHeldCommand := by
  intro s word req i hseq hi
  refine ⟨fun hin => ?_, fun rest hin => ?_⟩
  · rw [step_no_input hin, coreTurn_command hseq hi]
  · rw [step_coreTurn hin]
    exact coreTurn_command hseq hi

theorem decode_tableWord {nbits w : Nat} {i : Instr} (h : decodeTableWord nbits w = some i) :
    decode (tableWord nbits w) = .command i := by
  unfold decodeTableWord at h
  split_ifs at h
  cases hd : decode (tableWord nbits w) with
  | command j => simpa [hd] using h
  | illegal why => simp [hd] at h

/-- Settles O7: the placement is `State.accept`, as the write of CMD is, with the CORE's turn in front. -/
theorem fetchWordRunsAcceptedCommand : Obligations.FetchWordRunsAcceptedCommand := by
  intro s nbits w i h
  refine ⟨fun hidle => ?_, ?_⟩
  · rw [(commandAcceptance s _).left hidle]
    rfl
  · rw [step_coreTurn (s := s.withFetchWord nbits w) rfl]
    exact coreTurn_command rfl (decode_tableWord h)

/-- Settles O8: the two turns of an idle CORE, and `step_event` for every other input. -/
theorem inputsAreTakenInOrder : Obligations.InputsAreTakenInOrder := by
  refine fun s => ⟨fun hidle hin => ?_, fun rest hidle hin => ?_, fun e rest hin he => step_event hin he⟩
  · rw [step_no_input hin, coreTurn_idle hidle]
  · rw [step_coreTurn hin]
    exact coreTurn_idle hidle

/-! ### The outcomes of an access -/

/-- A host write is refused and changes nothing, or is the write of an existing location in an idle block (R61). -/
theorem hostWrite_cases (s : State) (addr : Nat) (d : Word) :
    hostWrite s addr d = (.error, s) ∨
    ∃ loc t, s.seq = .idle ∧ locate s.width addr = some loc ∧ s.writeLocation d loc = some t ∧
      hostWrite s addr d = (.okay, t) := by
  cases hseq : s.seq with
  | busy word req => exact .inl (hostWrite_busy (s.busy_iff.mpr ⟨word, req, hseq⟩) addr d)
  | idle =>
    cases hloc : locate s.width addr with
    | none => exact .inl (hostWrite_unmapped hloc d)
    | some loc =>
      cases hw : s.writeLocation d loc with
      | none => exact .inl (hostWrite_readOnly hloc hw)
      | some t => exact .inr ⟨loc, t, rfl, rfl, hw, hostWrite_idle hseq hloc hw⟩

theorem hostRead_data_of_error {s : State} {addr : Nat} (h : (hostRead s addr).1 = .error) :
    (hostRead s addr).2 = 0 := by
  unfold hostRead at h ⊢
  cases hloc : locate s.width addr with
  | none => rfl
  | some loc =>
    simp only [hloc] at h ⊢
    split_ifs at h ⊢
    rfl

/-- Settles O9: by the outcomes of an access; what an access as an event does is `State.receive` itself. -/
theorem busErrorChangesNothing : Obligations.BusErrorChangesNothing := by
  refine fun s addr d => ⟨fun h => ?_, hostRead_data_of_error, rfl, rfl⟩
  obtain hw | ⟨loc, t, -, -, -, hw⟩ := hostWrite_cases s addr d
  · rw [hw]
  · simp [hw] at h

/-! ### STATUS and SIGN -/

/-- STATUS as its four flags, bit 0 first, before ERRCODE from bit 8 on (R34). -/
theorem State.statusWord_eq (s : State) : s.statusWord =
    BitVec.ofNat 32 (Nat.bit s.busy (Nat.bit s.done (Nat.bit s.err (Nat.bit s.prime (2 ^ 4 * s.errcode.toNat))))) := by
  simp only [State.statusWord, Nat.bit_val]
  congr 1
  ring

theorem State.statusWord_toNat (s : State) : s.statusWord.toNat =
    s.busy.toNat + 2 * s.done.toNat + 4 * s.err.toNat + 8 * s.prime.toNat + 256 * s.errcode.toNat := by
  have hcode := s.errcode.isLt
  have hbusy := s.busy.toNat_le
  have hdone := s.done.toNat_le
  have herr := s.err.toNat_le
  have hprime := s.prime.toNat_le
  exact Nat.mod_eq_of_lt (by omega)

/-- Bits 7:4 and 31:16 of STATUS are reserved, bits 15:8 are ERRCODE (R34). -/
theorem State.statusWord_fields (s : State) : s.statusWord.extractLsb' 4 4 = 0 ∧
    s.statusWord.extractLsb' 8 8 = s.errcode ∧ s.statusWord.extractLsb' 16 16 = 0 := by
  have hcode := s.errcode.isLt
  have hbusy := s.busy.toNat_le
  have hdone := s.done.toNat_le
  have herr := s.err.toNat_le
  have hprime := s.prime.toNat_le
  refine ⟨?_, ?_, ?_⟩ <;> apply BitVec.eq_of_toNat_eq <;>
    simp only [BitVec.extractLsb'_toNat, State.statusWord_toNat, Nat.shiftRight_eq_div_pow,
      BitVec.ofNat_eq_ofNat, BitVec.toNat_ofNat] <;> omega

/-- Bits 3:0 of STATUS are its flags (R34). -/
theorem State.statusWord_flags (s : State) : s.statusWord.getLsbD 0 = s.busy ∧ s.statusWord.getLsbD 1 = s.done ∧
    s.statusWord.getLsbD 2 = s.err ∧ s.statusWord.getLsbD 3 = s.prime := by
  simp only [State.statusWord_eq, BitVec.getLsbD_ofNat, Nat.testBit_bit_zero, Nat.testBit_bit_succ]
  simp

/-- Settles O15: STATUS is read in every state and never written; the invariant keeps BUSY and DONE apart. -/
theorem statusRegister : Obligations.StatusRegister := by
  intro s
  obtain ⟨hbusy, hdone, herr, hprime⟩ := s.statusWord_flags
  refine ⟨⟨s.statusWord, hostRead_csr_readableWhileBusy s (c := .status) rfl, hbusy, hdone, herr, hprime,
    s.statusWord_fields⟩, fun d => hostWrite_csr_readOnly s (c := .status) d rfl, fun hinv ⟨hb, hd⟩ => ?_⟩
  simp [(hinv.busyClear hb).left] at hd

/-- SIGN as the operand signs from bit 0 on and the result signs from bit 8 on (R38). -/
theorem State.signWord_eq (s : State) : s.signWord = BitVec.ofNat 32 (Nat.bit s.opaNeg (Nat.bit s.opbNeg
    (2 ^ 6 * Nat.bit s.res0Neg (Nat.bit s.res1Neg (Nat.bit s.res2Neg 0))))) := by
  simp only [State.signWord, Nat.bit_val]
  congr 1
  ring

/-- The bits of SIGN (R38). -/
theorem State.getLsbD_signWord (s : State) (k : Nat) : s.signWord.getLsbD k =
    if k = 0 then s.opaNeg else if k = 1 then s.opbNeg else if k = 8 then s.res0Neg
    else if k = 9 then s.res1Neg else if k = 10 then s.res2Neg else false := by
  rw [State.signWord_eq, BitVec.getLsbD_ofNat]
  rcases Nat.lt_or_ge k 11 with hk | hk
  · interval_cases k <;>
      simp only [Nat.testBit_bit_zero, Nat.testBit_bit_succ, Nat.testBit_two_pow_mul] <;> simp
  · obtain ⟨m, rfl⟩ := Nat.exists_eq_add_of_le' hk
    simp only [Nat.testBit_bit_succ, Nat.testBit_two_pow_mul]
    simp [Nat.testBit_bit_succ]

/-- Settles O16: the bits as `State.getLsbD_signWord` gives them; the write is `State.writeSign`. -/
theorem signRegister : Obligations.SignRegister := fun s hidle =>
  ⟨⟨s.signWord, hostRead_idle hidle (locate_csr _ .sign), s.getLsbD_signWord⟩,
    fun _ => hostWrite_idle hidle (locate_csr _ .sign) rfl⟩

/-- Settles O17: three registers that read as their field, two of them writable. -/
theorem lengthAndCapRegisters : Obligations.LengthAndCapRegisters := fun _ _ hidle =>
  ⟨hostWrite_idle hidle (locate_csr _ .msglen) rfl, hostRead_idle hidle (locate_csr _ .msglen),
    hostWrite_idle hidle (locate_csr _ .maxatt) rfl, hostRead_idle hidle (locate_csr _ .maxatt),
    hostRead_idle hidle (locate_csr _ .attcnt)⟩

/-! ### What a command leaves unchanged -/

/-- Settles O51: by what each command's next states can be. -/
theorem commandsWriteOnlyTheirRow : Obligations.CommandsWriteOnlyTheirRow := by
  intro i s t h
  cases i with
  | modexp => obtain ⟨-, rfl⟩ | ⟨-, rfl⟩ := exec_modexp_next h <;> simp
  | egcd => simp [exec_egcd_next h]
  | modinv => obtain ⟨-, rfl⟩ | ⟨-, rfl⟩ | ⟨v, -, rfl⟩ := exec_modinv_next h <;> simp
  | isprime rounds =>
    obtain ⟨-, rfl⟩ | ⟨-, ⟨b, rest, -, rfl⟩ | ⟨req, -, rfl⟩⟩ := exec_isprime_next h <;> simp [Draws]
  | genprime k =>
    obtain ⟨-, rfl⟩ | ⟨-, -, ⟨c, att, rest, -, rfl⟩ | ⟨e, att, rest, -, rfl⟩ | ⟨req, att, -, rfl⟩⟩ :=
      exec_genprime_next h <;> simp [Draws]
  | genkeys bits =>
    obtain ⟨-, rfl⟩ | ⟨-, -, -, ⟨k, att, rest, -, rfl⟩ | ⟨e, att, rest, -, rfl⟩ | ⟨req, att, -, rfl⟩⟩ :=
      exec_genkeys_next h <;> simp [Draws]
  | encrypt =>
    rw [exec_encrypt_eq] at h
    split_ifs at h <;> cases h <;> simp
  | decrypt => obtain ⟨-, rfl⟩ | ⟨-, -, rfl⟩ := exec_decrypt_next h <;> simp

theorem exec_epoch {i : Instr} {s t : State} (h : exec i s = .next t) : t.epoch = s.epoch := by
  obtain ⟨-, -, -, -, -, -, -, -, -, hepoch, -⟩ := commandsWriteOnlyTheirRow i s t h
  exact hepoch

/-! ### Reset -/

theorem coreTurn_epoch {s t : State} (h : coreTurn s = .next t) : t.epoch = s.epoch := by
  obtain ⟨-, rfl⟩ | ⟨word, req, -, ⟨why, -, rfl⟩ | ⟨i, -, hi⟩⟩ := coreTurn_next h
  · rfl
  · rfl
  · exact exec_epoch hi

/-- The count of resets never falls (log entry 6). -/
theorem step_epoch_le {s t : State} (h : step s = .next t) : s.epoch ≤ t.epoch := by
  obtain ⟨-, ht⟩ | ⟨rest, -, ht⟩ | ⟨e, rest, -, -, rfl⟩ := step_next h
  · exact (coreTurn_epoch ht).ge
  · have hturn := coreTurn_epoch ht
    exact hturn.ge
  · have hevent := State.receive_epoch { s with inputs := rest } e
    rw [hevent]
    split_ifs
    · exact Nat.le_succ _
    · exact le_rfl

theorem State.reg_resetOf (w : Nat) (r : BigReg) : (State.resetOf w).reg r = 0 := by
  cases r <;> rfl

/-- Settles O20: the reset event is `State.afterReset`; `step_epoch_le` and `State.deliver_late` are the rest. -/
theorem resetFromEveryState : Obligations.ResetFromEveryState := by
  refine ⟨fun s rest hw hin => ?reset, fun _ _ => step_epoch_le, fun s epoch v rest hin hlt => ?late⟩
  case reset =>
    have hcfg : hostRead (State.afterReset { s with inputs := rest }) 0x04 = (.okay, BitVec.ofNat 32 s.width) := by
      rw [← State.cfgWord_eq_width (by omega)]
      exact hostRead_csr_readableWhileBusy _ (c := .cfg) rfl
    exact ⟨_, step_event hin nofun, rfl, rfl, State.reg_resetOf s.width, fun _ => rfl, rfl, rfl, rfl, rfl, rfl, rfl,
      rfl, rfl, rfl, rfl, rfl, rfl, rfl, rfl, rfl, rfl, Nat.lt_succ_self _,
      hostRead_csr_readableWhileBusy _ (c := .id) rfl, hcfg⟩
  case late =>
    rw [step_event hin nofun]
    exact congrArg _ (State.deliver_late { s with inputs := rest } epoch v hlt.ne)

/-! ### Inputs while BUSY -/

/-- An answer is taken when it carries the current count of resets and a request is open, and else ignored (R53, log
entries 2 and 6). -/
theorem State.deliver_busy {s : State} {word : Word} {req : Option Request} (hseq : s.seq = .busy word req)
    (epoch v : Nat) :
    (∃ q, req = some q ∧ epoch = s.epoch ∧
      s.deliver epoch v = { s with answers := s.answers ++ [v], seq := .busy word none }) ∨
    ((epoch ≠ s.epoch ∨ req = none) ∧ s.deliver epoch v = s) := by
  cases req with
  | none => exact .inr ⟨.inr rfl, by simp [State.deliver, hseq]⟩
  | some q =>
    by_cases h : epoch = s.epoch
    · exact .inl ⟨q, rfl, h, by simp [State.deliver, hseq, h]⟩
    · exact .inr ⟨.inl h, State.deliver_late s epoch v h⟩

/-- Settles O60: a read and a refused write leave the port's record alone, and an answer is taken or ignored. -/
theorem inputsCannotDisturbRunningCommand : Obligations.InputsCannotDisturbRunningCommand := by
  intro s t e rest hbusy hin hturn hreset hstep
  rw [step_event hin hturn] at hstep
  obtain rfl := Host.Outcome.next.inj hstep
  cases e with
  | hostRead addr => exact .inl ⟨_, rfl, .inl ⟨addr, rfl⟩⟩
  | hostWrite addr d =>
    have hw : hostWrite { s with inputs := rest } addr d = (.error, { s with inputs := rest }) :=
      hostWrite_busy (s := { s with inputs := rest }) hbusy addr d
    exact .inl ⟨.write .error, by simp only [State.receive, hw], .inr ⟨addr, d, rfl⟩⟩
  | answer epoch v =>
    obtain ⟨word, req, hseq⟩ := s.busy_iff.mp hbusy
    obtain ⟨q, rfl, rfl, hd⟩ | ⟨hno, hd⟩ :=
      State.deliver_busy (s := { s with inputs := rest }) hseq epoch v
    · exact .inr (.inl ⟨v, word, q, rfl, hseq, hd⟩)
    · refine .inr (.inr ⟨epoch, v, rfl, hno.imp_right fun hreq => ⟨word, ?_⟩, hd⟩)
      rw [hseq, hreq]
  | reset => exact absurd rfl hreset
  | coreTurn => exact absurd rfl hturn

end Sys2Proof.Machine
end

section
/-!
The invariant of Safety.lean: reset meets it (R55) and every step keeps it, without a fault (10_state.md section 2).
-/

namespace Sys2Proof.Machine

/-! ### Reset -/

theorem State.Inv.resetOf {w : Nat} (h : Config.LegalWidth w) : (State.resetOf w).Inv where
  width := h
  regs r := by
    rw [State.reg_resetOf]
    exact Nat.two_pow_pos _
  msgForm := rfl
  msgIndex := by simp [State.resetOf]
  busyClear := nofun
  errDone := nofun
  errForm := by simp [State.resetOf]
  errRange := by simp [State.resetOf]
  zeroSign0 := nofun
  zeroSign1 := nofun
  zeroSign2 := nofun
  request := nofun

/-- Settles O58: every field of the reset state is 0, whatever the width. -/
theorem resetMeetsInvariant : Obligations.ResetMeetsInvariant :=
  ⟨State.Inv.resetOf (by decide), fun _ => State.Inv.resetOf⟩

/-! ### The invariant under the updates of Machine/Ops.lean -/

theorem State.forall_reg_lt_iff (s : State) (b : Nat) : (∀ r, s.reg r < b) ↔
    s.opa < b ∧ s.opb < b ∧ s.opc < b ∧ s.res0 < b ∧ s.res1 < b ∧ s.res2 < b ∧ s.pubN < b ∧ s.pubE < b ∧
      s.privN < b ∧ s.privD < b := by
  constructor
  · exact fun h => ⟨h .opa, h .opb, h .opc, h .res0, h .res1, h .res2, h .pubN, h .pubE, h .privN, h .privD⟩
  · rintro ⟨_, _, _, _, _, _, _, _, _, _⟩ r
    cases r <;> assumption

/-- The bound of the registers one by one: an update that leaves a register leaves its bound. -/
theorem State.Inv.regs_lt {s : State} (h : s.Inv) :
    s.opa < 2 ^ s.width ∧ s.opb < 2 ^ s.width ∧ s.opc < 2 ^ s.width ∧ s.res0 < 2 ^ s.width ∧
      s.res1 < 2 ^ s.width ∧ s.res2 < 2 ^ s.width ∧ s.pubN < 2 ^ s.width ∧ s.pubE < 2 ^ s.width ∧
      s.privN < 2 ^ s.width ∧ s.privD < 2 ^ s.width := (s.forall_reg_lt_iff _).mp h.regs

theorem State.Inv.accept {s : State} (h : s.Inv) (word : Word) : (s.accept word).Inv :=
  { h with
    regs := (State.forall_reg_lt_iff _ _).mpr h.regs_lt
    busyClear := fun _ => ⟨rfl, rfl⟩
    errDone := nofun
    errForm := by simp
    errRange := by simp
    request := fun _ _ hseq => by simp at hseq }

theorem State.Inv.waitFor {s : State} {i : Instr} {req : Request} (h : s.Inv) (hb : s.busy = true)
    (hi : i.wellFormed = true) (hreq : req.Legal s.width) : (s.waitFor i req).Inv :=
  { h with
    regs := (State.forall_reg_lt_iff _ _).mpr h.regs_lt
    busyClear := fun _ => h.busyClear hb
    request := fun word req' hseq => by
      simp only [State.waitFor_seq, Seq.busy.injEq, Option.some.injEq] at hseq
      obtain ⟨rfl, rfl⟩ := hseq
      exact ⟨hreq, i, decode_encode hi⟩ }

theorem State.Inv.setPrime {s : State} (h : s.Inv) (b : Bool) : (s.setPrime b).Inv :=
  { h with regs := (State.forall_reg_lt_iff _ _).mpr h.regs_lt }

theorem State.Inv.writeKeys {s : State} {k : KeyPair} (h : s.Inv) (hn : k.n < 2 ^ s.width) (he : k.e < 2 ^ s.width)
    (hd : k.d < 2 ^ s.width) : (s.writeKeys k).Inv :=
  { h with
    regs := by
      obtain ⟨hopa, hopb, hopc, hres0, hres1, hres2, -⟩ := h.regs_lt
      exact (State.forall_reg_lt_iff _ _).mpr ⟨hopa, hopb, hopc, hres0, hres1, hres2, hn, he, hn, hd⟩ }

/-- A message length is free, and a buffer written inside its bounds keeps its form (R40). -/
theorem State.Inv.message {s : State} (h : s.Inv) {k : Nat} {bs : List Byte} (hk : k + bs.length ≤ s.msgBytes)
    (len : Word) : State.Inv { s with msg := s.msg.writeList k bs, msglen := len } :=
  { h with
    regs := (State.forall_reg_lt_iff _ _).mpr h.regs_lt
    msgForm := Memory.wf_writeList _ _ h.msgForm
    msgIndex := fun c hc => by
      obtain ⟨-, hlt⟩ | hmem := Memory.mem_writeList hc
      · exact hlt.trans_le hk
      · exact h.msgIndex c hmem }

/-! ### The host and the random source -/

theorem State.Inv.answered {s : State} {word : Word} {req : Option Request} (h : s.Inv)
    (hseq : s.seq = .busy word req) (ans : List Nat) :
    State.Inv { s with answers := ans, seq := .busy word none } :=
  { h with
    regs := (State.forall_reg_lt_iff _ _).mpr h.regs_lt
    busyClear := fun _ => h.busyClear (s.busy_iff.mpr ⟨word, req, hseq⟩)
    request := fun _ _ hreq => by simp at hreq }

/-- A host write of a register other than a result leaves the results and what else the invariant speaks of. -/
theorem State.Inv.setReg {s : State} {r : BigReg} {v : Nat} (h : s.Inv) (hr : r.hostWritable = true)
    (hv : v < 2 ^ s.width) : (s.setReg r v).Inv := by
  have hregs : ∀ q, (s.setReg r v).reg q < 2 ^ s.width := fun q => by
    by_cases hq : q = r
    · rw [hq, State.reg_setReg_same]
      exact hv
    · rw [State.reg_setReg_other s r q v hq]
      exact h.regs q
  cases r with
  | res0 | res1 | res2 => simp [BigReg.hostWritable] at hr
  | _ => exact { h with regs := hregs }

/-- Whatever the host writes to a location that exists, the invariant is kept. -/
theorem State.Inv.writeLocation {s t : State} {d : Word} {loc : Location} (h : s.Inv)
    (hp : loc.present s.width = true) (hw : s.writeLocation d loc = some t) : t.Inv := by
  have hregs := h.regs_lt
  cases loc with
  | csr c =>
    cases c with
    | id | cfg | status | attcnt => simp [State.writeLocation] at hw
    | cmd => exact Option.some.inj hw ▸ h.accept d
    | sign | msglen | maxatt =>
      obtain rfl := Option.some.inj hw
      exact { h with regs := (State.forall_reg_lt_iff _ _).mpr hregs }
  | limb r j =>
    simp only [State.writeLocation] at hw
    split_ifs at hw with hr
    obtain rfl := Option.some.inj hw
    have hj : j < s.limbs := of_decide_eq_true hp
    have hlt := h.regs r
    rw [← s.width_eq_limbs h.width] at hlt
    exact h.setReg hr (s.width_eq_limbs h.width ▸ setLimb_lt _ _ _ d hlt hj)
  | msgWord j =>
    obtain rfl := Option.some.inj hw
    have hj : j < s.width / 32 := of_decide_eq_true hp
    have hfits : 4 * j + (wordBytes d).length ≤ s.msgBytes := by
      rw [length_wordBytes, State.msgBytes]
      omega
    exact h.message hfits s.msglen

/-- Every outside event keeps the invariant. -/
theorem State.Inv.receive {s : State} (h : s.Inv) (e : Input) : (s.receive e).Inv := by
  cases e with
  | hostRead addr => exact State.Inv.port s _ h
  | hostWrite addr d =>
    refine State.Inv.port _ _ ?_
    obtain hw | ⟨loc, t, -, hloc, ht, hw⟩ := hostWrite_cases s addr d
    · rw [hw]
      exact h
    · rw [hw]
      exact h.writeLocation (locate_some _ _ _ hloc).right ht
  | answer epoch v =>
    change (s.deliver epoch v).Inv
    obtain ⟨word, req, hseq, -, hd⟩ | hd := s.deliver_cases epoch v
    · rw [hd]
      exact h.answered hseq _
    · rw [hd]
      exact h
  | reset =>
    exact State.Inv.epoch { State.resetOf s.width with inputs := s.inputs } _
      (State.Inv.inputs _ _ (State.Inv.resetOf h.width))
  | coreTurn => exact h

/-! ### The commands -/

/-- The requests of a search for k-bit candidates are ones the spec allows (R51, R52). -/
theorem SearchRequest.legal {k width : Nat} {req : Request} (h : SearchRequest k req) (hk : 1 ≤ k)
    (hkw : k ≤ width) : req.Legal width := by
  have hpow : 2 ^ k ≤ 2 ^ width := Nat.pow_le_pow_right two_pos hkw
  obtain rfl | ⟨n, rfl, hn, hlt⟩ := h
  · exact ⟨hk, hkw⟩
  · exact ⟨by omega, by omega⟩

/-- The decrypted buffer is exactly the message buffer, since the encoding of a remainder modulo PRIV_N fits it. -/
theorem State.Inv.length_decryptedBuffer {s : State} (h : s.Inv) (hn : s.privN ≠ 0) :
    (s.decryptedBuffer (modexp s.opa s.privD s.privN)).length = s.msgBytes := by
  rw [modexp_eq_pow_mod _ _ (Nat.one_le_iff_ne_zero.mpr hn)]
  exact Machine.length_decryptedBuffer s _
    (length_nat2be_le h.width (pow_mod_lt_two_pow s.opa s.privD hn (h.regs .privN)))

/-- The keys of two numbers of bits/2 bits fit registers of at least `bits` bits (R191). -/
theorem generateKeys_done_lt {bits width : Nat} (hb : 8 ≤ bits) (hbw : bits ≤ width) (hw : 32 ≤ width)
    {maxatt att : Word} {ans rest : List Nat} {k : KeyPair}
    (h : generateKeys bits maxatt ans = .done k att rest) :
    k.n < 2 ^ width ∧ k.e < 2 ^ width ∧ k.d < 2 ^ width := by
  obtain ⟨p, q, -, hp, hph, -, hq, hqh, -, hk⟩ := generateKeys_done (by omega) h
  have htwo : 2 ≤ 2 ^ (bits / 2 - 1) := Nat.le_self_pow (by omega) 2
  obtain ⟨hn, he, hd⟩ := deriveKeys_lt (by omega) hph (by omega) hqh hk
  have hpow : 2 ^ (2 * (bits / 2)) ≤ 2 ^ width := Nat.pow_le_pow_right two_pos (by omega)
  have hpow17 : 2 ^ 17 ≤ 2 ^ width := Nat.pow_le_pow_right two_pos (by omega)
  exact ⟨by omega, by omega, by omega⟩

/-- A running command, whatever it comes to, keeps the invariant: every result fits its register. -/
theorem State.Inv.exec {s t : State} {i : Instr} (h : s.Inv) (hbusy : s.busy = true) (hi : i.wellFormed = true)
    (hexec : Machine.exec i s = .next t) : t.Inv := by
  obtain ⟨-, herr⟩ := h.busyClear hbusy
  have hwidth := h.width
  have hfail (e : CmdError) : (s.fail e).Inv := State.Inv.fail s e h
  cases i with
  | modexp =>
    obtain ⟨-, rfl⟩ | ⟨hn, rfl⟩ := exec_modexp_next hexec
    · exact hfail _
    · rw [modexp_eq_pow_mod _ _ (Nat.one_le_iff_ne_zero.mpr hn)]
      exact State.Inv.complete _ (State.Inv.ures0 s _ h (pow_mod_lt_two_pow _ _ hn (h.regs .opc))) herr
  | egcd =>
    have hA : s.svalA.natAbs < 2 ^ s.width := (natAbs_signedValue ..).trans_lt (h.regs .opa)
    have hB : s.svalB.natAbs < 2 ^ s.width := (natAbs_signedValue ..).trans_lt (h.regs .opb)
    obtain ⟨hx, hy, hg⟩ := natAbs_egcd_lt (by omega) hA hB
    rw [exec_egcd_next hexec]
    exact State.Inv.complete _
      (State.Inv.sres2 _ _ (State.Inv.sres1 _ _ (State.Inv.sres0 s _ h hg) hx) hy) herr
  | modinv =>
    obtain ⟨-, rfl⟩ | ⟨-, rfl⟩ | ⟨v, hv, rfl⟩ := exec_modinv_next hexec
    · exact hfail _
    · exact hfail _
    · have hB : s.svalB.natAbs < 2 ^ s.width := (natAbs_signedValue ..).trans_lt (h.regs .opb)
      exact State.Inv.complete _ (State.Inv.sres0 s v h ((natAbs_modInverse_lt hv).trans hB)) herr
  | isprime rounds =>
    obtain ⟨-, rfl⟩ | ⟨-, ⟨b, rest, -, rfl⟩ | ⟨req, hwait, rfl⟩⟩ := exec_isprime_next hexec
    · exact hfail _
    · exact State.Inv.complete _ ((State.Inv.counted s s.attcnt rest h).setPrime b) herr
    · obtain ⟨-, rfl, hn, -⟩ := (isProbablePrime_reader s.opa rounds).wait _ _ hwait
      have hopa : s.opa < 2 ^ s.width := h.regs .opa
      exact h.waitFor hbusy hi ⟨by omega, by omega⟩
  | genprime k =>
    obtain ⟨-, rfl⟩ |
      ⟨hk, hkw, ⟨c, att, rest, hdone, rfl⟩ | ⟨e, att, rest, -, rfl⟩ | ⟨req, att, hwait, rfl⟩⟩ :=
      exec_genprime_next hexec
    · exact hfail _
    · obtain ⟨-, hlt, -, -⟩ := generatePrime_done hk hdone
      have hpow : 2 ^ k ≤ 2 ^ s.width := Nat.pow_le_pow_right two_pos hkw
      exact State.Inv.complete _ (State.Inv.ures0 _ _ (State.Inv.counted s att rest h) (hlt.trans_le hpow)) herr
    · exact State.Inv.fail _ e (State.Inv.counted s att rest h)
    · obtain ⟨hreq, -⟩ := (generatePrime_reader hk s.maxatt 0).wait _ _ _ hwait
      exact (State.Inv.counted s att s.answers h).waitFor hbusy hi (hreq.legal (by omega) hkw)
  | genkeys bits =>
    obtain ⟨-, rfl⟩ |
      ⟨-, hb, hbw, ⟨k, att, rest, hdone, rfl⟩ | ⟨e, att, rest, -, rfl⟩ | ⟨req, att, hwait, rfl⟩⟩ :=
      exec_genkeys_next hexec
    · exact hfail _
    · obtain ⟨hn, he, hd⟩ := generateKeys_done_lt hb hbw (by omega) hdone
      exact State.Inv.complete _ ((State.Inv.counted s att rest h).writeKeys hn he hd) herr
    · exact State.Inv.fail _ e (State.Inv.counted s att rest h)
    · obtain ⟨hreq, -⟩ := (generateKeys_reader (by omega) s.maxatt).wait _ _ _ hwait
      have hhalf : bits / 2 ≤ s.width := by omega
      exact (State.Inv.counted s att s.answers h).waitFor hbusy hi (hreq.legal (by omega) hhalf)
  | encrypt =>
    rw [exec_encrypt_eq] at hexec
    split_ifs at hexec with hlen hbig <;> obtain rfl := Host.Outcome.next.inj hexec
    · exact hfail _
    · exact hfail _
    · have hn : s.pubN ≠ 0 := by omega
      rw [modexp_eq_pow_mod _ _ (Nat.one_le_iff_ne_zero.mpr hn)]
      exact State.Inv.complete _ (State.Inv.ures0 s _ h (pow_mod_lt_two_pow _ _ hn (h.regs .pubN))) herr
  | decrypt =>
    obtain ⟨-, rfl⟩ | ⟨-, hlen, rfl⟩ := exec_decrypt_next hexec
    · exact hfail _
    · exact State.Inv.complete _ (h.message (by omega) _) herr

/-! ### Every step -/

theorem State.Inv.coreTurn {s t : State} (h : s.Inv) (ht : Machine.coreTurn s = .next t) : t.Inv := by
  obtain ⟨-, rfl⟩ | ⟨word, req, hseq, ⟨why, -, rfl⟩ | ⟨i, hi, hexec⟩⟩ := coreTurn_next ht
  · exact h
  · exact State.Inv.fail s _ h
  · exact h.exec (s.busy_iff.mpr ⟨word, req, hseq⟩) (wellFormed_and_encode_of_decode hi).left hexec

theorem State.Inv.step {s t : State} (h : s.Inv) (ht : Machine.step s = .next t) : t.Inv := by
  obtain ⟨-, ht⟩ | ⟨rest, -, ht⟩ | ⟨e, rest, -, -, rfl⟩ := step_next ht
  · exact h.coreTurn ht
  · exact State.Inv.coreTurn (State.Inv.inputs s rest h) ht
  · exact State.Inv.receive (State.Inv.inputs s rest h) e

/-- No command faults: the only buffer that could outgrow the message buffer is exactly as long (R70). -/
theorem State.Inv.exec_not_fault {s : State} (h : s.Inv) (i : Instr) (f : Fault) : Machine.exec i s ≠ .fault f := by
  intro hfault
  obtain ⟨rfl, hn, hlt⟩ := exec_fault hfault
  exact absurd (h.length_decryptedBuffer hn) hlt.ne'

theorem State.Inv.coreTurn_not_fault {s : State} (h : s.Inv) (f : Fault) : Machine.coreTurn s ≠ .fault f := by
  cases hseq : s.seq with
  | idle => simp [coreTurn_idle hseq]
  | busy word req =>
    cases hd : decode word with
    | command i => simpa only [coreTurn_command hseq hd] using h.exec_not_fault i f
    | illegal why => simp [coreTurn_illegal hseq hd]

theorem State.Inv.step_not_fault {s : State} (h : s.Inv) (f : Fault) : Machine.step s ≠ .fault f := by
  cases hin : s.inputs with
  | nil => simpa only [step_no_input hin] using h.coreTurn_not_fault f
  | cons e rest =>
    by_cases he : e = .coreTurn
    · rw [step_coreTurn (he ▸ hin)]
      exact State.Inv.coreTurn_not_fault (State.Inv.inputs s rest h) f
    · simp [step_event hin he]

/-- Settles O59: the CORE's turn by what each command can do, every other event by `State.Inv.receive`. -/
theorem stepKeepsInvariant : Obligations.StepKeepsInvariant :=
  fun _ h => ⟨fun _ => h.step, h.step_not_fault⟩

end Sys2Proof.Machine
end

section
/-!
What the tester and the searches answer (42_primality.md section 1, 43_primegen.md, 44_keygen.md section 2): ISPRIME's
answer 0, GENPRIME's result, candidates accepted and rejected, the attempt cap, and the searches that never end.
-/

namespace Sys2Proof.Machine

/-! ### The tester -/

/-- Settles O31: `roundPasses_iff`, whose hypotheses are met. -/
theorem roundPassesExactly : Obligations.RoundPassesExactly :=
  fun _ d _ a hn hr => roundPasses_iff d a (by omega) hr

/-- Rounds whose every possible witness passes answer true, if they answer (R164). -/
theorem witnessRounds_done_true {n d r k : Nat} {ans rest : List Nat} {b : Bool}
    (hpass : ∀ a, 2 ≤ a ∧ a ≤ n - 2 → roundPasses n d r a = true)
    (h : witnessRounds n d r k ans = .done b rest) : b = true := by
  induction k generalizing ans with
  | zero => simp_all [witnessRounds]
  | succ k ih =>
    rw [witnessRounds] at h
    cases hdraw : randRange 2 (n - 2) ans with
    | wait req => simp [hdraw] at h
    | outOfRange req => simp [hdraw] at h
    | done a rest' =>
      obtain ⟨-, hin⟩ := randRange_done hdraw
      simp only [hdraw, hpass a hin, if_true] at h
      exact ih h

/-- The tester never answers false of a prime. -/
theorem isProbablePrime_of_prime {n rounds : Nat} {ans rest : List Nat} {b : Bool} (hp : Nat.Prime n)
    (h : isProbablePrime n rounds ans = .done b rest) : b = true := by
  by_cases h23 : n = 2 ∨ n = 3
  · rw [isProbablePrime_two_or_three rounds ans h23] at h
    simp_all
  · have htwo := hp.two_le
    have hodd := hp.eq_two_or_odd.resolve_left (by omega)
    have hfive : 5 ≤ n := by omega
    rw [isProbablePrime_odd rounds ans hodd hfive] at h
    exact witnessRounds_done_true (fun a ha => roundPasses_of_prime hp hfive ha) h

/-- Settles O34: ISPRIME answers with the tester's verdict, which is true of a prime. -/
theorem falseAnswerMeansComposite : Obligations.FalseAnswerMeansComposite := by
  intro s t rounds _ h hfalse hp
  have htrue := isProbablePrime_of_prime hp (prime_of_isprime_succeeds h)
  simp [hfalse] at htrue

/-! ### Candidates accepted and rejected -/

theorem capReached_zero (maxatt : Word) : capReached maxatt 0 = false := by
  rw [capReached_false]
  by_cases h : maxatt = 0
  · exact .inl h
  · exact .inr (Nat.pos_of_ne_zero fun h0 => h (BitVec.eq_of_toNat_eq h0))

/-- A prime candidate is accepted, whatever its witnesses (R176, R177). -/
theorem candidateBlock_of_prime {k v c : Nat} {ws : List Nat} (hk : 2 ≤ k) (hv : v < 2 ^ k)
    (hc : c = v ||| 2 ^ (k - 1) ||| 1) (hp : Nat.Prime c) (hlen : ws.length = if c = 3 then 0 else 16)
    (hin : ∀ a ∈ ws, 2 ≤ a ∧ a ≤ c - 2) : CandidateBlock k c true (v :: ws) := by
  refine ⟨v, ws, rfl, hv, hc.symm, ?_⟩
  obtain ⟨-, -, hodd⟩ := candidate_range hk hv
  rw [candidate, ← hc] at hodd
  by_cases h3 : c = 3
  · rw [if_pos h3] at hlen
    rw [List.length_eq_zero_iff.mp hlen]
    exact isProbablePrime_two_or_three 16 [] (.inr h3)
  · rw [if_neg h3] at hlen
    have hfive : 5 ≤ c := by
      have := hp.two_le
      omega
    simpa [hlen] using isProbablePrime_of_all_pass [] hodd hfive hin
      fun a ha => roundPasses_of_prime hp hfive (hin a ha)

/-- A candidate is rejected at the first witness that fails its round (R164, R177). -/
theorem candidateBlock_of_fail {k v c a : Nat} {ws : List Nat} (hk : 3 ≤ k) (hv : v < 2 ^ k)
    (hc : c = v ||| 2 ^ (k - 1) ||| 1) (hlen : ws.length < 16)
    (hpass : ∀ b ∈ ws, 2 ≤ b ∧ b ≤ c - 2 ∧ roundPasses c (decompose c).1 (decompose c).2 b = true)
    (ha : 2 ≤ a ∧ a ≤ c - 2) (hfail : roundPasses c (decompose c).1 (decompose c).2 a = false) :
    CandidateBlock k c false (v :: (ws ++ [a])) := by
  refine ⟨v, ws ++ [a], rfl, hv, hc.symm, ?_⟩
  obtain ⟨hlow, -, hodd⟩ := candidate_range (by omega) hv
  rw [candidate, ← hc] at hlow hodd
  have hfour : 2 ^ 2 ≤ 2 ^ (k - 1) := Nat.pow_le_pow_right two_pos (by omega)
  exact isProbablePrime_of_fail [] hodd (by omega) (fun b hb => ⟨(hpass b hb).1, (hpass b hb).2.1⟩)
    (fun b hb => (hpass b hb).2.2) ha hlen hfail

theorem satInc_eq_ofNat (att : Word) : satInc att = BitVec.ofNat 32 (min (att.toNat + 1) (2 ^ 32 - 1)) := by
  apply BitVec.eq_of_toNat_eq
  rw [satInc_toNat, BitVec.toNat_ofNat]
  omega

/-- Settles O38: the candidate's answers are the block of a rejected one. -/
theorem rejectedCandidateIsCounted : Obligations.RejectedCandidateIsCounted := by
  intro k v c a maxatt att ws rest hk hv hcap hc hlen hpass ha hac hfail
  have hblock := candidateBlock_of_fail hk hv hc hlen hpass ⟨ha, hac⟩ hfail
  have hstep := hblock.generatePrime (capReached_false.mpr hcap) rest
  rw [← satInc_eq_ofNat]
  simpa using hstep

/-! ### GENPRIME -/

/-- GENPRIME with an operand in range is the search, concluded (R178). -/
theorem exec_genprime_of_range {s : State} {k : Nat} (hk : 2 ≤ k) (hkw : k ≤ s.width) : exec (.genprime k) s =
    s.conclude (.genprime k) State.ures0 (generatePrime k s.maxatt 0 s.answers) :=
  if_neg (by omega)

/-- A GENPRIME without error has its operand in range and ends with the candidate its search accepted (R178). -/
theorem genprime_succeeds {s t : State} {k : Nat} (h : Succeeds (.genprime k) s t) :
    2 ≤ k ∧ k ≤ s.width ∧ generatePrime k s.maxatt 0 s.answers = .done t.res0 t.attcnt t.answers ∧
      t = ({ s with attcnt := t.attcnt, answers := t.answers }.ures0 t.res0).complete := by
  obtain ⟨hexec, hbusy, herr⟩ := h
  obtain ⟨-, rfl⟩ |
    ⟨hk, hkw, ⟨c, att, rest, hdone, rfl⟩ | ⟨e, att, rest, -, rfl⟩ | ⟨req, att, -, rfl⟩⟩ :=
    exec_genprime_next hexec
  · simp at herr
  · exact ⟨hk, hkw, hdone, rfl⟩
  · simp at herr
  · simp at hbusy

/-- Settles O36: the accepted candidate's form, the cap by the search as a reader, and the blocks it has read. -/
theorem genprimeResult : Obligations.GenprimeResult := by
  intro s t k _ h
  obtain ⟨hk, hkw, hdone, ht⟩ := genprime_succeeds h
  obtain ⟨hlow, hhigh, hodd, hone⟩ := generatePrime_done hk hdone
  obtain ⟨-, -, used, -, hcap⟩ := (generatePrime_reader hk s.maxatt 0).done _ _ _ _ hdone
  obtain ⟨rejected, last, hans, hrej, hlast, hcount⟩ := generatePrime_blocks hdone
  refine ⟨hk, hkw, hlow.le, hhigh, hodd, hone, fun hm => (hcap hm (Nat.zero_le _)).1,
    ⟨rejected, last, hans, hrej, hlast, ?_⟩, ht⟩
  simpa using hcount

/-- Settles O37: the candidate's answers are the block of an accepted one, and the cap never forbids the first. -/
theorem genprimeAcceptsPrimeCandidate : Obligations.GenprimeAcceptsPrimeCandidate := by
  intro s k v c ws rest hk hkw hv hc hp hlen hin hans
  have hblock := candidateBlock_of_prime hk hv hc hp hlen hin
  rw [exec_genprime_of_range hk hkw, hans, hblock.generatePrime (capReached_zero s.maxatt) rest]
  rfl

/-! ### Searches that never end -/

/-- Without an answer a search that may draw asks for its next candidate (R177). -/
theorem generatePrime_no_answer {k : Nat} {maxatt att : Word} (hc : capReached maxatt att = false) :
    generatePrime k maxatt att [] = .wait (.randBits k) (satInc att) := by
  rw [generatePrime_eq, hc]
  rfl

theorem capReached_no_cap (att : Word) : capReached 0 att = false := capReached_false.mpr (.inl rfl)

/-- The answers 1 and 2 draw the 4-bit candidate 9 and a witness that 9 fails. -/
theorem candidateBlock_nine : CandidateBlock 4 9 false [1, 2] :=
  ⟨1, [2], rfl, by decide, by decide, by decide⟩

theorem generatePrime_nines (n : Nat) (att : Word) :
    ∃ att', generatePrime 4 0 att (List.replicate n [1, 2]).flatten = .wait (.randBits 4) att' := by
  induction n generalizing att with
  | zero => exact ⟨_, generatePrime_no_answer (capReached_no_cap att)⟩
  | succ n ih =>
    rw [List.replicate_succ, List.flatten_cons, candidateBlock_nine.generatePrime (capReached_no_cap att)]
    exact ih _

/-- For primes of at least 3 bits, a run of answers with all sixteen rounds in range is an accepted candidate's. -/
theorem DrawBlock.candidateBlock {h p : Nat} {block : List Nat} (hh : 3 ≤ h) (hp : Nat.Prime p)
    (hb : DrawBlock h p block) : CandidateBlock h p true block := by
  obtain ⟨v, ws, rfl, hv, hc, hlen, hin⟩ := hb
  obtain ⟨hlow, -, -⟩ := candidate_range (by omega) hv
  rw [candidate, hc] at hlow
  have hfour : 2 ^ 2 ≤ 2 ^ (h - 1) := Nat.pow_le_pow_right two_pos (by omega)
  exact candidateBlock_of_prime (by omega) hv hc.symm hp (by rw [if_neg (by omega), hlen]) hin

/-- The distinctness loop goes through any number of draws of p that the cap allows, counting them (R192). -/
theorem distinctPrime_again {h p : Nat} {maxatt : Word} (rest : List Nat) (again : List (List Nat)) (att : Word)
    (hb : ∀ b ∈ again, CandidateBlock h p true b)
    (hcap : maxatt = 0 ∨ att.toNat + again.length ≤ maxatt.toNat) :
    ∃ att', att'.toNat = min (att.toNat + again.length) (2 ^ 32 - 1) ∧
      distinctPrime h p maxatt att (again.flatten ++ rest) = distinctPrime h p maxatt att' rest := by
  induction again generalizing att with
  | nil =>
    have := att.isLt
    exact ⟨att, by simp only [List.length_nil]; omega, rfl⟩
  | cons b again ih =>
    rw [List.length_cons] at hcap ⊢
    have hnot : capReached maxatt att = false := capReached_false.mpr (hcap.imp_right fun _ => by omega)
    have hinc := satInc_toNat att
    obtain ⟨att', hatt', heq⟩ := ih (satInc att) (fun x hx => hb x (by simp [hx]))
      (hcap.imp_right fun _ => by omega)
    refine ⟨att', by omega, ?_⟩
    rw [List.flatten_cons, List.append_assoc, (hb b (by simp)).distinctPrime hnot (fun _ => rfl), heq]

/-- GENKEYS with an operand in range is the key generation, concluded (R193). -/
theorem exec_genkeys_of_range {s : State} {bits : Nat} (heven : bits % 2 = 0) (hb : 8 ≤ bits) (hbw : bits ≤ s.width) :
    exec (.genkeys bits) s = s.conclude (.genkeys bits) State.writeKeys (generateKeys bits s.maxatt s.answers) :=
  if_neg (by rw [show minKeyBits = 8 from rfl]; omega)

theorem generateKeys_draws_p {bits p : Nat} {blocks : List (List Nat)} (hne : blocks ≠ [])
    (hb : ∀ b ∈ blocks, CandidateBlock (bits / 2) p true b) :
    ∃ att, generateKeys bits 0 blocks.flatten = .wait (.randBits (bits / 2)) att := by
  obtain ⟨first, again, rfl⟩ := List.exists_cons_of_ne_nil hne
  obtain ⟨att, -, heq⟩ := distinctPrime_again (maxatt := 0) [] again (satInc 0)
    (fun b h => hb b (by simp [h])) (.inl rfl)
  rw [List.append_nil] at heq
  refine ⟨satInc att, ?_⟩
  rw [generateKeys, primePair_eq, List.flatten_cons, (hb first (by simp)).generatePrime (capReached_zero 0)]
  simp only [if_true, Run.andThen, heq, distinctPrime_eq _ _ _ att, generatePrime_no_answer (capReached_no_cap att)]

/-- Settles O40: every block is read and the search asks for its next candidate. -/
theorem searchMayNeverEnd : Obligations.SearchMayNeverEnd := by
  refine ⟨fun s n hm hw hans => ?genprime, fun s bits p blocks hm heven hb hbw hp hne hblocks hans => ?genkeys⟩
  case genprime =>
    obtain ⟨att, hwait⟩ := generatePrime_nines n 0
    exact ⟨_, ⟨by rw [exec_genprime_of_range (by omega) hw, hm, hans, hwait]; rfl, rfl⟩, rfl⟩
  case genkeys =>
    obtain ⟨att, hwait⟩ := generateKeys_draws_p hne fun b h => (hblocks b h).candidateBlock (by omega) hp
    exact ⟨_, ⟨by rw [exec_genkeys_of_range heven hb hbw, hm, hans, hwait]; rfl, rfl⟩, rfl⟩

end Sys2Proof.Machine
end

section
/-!
The errors (60_exceptions.md sections 1 and 2): which a command can end with, and that an error writes STATUS, SEQ and
at most ATTCNT (R233).
-/

namespace Sys2Proof.Machine

/-- The errors each command can end with (60_exceptions.md section 1; R196 for GENKEYS). -/
def commandErrors : Instr → List CmdError
  | .modexp => [.badOperand]
  | .egcd => []
  | .modinv => [.invalidModulus, .badOperand]
  | .isprime _ => [.badOperand]
  | .genprime _ => [.badOperand, .generationExhausted]
  | .genkeys _ => [.badOperand, .generationExhausted, .noCoprimeExponent]
  | .encrypt => [.badOperand, .oversizedMessage]
  | .decrypt => [.badOperand]

/-- A search of GENPRIME or GENKEYS, past the operand check, has raised `e` in `t` (R178, R193). -/
def SearchRaised (i : Instr) (s : State) (e : CmdError) (t : State) : Prop :=
  match i with
  | .genprime k => 2 ≤ k ∧ generatePrime k s.maxatt 0 s.answers = .raised e t.attcnt t.answers
  | .genkeys bits => 8 ≤ bits ∧ generateKeys bits s.maxatt s.answers = .raised e t.attcnt t.answers
  | _ => False

/-- The key generation raises GenerationExhausted or NoCoprimeExponent, never an error of `mod_inverse` (R196). -/
theorem generateKeys_raised_error {bits : Nat} (hb : 8 ≤ bits) {maxatt att : Word} {ans rest : List Nat}
    {e : CmdError} (h : generateKeys bits maxatt ans = .raised e att rest) :
    (e = .generationExhausted ∧ maxatt ≠ 0 ∧ att = maxatt) ∨ e = .noCoprimeExponent := by
  obtain hexhausted | ⟨p, q, -, hp, -, -, hq, -, -, hderive⟩ := generateKeys_raised (by omega) h
  · exact .inl hexhausted
  · have hpow : 1 ≤ 2 ^ (bits / 2 - 1) := Nat.one_le_two_pow
    exact .inr (deriveKeys_error (by omega) (by omega) hderive)

/-- How a command ends with an error `e` in `t`: raised at once, by its operand check if it draws; or raised by its
search, which writes ATTCNT (R233). -/
def ErrorEnd (i : Instr) (s : State) (e : CmdError) (t : State) : Prop :=
  e ∈ commandErrors i ∧
    ((t = s.fail e ∧ (Draws i → e = .badOperand)) ∨
      (t = { s with attcnt := t.attcnt, answers := t.answers }.fail e ∧ SearchRaised i s e t))

theorem ErrorEnd.atOnce {i : Instr} {s t : State} {e e' : CmdError} (hcode : t.errcode = e'.code) (ht : t = s.fail e)
    (hmem : e ∈ commandErrors i) (hdraws : Draws i → e = .badOperand) : ErrorEnd i s e' t := by
  obtain rfl : e = e' := CmdError.code_inj.mp (by rw [← hcode, ht]; rfl)
  exact ⟨hmem, .inl ⟨ht, hdraws⟩⟩

/-- Every end with an error is one of the two kinds. -/
theorem errorEnd_of_failsWith {i : Instr} {s t : State} {e : CmdError} (hs : s.err = false)
    (h : FailsWith i s e t) : ErrorEnd i s e t := by
  obtain ⟨hexec, hbusy, herr, hcode⟩ := h
  cases i with
  | modexp =>
    obtain ⟨-, ht⟩ | ⟨-, rfl⟩ := exec_modexp_next hexec
    · exact .atOnce hcode ht (by simp [commandErrors]) fun _ => rfl
    · simp [hs] at herr
  | egcd => simp [exec_egcd_next hexec, hs] at herr
  | modinv =>
    obtain ⟨-, ht⟩ | ⟨-, ht⟩ | ⟨v, -, rfl⟩ := exec_modinv_next hexec
    · exact .atOnce hcode ht (by simp [commandErrors]) fun _ => rfl
    · exact .atOnce hcode ht (by simp [commandErrors]) nofun
    · simp [hs] at herr
  | isprime rounds =>
    obtain ⟨-, ht⟩ | ⟨-, ⟨b, rest, -, rfl⟩ | ⟨req, -, rfl⟩⟩ := exec_isprime_next hexec
    · exact .atOnce hcode ht (by simp [commandErrors]) fun _ => rfl
    · simp [hs] at herr
    · simp at hbusy
  | genprime k =>
    obtain ⟨-, ht⟩ |
      ⟨hk, -, ⟨c, att, rest, -, rfl⟩ | ⟨e', att, rest, hraised, rfl⟩ | ⟨req, att, -, rfl⟩⟩ :=
      exec_genprime_next hexec
    · exact .atOnce hcode ht (by simp [commandErrors]) fun _ => rfl
    · simp [hs] at herr
    · obtain rfl : e' = e := CmdError.code_inj.mp hcode
      obtain ⟨rfl, -⟩ := generatePrime_raised hraised
      exact ⟨by simp [commandErrors], .inr ⟨rfl, hk, hraised⟩⟩
    · simp at hbusy
  | genkeys bits =>
    obtain ⟨-, ht⟩ |
      ⟨-, hb, -, ⟨k, att, rest, -, rfl⟩ | ⟨e', att, rest, hraised, rfl⟩ | ⟨req, att, -, rfl⟩⟩ :=
      exec_genkeys_next hexec
    · exact .atOnce hcode ht (by simp [commandErrors]) fun _ => rfl
    · simp [hs] at herr
    · obtain rfl : e' = e := CmdError.code_inj.mp hcode
      refine ⟨?_, .inr ⟨rfl, hb, hraised⟩⟩
      obtain ⟨rfl, -⟩ | rfl := generateKeys_raised_error hb hraised <;> simp [commandErrors]
    · simp at hbusy
  | encrypt =>
    rw [exec_encrypt_eq] at hexec
    split_ifs at hexec <;> have ht := (Host.Outcome.next.inj hexec).symm
    · exact .atOnce hcode ht (by simp [commandErrors]) fun _ => rfl
    · exact .atOnce hcode ht (by simp [commandErrors]) nofun
    · simp [ht, hs] at herr
  | decrypt =>
    obtain ⟨-, ht⟩ | ⟨-, -, rfl⟩ := exec_decrypt_next hexec
    · exact .atOnce hcode ht (by simp [commandErrors]) fun _ => rfl
    · simp [hs] at herr

/-- Settles O49: the list is `commandErrors`. -/
theorem errorsOfEachCommand : Obligations.ErrorsOfEachCommand := by
  intro i s t e hs h
  obtain ⟨hmem, -⟩ := errorEnd_of_failsWith hs h
  cases i <;> exact hmem

/-- A search raises no error that an operand check or the decoder raises, and only commands that draw search. -/
theorem SearchRaised.late {i : Instr} {s t : State} {e : CmdError} (h : SearchRaised i s e t) :
    Draws i ∧ e ≠ .illegalCommand ∧ e ≠ .badOperand := by
  cases i with
  | genprime k =>
    obtain ⟨rfl, -⟩ := generatePrime_raised h.right
    exact ⟨trivial, nofun, nofun⟩
  | genkeys bits =>
    obtain ⟨hb, hraised⟩ := h
    obtain ⟨rfl, -⟩ | rfl := generateKeys_raised_error hb hraised <;> exact ⟨trivial, nofun, nofun⟩
  | _ => exact h.elim

/-- Settles O50: an error at once is `State.fail` of the start state, and one of a search of that with ATTCNT and the
answers as the search left them. -/
theorem errorsArePrecise : Obligations.ErrorsArePrecise := by
  intro i s t e hs h
  obtain ⟨-, ⟨rfl, -⟩ | ⟨ht, hsearch⟩⟩ := errorEnd_of_failsWith hs h
  · exact ⟨rfl, fun _ => ⟨rfl, rfl⟩⟩
  · obtain ⟨hdraws, hillegal, hbad⟩ := hsearch.late
    refine ⟨ht, ?_⟩
    rintro (rfl | rfl | hno)
    · exact absurd rfl hillegal
    · exact absurd rfl hbad
    · exact absurd hdraws hno

/-- A drawing command that ends with an error other than BadOperand ends so by its search. -/
theorem searchRaised_of_failsWith {i : Instr} {s t : State} {e : CmdError} (hs : s.err = false)
    (h : FailsWith i s e t) (hdraws : Draws i) (he : e ≠ .badOperand) : SearchRaised i s e t := by
  obtain ⟨-, ⟨-, hbad⟩ | ⟨-, hsearch⟩⟩ := errorEnd_of_failsWith hs h
  · exact absurd (hbad hdraws) he
  · exact hsearch

end Sys2Proof.Machine
end

section
/-!
The attempt cap (43_primegen.md section 2, 44_keygen.md section 2) and what GENKEYS draws, writes and ends with
(44_keygen.md sections 1 to 3).
-/

namespace Sys2Proof.Machine

/-! ### What was drawn between two states -/

/-- What a search from ATTCNT = 0 drew is what was drawn between the command's two states. -/
theorem Drew.drawnBetween {k : Nat} {draws : List Candidate} {s t : State}
    (h : Drew k draws s.maxatt 0 t.attcnt s.answers t.answers) : DrawnBetween k draws s t where
  blocks := h.blocks
  answers := h.answers
  count := by simpa using h.count
  cap hm := by simpa using h.cap hm (Nat.zero_le _)

/-- A search that has exhausted its attempts has drawn as many candidates as the cap allows. -/
theorem DrawnBetween.length_eq {k : Nat} {draws : List Candidate} {s t : State} (h : DrawnBetween k draws s t)
    (hm : s.maxatt ≠ 0) (hatt : t.attcnt = s.maxatt) : draws.length = s.maxatt.toNat := by
  have hlt := s.maxatt.isLt
  have hcount := h.count
  have hcap := h.cap hm
  rw [hatt] at hcount
  omega

/-- The two factors of a key generation are odd numbers of exactly h bits (R176, R192). -/
theorem Drew.pair_range {h p q n : Nat} {draws : List Candidate} {block : List Nat} {maxatt att att' : Word}
    {ans rest : List Nat} (hh : 2 ≤ h) (hacc : acceptedValues draws = p :: List.replicate n p)
    (hd : Drew h (draws ++ [⟨q, true, block⟩]) maxatt att att' ans rest) :
    (2 ^ (h - 1) < p ∧ p < 2 ^ h ∧ p % 2 = 1) ∧ 2 ^ (h - 1) < q ∧ q < 2 ^ h ∧ q % 2 = 1 := by
  obtain ⟨c, hc, rfl, -⟩ := mem_acceptedValues (hacc ▸ List.mem_cons_self)
  exact ⟨(hd.blocks c (by simp [hc])).range hh, (hd.blocks ⟨q, true, block⟩ (by simp)).range hh⟩

/-! ### The attempt cap -/

/-- The key generation is exhausted only in its searches, where all that was accepted is one p (R177, R192). -/
theorem generateKeys_exhausted_drew {bits : Nat} (hb : 8 ≤ bits) {maxatt att : Word} {ans rest : List Nat}
    (h : generateKeys bits maxatt ans = .raised .generationExhausted att rest) :
    ∃ draws p n, acceptedValues draws = List.replicate n p ∧ Drew (bits / 2) draws maxatt 0 att ans rest := by
  obtain ⟨p, q, hderive, -, draws, n, block, hacc, hd⟩ | ⟨-, hdrew⟩ := (generateKeys_drew bits maxatt ans).2 _ _ _ h
  · obtain ⟨⟨hp, -⟩, hq, -⟩ := hd.pair_range (by omega) hacc
    have hpow : 1 ≤ 2 ^ (bits / 2 - 1) := Nat.one_le_two_pow
    exact absurd (deriveKeys_error (by omega) (by omega) hderive) nofun
  · exact hdrew

/-- GenerationExhausted occurs only with a cap, and then ATTCNT is at the cap (R177). -/
theorem SearchRaised.exhausted {i : Instr} {s t : State} (h : SearchRaised i s .generationExhausted t) :
    s.maxatt ≠ 0 ∧ t.attcnt = s.maxatt := by
  cases i with
  | genprime k =>
    obtain ⟨-, hm, hatt⟩ := generatePrime_raised h.right
    exact ⟨hm, hatt (Nat.zero_le _)⟩
  | genkeys bits =>
    obtain ⟨hb, hraised⟩ := h
    obtain ⟨-, hcap⟩ | hno := generateKeys_raised_error hb hraised
    · exact hcap
    · cases hno
  | _ => exact h.elim

/-- Settles O39: a search ends so only at the cap, and as many candidates as the cap allows exhaust it. -/
theorem attemptCap : Obligations.AttemptCap := by
  refine ⟨fun s t i n hs hi h => ?cap, fun s t k hs h => ?genprime, fun s t bits hs h => ?genkeys,
    fun s t k draws hk hkw hm ht hdrawn hlen hacc => ?genprimeEnds,
    fun s t bits draws p n heven hb hbw hm ht hdrawn hlen hacc => ?genkeysEnds,
    fun k maxatt ans hm => ?atOnce⟩
  case cap =>
    have hdraws : Draws i := by obtain rfl | rfl := hi <;> trivial
    exact (searchRaised_of_failsWith hs h hdraws nofun).exhausted
  case genprime =>
    have hsearch := searchRaised_of_failsWith hs h trivial nofun
    obtain ⟨hm, hatt⟩ := hsearch.exhausted
    obtain ⟨draws, hacc, hd⟩ := (generatePrime_drew k s.maxatt 0 s.answers).2 _ _ _ hsearch.right
    exact ⟨draws, hd.drawnBetween, hd.drawnBetween.length_eq hm hatt, hacc⟩
  case genkeys =>
    have hsearch := searchRaised_of_failsWith hs h trivial nofun
    obtain ⟨hm, hatt⟩ := hsearch.exhausted
    obtain ⟨draws, p, n, hacc, hd⟩ := generateKeys_exhausted_drew hsearch.left hsearch.right
    exact ⟨draws, p, n, hd.drawnBetween, hd.drawnBetween.length_eq hm hatt, hacc⟩
  case genprimeEnds =>
    rw [exec_genprime_of_range hk hkw, hdrawn.answers,
      generatePrime_exhausts hm t.answers draws 0 hdrawn.blocks hacc (by simpa using hlen), ht]
    rfl
  case genkeysEnds =>
    have hall : ∀ v ∈ acceptedValues draws, v = p := fun v hv => List.eq_of_mem_replicate (hacc ▸ hv)
    rw [exec_genkeys_of_range heven hb hbw, hdrawn.answers, generateKeys,
      primePair_exhausts hm t.answers draws 0 hdrawn.blocks hall (by simpa using hlen), ht]
    rfl
  case atOnce =>
    rw [generatePrime_eq, capReached_true.mpr ⟨hm, le_rfl⟩]
    rfl

/-! ### The result of GENKEYS -/

/-- The search for the two primes raises nothing but GenerationExhausted (R177, R192). -/
theorem primePair_raised {h : Nat} (hh : 2 ≤ h) {maxatt att att' : Word} {ans rest : List Nat} {e : CmdError}
    (hr : primePair h maxatt att ans = .raised e att' rest) : e = .generationExhausted := by
  rw [primePair_eq] at hr
  cases hp : generatePrime h maxatt att ans with
  | wait req a => simp [hp, Run.andThen] at hr
  | outOfRange req => simp [hp, Run.andThen] at hr
  | raised e' a r =>
    simp only [hp, Run.andThen, Run.raised.injEq] at hr
    exact hr.left ▸ (generatePrime_raised hp).1
  | done p a r =>
    simp only [hp, Run.andThen] at hr
    cases hq : distinctPrime h p maxatt a r with
    | wait req a' => simp [hq] at hr
    | outOfRange req => simp [hq] at hr
    | done q a' r' => simp [hq] at hr
    | raised e' a' r' =>
      simp only [hq, Run.raised.injEq] at hr
      exact hr.left ▸ (distinctPrime_raised hh hq).1

/-- A GENKEYS without error has its operand in range and ends with the key pair its generation derived (R193). -/
theorem genkeys_succeeds {s t : State} {bits : Nat} (h : Succeeds (.genkeys bits) s t) :
    bits % 2 = 0 ∧ 8 ≤ bits ∧ bits ≤ s.width ∧ ∃ key,
      generateKeys bits s.maxatt s.answers = .done key t.attcnt t.answers ∧
      t = ({ s with attcnt := t.attcnt, answers := t.answers }.writeKeys key).complete := by
  obtain ⟨hexec, hbusy, herr⟩ := h
  obtain ⟨-, rfl⟩ |
    ⟨heven, hb, hbw, ⟨key, att, rest, hdone, rfl⟩ | ⟨e, att, rest, -, rfl⟩ | ⟨req, att, -, rfl⟩⟩ :=
    exec_genkeys_next hexec
  · simp at herr
  · exact ⟨heven, hb, hbw, key, hdone, rfl⟩
  · simp at herr
  · simp at hbusy

/-- What a key generation drew makes its command's pair of primes (R192). -/
theorem Drew.pairDrawn {h p q n : Nat} {draws : List Candidate} {block : List Nat} {s t : State} (hpq : p ≠ q)
    (hacc : acceptedValues draws = p :: List.replicate n p)
    (hd : Drew h (draws ++ [⟨q, true, block⟩]) s.maxatt 0 t.attcnt s.answers t.answers) : PairDrawn h p q s t :=
  ⟨hpq, draws, n, block, hd.drawnBetween, hacc⟩

/-- Settles O41: the two primes by what the generation drew, the keys by `deriveKeys_ok`, and the other end by
`selectExponent_eq_none_iff`. -/
theorem genkeysResult : Obligations.GenkeysResult := by
  refine ⟨fun s t bits _ h => ?succeeds, fun s t bits hs h => ?noExponent⟩
  case succeeds =>
    obtain ⟨heven, hb, hbw, key, hdone, ht⟩ := genkeys_succeeds h
    obtain ⟨p, q, hderive, hpq, draws, n, block, hacc, hd⟩ := (generateKeys_drew bits s.maxatt s.answers).1 _ _ _ hdone
    obtain ⟨⟨hp, hph, hpodd⟩, hq, hqh, hqodd⟩ := hd.pair_range (by omega) hacc
    have htwo : 2 ≤ 2 ^ (bits / 2 - 1) := Nat.le_self_pow (by omega) 2
    have hphi := one_lt_phi (p := p) (q := q) (by omega) (by omega)
    obtain ⟨hn, hsel, hd0, hdphi, hmul⟩ := deriveKeys_ok hphi hderive
    have hpubN : t.pubN = key.n := by rw [ht]; rfl
    have hpubE : t.pubE = key.e := by rw [ht]; rfl
    have hprivN : t.privN = key.n := by rw [ht]; rfl
    have hprivD : t.privD = key.d := by rw [ht]; rfl
    have hcoprime : Nat.Coprime key.e ((p - 1) * (q - 1)) := by
      have := selectExponent_coprime hsel
      rwa [Int.gcd_natCast_natCast] at this
    refine ⟨heven, hb, hbw, ⟨p, q, hpq, hpodd, hqodd, hp.le, hph, hq.le, hqh, hd.pairDrawn hpq hacc, hpubN.trans hn,
      hprivN.trans hn, ?_, hpubE ▸ hcoprime, hprivD ▸ hd0, hprivD ▸ hdphi, by rw [hpubE, hprivD, hmul]⟩, ?_⟩
    · rw [selectExponent_eq (by omega)] at hsel
      rw [hpubE]
      split_ifs at hsel ⊢ <;> exact (Option.some.inj hsel).symm
    · rw [hpubN, hpubE, hprivN, hprivD]
      exact ht
  case noExponent =>
    obtain ⟨hb, hraised⟩ := searchRaised_of_failsWith hs h trivial nofun
    obtain ⟨p, q, hderive, hpq, draws, n, block, hacc, hd⟩ | ⟨hpair, -⟩ :=
      (generateKeys_drew bits s.maxatt s.answers).2 _ _ _ hraised
    · obtain ⟨⟨hp, -⟩, hq, -⟩ := hd.pair_range (by omega) hacc
      have htwo : 2 ≤ 2 ^ (bits / 2 - 1) := Nat.le_self_pow (by omega) 2
      have hphi := one_lt_phi (p := p) (q := q) (by omega) (by omega)
      exact ⟨p, q, hd.pairDrawn hpq hacc,
        (selectExponent_eq_none_iff (by omega)).mp (selectExponent_of_error hphi hderive)⟩
    · cases primePair_raised (by omega) hpair

/-! ### GENKEYS given the answers of two primes -/

/-- Blocks of p, of p again any number of times, and of a different q make the pair of p and q (R192). -/
theorem primePair_of_blocks {h p q : Nat} {maxatt : Word} {first last : List Nat} {again : List (List Nat)}
    (rest : List Nat) (hpq : p ≠ q) (hfirst : CandidateBlock h p true first)
    (hagain : ∀ b ∈ again, CandidateBlock h p true b) (hlast : CandidateBlock h q true last)
    (hlen : again.length + 2 < 2 ^ 32) (hcap : maxatt = 0 ∨ again.length + 2 ≤ maxatt.toNat) :
    primePair h maxatt 0 (first ++ again.flatten ++ last ++ rest) =
      .done (p, q) (BitVec.ofNat 32 (again.length + 2)) rest := by
  have hone : (satInc 0).toNat = 1 := rfl
  obtain ⟨att, hatt, heq⟩ := distinctPrime_again (last ++ rest) again (satInc 0) hagain
    (hcap.imp_right fun _ => by omega)
  have hcount : satInc att = BitVec.ofNat 32 (again.length + 2) := by
    rw [satInc_eq_ofNat]
    congr 1
    omega
  have hq : distinctPrime h p maxatt att (last ++ rest) = .done q (satInc att) rest := by
    rw [distinctPrime_eq, hlast.generatePrime (capReached_false.mpr (hcap.imp_right fun _ => by omega))]
    exact if_neg hpq.symm
  rw [List.append_assoc, List.append_assoc, primePair_eq, hfirst.generatePrime (capReached_zero maxatt)]
  simp only [if_true, Run.andThen, heq, hq, hcount]

/-- The conditions on e of the statement about GENKEYS name the exponent the generator selects (R194). -/
theorem selectExponent_eq_some {phi e : Nat} (hphi : 0 < phi) (h65537 : Nat.Coprime 65537 phi → e = 65537)
    (h3 : ¬ Nat.Coprime 65537 phi → Nat.Coprime 3 phi → e = 3)
    (h17 : ¬ Nat.Coprime 65537 phi → ¬ Nat.Coprime 3 phi → e = 17) (he : Nat.Coprime e phi) :
    selectExponent phi = some e := by
  rw [selectExponent_eq hphi]
  split_ifs with hc hc' hc''
  · rw [h65537 hc]
  · rw [h3 hc hc']
  · rw [h17 hc hc']
  · exact absurd (h17 hc hc' ▸ he) hc''

/-- Settles O42: the pair of p and q by `primePair_of_blocks`, and its keys by `deriveKeys_of_some`. -/
theorem genkeysFromTwoPrimes : Obligations.GenkeysFromTwoPrimes := by
  intro s bits p q first last rest again heven hb hbw hp hq hpq hfirst hagain hlast hans hlen hcap
  have hpblock := hfirst.candidateBlock (by omega) hp
  have hqblock := hlast.candidateBlock (by omega) hq
  have hpair := primePair_of_blocks rest hpq hpblock (fun b h => (hagain b h).candidateBlock (by omega) hp) hqblock
    hlen hcap
  rw [← hans] at hpair
  have hphi : 1 < (p - 1) * (q - 1) := by
    have htwo : 2 ≤ 2 ^ (bits / 2 - 1) := Nat.le_self_pow (by omega) 2
    exact one_lt_phi (htwo.trans_lt (hpblock.range (by omega)).1) (htwo.trans_lt (hqblock.range (by omega)).1)
  rw [exec_genkeys_of_range heven hb hbw, generateKeys, hpair]
  refine ⟨fun e h65537 h3 h17 he => ?keys, fun h65537 h3 h17 => ?noExponent⟩
  case keys =>
    obtain ⟨d, hok, -, hd, hmul⟩ :=
      deriveKeys_of_some hphi (selectExponent_eq_some (Nat.zero_lt_of_lt hphi) h65537 h3 h17 he)
    exact ⟨d, hd, hmul, by simp only [Run.andThen, hok]; rfl⟩
  case noExponent =>
    have hnone := (selectExponent_eq_none_iff (Nat.zero_lt_of_lt hphi)).mpr ⟨h65537, h3, h17⟩
    simp only [Run.andThen, deriveKeys_of_none hnone]
    rfl

end Sys2Proof.Machine
end

section
/-!
The answers of the random source (10_state.md R50 to R53): read in order, one for each request, whenever they arrive;
and after how many of them a command has ended (70_reset_and_hazards.md section 3).
-/

namespace Sys2Proof.Machine

/-! ### Commands that read no answer -/

theorem exec_not_busy_of_not_draws {i : Instr} {s t : State} (hi : ¬ Draws i) (h : exec i s = .next t) :
    t.busy = false := by
  cases i with
  | modexp => obtain ⟨-, rfl⟩ | ⟨-, rfl⟩ := exec_modexp_next h <;> rfl
  | egcd =>
    rw [exec_egcd_next h]
    rfl
  | modinv => obtain ⟨-, rfl⟩ | ⟨-, rfl⟩ | ⟨v, -, rfl⟩ := exec_modinv_next h <;> rfl
  | isprime rounds => exact absurd trivial hi
  | genprime k => exact absurd trivial hi
  | genkeys bits => exact absurd trivial hi
  | encrypt =>
    rw [exec_encrypt_eq] at h
    split_ifs at h <;> cases h <;> rfl
  | decrypt => obtain ⟨-, rfl⟩ | ⟨-, -, rfl⟩ := exec_decrypt_next h <;> rfl

theorem exec_not_refused_of_not_draws {i : Instr} {s : State} (hi : ¬ Draws i) (why : Refusal) :
    exec i s ≠ .refused why := by
  intro h
  obtain ⟨req, -, ⟨rounds, rfl, -⟩ | ⟨k, rfl, -⟩ | ⟨bits, rfl, -⟩⟩ := exec_refused h <;> exact hi trivial

/-- The state with the list of answers replaced. -/
def State.withAnswers (s : State) (ans : List Nat) : State := { s with answers := ans }

/-- A command that does not draw does not depend on the answers (R22). -/
theorem exec_withAnswers_of_not_draws {i : Instr} (hi : ¬ Draws i) (s : State) (ans : List Nat) :
    exec i (s.withAnswers ans) = mapNext (fun t => t.withAnswers ans) (exec i s) := by
  cases i with
  | modexp =>
    simp only [exec, execModexp, apply_ite (mapNext _)]
    rfl
  | egcd => rfl
  | modinv =>
    change execModinv _ = mapNext _ (execModinv s)
    unfold execModinv
    rw [show (s.withAnswers ans).svalA = s.svalA from rfl, show (s.withAnswers ans).svalB = s.svalB from rfl]
    cases modInverse s.svalA s.svalB <;> rfl
  | isprime rounds => exact absurd trivial hi
  | genprime k => exact absurd trivial hi
  | genkeys bits => exact absurd trivial hi
  | encrypt =>
    simp only [exec_encrypt_eq, apply_ite (mapNext _)]
    rfl
  | decrypt =>
    simp only [exec_decrypt_eq, apply_ite (mapNext _)]
    rfl

/-- The command `i` at `s` reads no answer: it ends, or faults, the same way whatever the answers are. -/
structure ReadsNoAnswer (i : Instr) (s : State) : Prop where
  exec : ∀ ans, exec i (s.withAnswers ans) = mapNext (fun t => t.withAnswers ans) (exec i s)
  ends : ∀ t, Machine.exec i s = .next t → t.busy = false ∧ t.answers = s.answers
  not_refused : ∀ why, Machine.exec i s ≠ .refused why

theorem readsNoAnswer_of_not_draws {i : Instr} (hi : ¬ Draws i) (s : State) : ReadsNoAnswer i s where
  exec := exec_withAnswers_of_not_draws hi s
  ends t h := by
    obtain ⟨-, -, -, -, -, -, -, -, -, -, -, -, -, -, -, -, hans⟩ := commandsWriteOnlyTheirRow i s t h
    exact ⟨exec_not_busy_of_not_draws hi h, hans hi⟩
  not_refused := exec_not_refused_of_not_draws hi

/-- A failed operand check comes before any request (R235). -/
theorem readsNoAnswer_of_badOperandCause {i : Instr} {s : State} (h : BadOperandCause i s) : ReadsNoAnswer i s where
  exec ans := by
    have hans : BadOperandCause i (s.withAnswers ans) := by cases i <;> exact h
    rw [exec_of_badOperandCause h, exec_of_badOperandCause hans]
    rfl
  ends t ht := by
    rw [exec_of_badOperandCause h] at ht
    obtain rfl := Host.Outcome.next.inj ht
    exact ⟨rfl, rfl⟩
  not_refused why := by simp [exec_of_badOperandCause h]

/-! ### Commands that draw -/

/-- The command `i` at `s`, past its operand check, is the run `F` of the answers, concluded; run again from a state in
which it waited, it is the same run. -/
structure RunsAs {α : Type} (i : Instr) (s : State) (write : State → α → State) (F : List Nat → Run α) : Prop where
  draws : Draws i
  oneByOne : ∀ ans, Run.OneByOneAt F ans
  exec : ∀ ans, exec i (s.withAnswers ans) = (s.withAnswers ans).conclude i write (F ans)
  again : ∀ req att, F s.answers = .wait req att → ∀ ans,
    Machine.exec i (({ s with attcnt := att }.waitFor i req).withAnswers ans) =
      (s.withAnswers ans).conclude i write (F ans)
  write_answers : ∀ t a ans, write (t.withAnswers ans) a = (write t a).withAnswers ans

/-- How a run is concluded does not depend on the ATTCNT and the request of an earlier wait. -/
theorem State.conclude_waited {α : Type} {write : State → α → State}
    (hw : ∀ (t : State) (q : Seq) (a : α), (write { t with seq := q } a).complete = (write t a).complete)
    (s : State) (i : Instr) (req : Request) (att : Word) (ans : List Nat) (r : Run α) :
    (({ s with attcnt := att }.waitFor i req).withAnswers ans).conclude i write r =
      (s.withAnswers ans).conclude i write r := by
  cases r with
  | done a att' rest => exact congrArg Host.Outcome.next (hw { s with attcnt := att', answers := rest } _ a)
  | raised e att' rest => rfl
  | wait req' att' => rfl
  | outOfRange req' => rfl

/-- Every command either reads no answer or is such a run. -/
theorem readsNoAnswer_or_runsAs (i : Instr) (s : State) :
    ReadsNoAnswer i s ∨ ∃ (α : Type) (write : State → α → State) (F : List Nat → Run α), RunsAs i s write F := by
  by_cases hi : Draws i
  · by_cases hbad : BadOperandCause i s
    · exact .inl (readsNoAnswer_of_badOperandCause hbad)
    · refine .inr ?_
      cases i with
      | isprime rounds =>
        refine ⟨Bool, State.setPrime, fun ans => (isProbablePrime s.opa rounds ans).counted s.attcnt, hi,
          isProbablePrime_oneByOne s.opa rounds s.attcnt, fun ans => if_neg hbad, fun req att hwait ans => ?_,
          fun _ _ _ => rfl⟩
        obtain rfl : s.attcnt = att := by
          cases htest : isProbablePrime s.opa rounds s.answers <;> simp_all [Draw.counted]
        exact (if_neg hbad).trans (State.conclude_waited (fun _ _ _ => rfl) ..)
      | genprime k =>
        refine ⟨Nat, State.ures0, generatePrime k s.maxatt 0, hi, generatePrime_oneByOne k s.maxatt 0,
          fun _ => if_neg hbad, fun _ _ _ _ => (if_neg hbad).trans (State.conclude_waited (fun _ _ _ => rfl) ..),
          fun _ _ _ => rfl⟩
      | genkeys bits =>
        refine ⟨KeyPair, State.writeKeys, generateKeys bits s.maxatt, hi, generateKeys_oneByOne bits s.maxatt,
          fun _ => if_neg hbad, fun _ _ _ _ => (if_neg hbad).trans (State.conclude_waited (fun _ _ _ => rfl) ..),
          fun _ _ _ => rfl⟩
      | _ => exact hi.elim
  · exact .inl (readsNoAnswer_of_not_draws hi s)

/-! ### One answer for each request -/

/-- What an ended run leaves is a tail of what it was given. -/
theorem Run.OneByOneAt.used {α : Type} {F : List Nat → Run α} {ans rest : List Nat} (h : Run.OneByOneAt F ans)
    (hx : (∃ a att, F ans = .done a att rest) ∨ ∃ e att, F ans = .raised e att rest) :
    ∃ used, ans = used ++ rest := by
  obtain ⟨a, att, hF⟩ | ⟨e, att, hF⟩ := hx <;> simp only [Run.OneByOneAt, hF] at h <;> obtain ⟨used, hu, -⟩ := h <;>
    exact ⟨used, hu⟩

section
variable {α : Type} {i : Instr} {s : State} {write : State → α → State} {F : List Nat → Run α}

theorem RunsAs.exec_self (h : RunsAs i s write F) : Machine.exec i s = s.conclude i write (F s.answers) :=
  h.exec s.answers

theorem RunsAs.write_rest (h : RunsAs i s write F) (t : State) (a : α) (rest : List Nat) :
    (write (t.withAnswers rest) a).answers = rest := by
  rw [h.write_answers]
  rfl

/-- Where the run waits the command waits, keeping its answers, with the run's request open. -/
theorem RunsAs.waits (h : RunsAs i s write F) {ans : List Nat} {req : Request} {att : Word}
    (hw : F ans = .wait req att) :
    ∃ u, Waits i (s.withAnswers ans) u ∧ u.seq = .busy (encode i) (some req) := by
  refine ⟨({ s.withAnswers ans with attcnt := att }).waitFor i req, ⟨?_, rfl⟩, rfl⟩
  rw [h.exec, hw]
  rfl

/-- How the run of a command that does not refuse stands: ended, all it left still there, or waiting, all kept. -/
theorem RunsAs.next_cases (h : RunsAs i s write F) {ans : List Nat} {t : State}
    (ht : Machine.exec i (s.withAnswers ans) = .next t) :
    (t.busy = false ∧ ((∃ a att, F ans = .done a att t.answers) ∨ ∃ e att, F ans = .raised e att t.answers)) ∨
    ∃ req att, F ans = .wait req att ∧ t = ({ s.withAnswers ans with attcnt := att }).waitFor i req := by
  rw [h.exec] at ht
  obtain ⟨a, att, rest, hF, rfl⟩ | ⟨e, att, rest, hF, rfl⟩ | ⟨req, att, hF, rfl⟩ := State.conclude_next ht
  · have hans : (write { s.withAnswers ans with attcnt := att, answers := rest } a).answers = rest :=
      h.write_rest { s.withAnswers ans with attcnt := att } a rest
    exact .inl ⟨rfl, .inl ⟨a, att, by rw [State.complete_answers, hans, hF]⟩⟩
  · exact .inl ⟨rfl, .inr ⟨e, att, hF⟩⟩
  · exact .inr ⟨req, att, hF, rfl⟩

/-- An ended run has read a first part of the answers, and with less than that part it waits. -/
theorem RunsAs.used (h : RunsAs i s write F) {t : State} (ht : Machine.exec i s = .next t) (hb : t.busy = false) :
    ∃ used, s.answers = used ++ t.answers ∧
      ∀ pre post, used = pre ++ post → post ≠ [] → ∃ u, Waits i (s.withAnswers pre) u := by
  obtain ⟨-, hF⟩ | ⟨req, att, -, rfl⟩ := h.next_cases (ans := s.answers) ht
  · obtain ⟨used, hused⟩ := (h.oneByOne s.answers).used hF
    refine ⟨used, hused, ?_⟩
    rintro pre post rfl hpost
    rw [hused, List.append_assoc] at hF
    have hlen : t.answers.length < (post ++ t.answers).length := by
      have := List.length_pos_iff.mpr hpost
      rw [List.length_append]
      omega
    obtain ⟨req, att, hw⟩ := Run.oneByOne_wait_of_fewer h.oneByOne hlen hF
    obtain ⟨u, hu, -⟩ := h.waits hw
    exact ⟨u, hu⟩
  · cases hb

/-- A waiting command takes the next answer and no more, if in range, and else is refused for it. -/
theorem RunsAs.next_answer (h : RunsAs i s write F) {req : Request} {att : Word}
    (hw : F s.answers = .wait req att) (v : Nat) :
    (req.Admits v → ∃ u, Machine.exec i (s.withAnswers (s.answers ++ [v])) = .next u ∧
      (u.busy = false → u.answers = [])) ∧
    (¬ req.Admits v → Machine.exec i (s.withAnswers (s.answers ++ [v])) = .refused (.randomOutOfRange req)) := by
  refine ⟨fun hv => ?_, fun hv => ?_⟩
  · have hends : ∃ u, Machine.exec i (s.withAnswers (s.answers ++ [v])) = .next u := by
      rw [h.exec]
      obtain ⟨a, att', hF⟩ | ⟨e, att', hF⟩ | ⟨q, att', hF⟩ := Run.oneByOne_next h.oneByOne hw hv <;>
        exact ⟨_, by rw [hF]; rfl⟩
    obtain ⟨u, hu⟩ := hends
    refine ⟨u, hu, fun hb => ?_⟩
    obtain ⟨-, hF⟩ | ⟨req', att', -, rfl⟩ := h.next_cases hu
    · obtain ⟨a, att', hN⟩ | ⟨e, att', hN⟩ | ⟨q, att', hN⟩ := Run.oneByOne_next h.oneByOne hw hv <;>
        simp_all
    · cases hb
  · have hat := h.oneByOne s.answers
    simp only [Run.OneByOneAt, hw] at hat
    rw [h.exec, hat v [] hv]
    rfl

end

/-- Settles O55: a command that reads no answer leaves them all; one that draws is a run that reads one for each
request. -/
theorem answersAreReadInOrder : Obligations.AnswersAreReadInOrder := by
  intro i s
  obtain hno | ⟨α, write, F, hrun⟩ := readsNoAnswer_or_runsAs i s
  · refine ⟨fun t ht => ?_, fun r hr => absurd hr (hno.not_refused r)⟩
    obtain ⟨hb, hans⟩ := hno.ends t ht
    refine ⟨fun _ => ⟨[], hans.symm, fun pre post h hpost => absurd (List.append_eq_nil_iff.mp h.symm).2 hpost⟩,
      fun hbusy => ?_⟩
    simp [hb] at hbusy
  · refine ⟨fun t ht => ⟨hrun.used ht, fun hbusy => ?_⟩, fun r hr => ?_⟩
    · obtain ⟨hb, -⟩ | ⟨req, att, hw, rfl⟩ := hrun.next_cases (ans := s.answers) ht
      · simp [hb] at hbusy
      · exact ⟨rfl, req, rfl, hrun.next_answer hw⟩
    · rw [hrun.exec_self] at hr
      obtain ⟨req, hF, rfl⟩ := State.conclude_refused hr
      have hat := hrun.oneByOne s.answers
      simp only [Run.OneByOneAt, hF] at hat
      obtain ⟨pre, v, post, att, hans, hw, hv⟩ := hat
      obtain ⟨u, hu, hseq⟩ := hrun.waits hw
      exact ⟨hrun.draws, req, pre, v, post, u, rfl, hans, hv, hu, hseq⟩

/-! ### Answers that come later -/

/-- A run that has ended ends the same way with more answers behind, all of them left (R53). -/
theorem RunsAs.more {α : Type} {i : Instr} {s t : State} {write : State → α → State} {F : List Nat → Run α}
    (h : RunsAs i s write F) (ht : Machine.exec i s = .next t) (hb : t.busy = false) (more : List Nat) :
    Machine.exec i (s.withAnswers (s.answers ++ more)) = .next (t.withAnswers (t.answers ++ more)) := by
  obtain ⟨hdone, hraised⟩ := Run.oneByOne_more (h.oneByOne s.answers) more
  rw [h.exec_self] at ht
  rw [h.exec]
  obtain ⟨a, att, rest, hF, rfl⟩ | ⟨e, att, rest, hF, rfl⟩ | ⟨req, att, -, rfl⟩ := State.conclude_next ht
  · have hrest : (write { s with attcnt := att, answers := rest } a).answers = rest :=
      h.write_rest { s with attcnt := att } a rest
    rw [hdone a att rest hF, State.complete_answers, hrest]
    exact congrArg (fun u => Host.Outcome.next (State.complete u))
      (h.write_answers { s with attcnt := att, answers := rest } a (rest ++ more))
  · rw [hraised e att rest hF]
    rfl
  · cases hb

/-- Settles O56: by the same two kinds of command; a wait begins again from the start state's registers. -/
theorem waitingDoesNotChangeTheOutcome : Obligations.WaitingDoesNotChangeTheOutcome := by
  intro i s t more ht
  obtain hno | ⟨α, write, F, hrun⟩ := readsNoAnswer_or_runsAs i s
  · obtain ⟨hb, hans⟩ := hno.ends t ht
    refine ⟨fun hbusy => ?_, fun _ => ?_⟩
    · simp [hb] at hbusy
    · have hexec := hno.exec (s.answers ++ more)
      rw [ht] at hexec
      rw [hans]
      exact hexec
  · refine ⟨fun hbusy => ?_, fun hb => hrun.more ht hb more⟩
    obtain ⟨hb, -⟩ | ⟨req, att, hw, rfl⟩ := hrun.next_cases (ans := s.answers) ht
    · simp [hb] at hbusy
    · have hagain := hrun.again req att hw
      refine ⟨(hagain _).trans (hrun.exec _).symm, fun hin hwf => ?_⟩
      rw [step_no_input hin, coreTurn_command rfl (decode_encode hwf)]
      exact (hagain s.answers).trans ((hrun.exec _).symm.trans ht)

/-! ### How many answers end a command -/

/-- A drawing command that is not left waiting has ended. -/
theorem ends_of_not_waiting {i : Instr} {s : State} (hi : Draws i) (h : ∀ t, exec i s = .next t → t.busy = false) :
    Ends i s := by
  cases hexec : exec i s with
  | next t => exact .inl ⟨t, hexec, h t hexec⟩
  | fault f =>
    obtain ⟨rfl, -⟩ := exec_fault hexec
    exact hi.elim
  | refused r =>
    obtain ⟨-, req, pre, v, post, -, rfl, hans, hv, -⟩ := (answersAreReadInOrder i s).2 r hexec
    exact .inr ⟨req, v, hexec, by simp [hans], hv⟩

/-- `rounds` answers are enough for ISPRIME, which reads at most one a round (R164). -/
theorem isprime_ends {s : State} {rounds : Nat} (h : rounds ≤ s.answers.length) : Ends (.isprime rounds) s := by
  refine ends_of_not_waiting trivial fun t ht => ?_
  obtain ⟨-, rfl⟩ | ⟨-, ⟨b, rest, -, rfl⟩ | ⟨req, hwait, rfl⟩⟩ := exec_isprime_next ht
  · rfl
  · rfl
  · obtain ⟨hlt, -⟩ := (isProbablePrime_reader s.opa rounds).wait _ _ hwait
    exact absurd h (by omega)

/-- Seventeen answers for each candidate allowed are enough for GENPRIME (R177). -/
theorem genprime_ends {s : State} {k : Nat} (hm : s.maxatt ≠ 0) (h : 17 * s.maxatt.toNat ≤ s.answers.length) :
    Ends (.genprime k) s := by
  refine ends_of_not_waiting trivial fun t ht => ?_
  obtain ⟨-, rfl⟩ |
    ⟨hk, -, ⟨c, att, rest, -, rfl⟩ | ⟨e, att, rest, -, rfl⟩ | ⟨req, att, hwait, rfl⟩⟩ := exec_genprime_next ht
  · rfl
  · rfl
  · rfl
  · obtain ⟨-, hlt⟩ := (generatePrime_reader hk s.maxatt 0).wait _ _ _ hwait
    exact absurd (hlt hm (Nat.zero_le _)) (by simpa using h)

/-- And for GENKEYS, whose searches share the count of candidates (R177, R192). -/
theorem genkeys_ends {s : State} {bits : Nat} (hm : s.maxatt ≠ 0) (h : 17 * s.maxatt.toNat ≤ s.answers.length) :
    Ends (.genkeys bits) s := by
  refine ends_of_not_waiting trivial fun t ht => ?_
  obtain ⟨-, rfl⟩ |
    ⟨-, hb, -, ⟨key, att, rest, -, rfl⟩ | ⟨e, att, rest, -, rfl⟩ | ⟨req, att, hwait, rfl⟩⟩ := exec_genkeys_next ht
  · rfl
  · rfl
  · rfl
  · obtain ⟨-, hlt⟩ := (generateKeys_reader (by omega) s.maxatt).wait _ _ _ hwait
    exact absurd (hlt hm (Nat.zero_le _)) (by simpa using h)

/-- Settles O57: a command that does not draw is never refused and, under the invariant, never faults. -/
theorem boundedTermination : Obligations.BoundedTermination := by
  refine fun i s => ⟨fun hi hinv => ?_, fun hi t ht => exec_not_busy_of_not_draws hi ht, ?_, ?_⟩
  · cases hexec : exec i s with
    | next t => exact ⟨t, rfl, exec_not_busy_of_not_draws hi hexec⟩
    | fault f => exact absurd hexec (hinv.exec_not_fault i f)
    | refused r => exact absurd hexec (exec_not_refused_of_not_draws hi r)
  · rintro rounds rfl h
    exact isprime_ends h
  · rintro n (rfl | rfl) hm h
    · exact genprime_ends hm h
    · exact genkeys_ends hm h

end Sys2Proof.Machine
end

section
/-!
What a command reads (10_state.md section 2, the "reads" column of R22): two runs that agree on it come to the same end.
-/

namespace Sys2Proof.Machine

/-- The ends `t` and `v` of a command agree: on the completion, error or request, and on what it writes there. -/
def EndsAgree (i : Instr) (t v : State) : Prop :=
  v.seq = t.seq ∧ v.err = t.err ∧ v.errcode = t.errcode ∧
    (t.busy = false → t.err = false → WritesAgree i t v) ∧
    (t.errcode = CmdError.noCoprimeExponent.code ∨ t.errcode = CmdError.generationExhausted.code →
      v.attcnt = t.attcnt) ∧
    (Draws i → v.answers = t.answers)

section
variable {i : Instr} {s u : State}

/-- An error at once writes nothing that could differ. -/
theorem EndsAgree.fail {e : CmdError} (he : e ≠ .noCoprimeExponent ∧ e ≠ .generationExhausted)
    (hans : Draws i → s.answers = u.answers) : EndsAgree i (s.fail e) (u.fail e) :=
  ⟨rfl, rfl, rfl, nofun,
    fun h => (h.elim (he.1 ∘ CmdError.code_inj.mp) (he.2 ∘ CmdError.code_inj.mp)).elim,
    fun hdraws => (hans hdraws).symm⟩

theorem EndsAgree.of_badOperandCause {t : State} (hs : BadOperandCause i s) (hu : BadOperandCause i u)
    (hans : Draws i → s.answers = u.answers) (ht : exec i s = .next t) :
    ∃ v, exec i u = .next v ∧ EndsAgree i t v := by
  obtain rfl := Host.Outcome.next.inj ((exec_of_badOperandCause hs).symm.trans ht)
  exact ⟨_, exec_of_badOperandCause hu, .fail (by simp) hans⟩

/-- Completions without error agree where what was written does. -/
theorem EndsAgree.complete (hs : s.err = false) (hu : u.err = false) (hsc : s.errcode = 0) (huc : u.errcode = 0)
    (hw : WritesAgree i s.complete u.complete) (hans : Draws i → u.answers = s.answers) :
    EndsAgree i s.complete u.complete :=
  ⟨rfl, hu.trans hs.symm, huc.trans hsc.symm, fun _ _ => hw, by simp [hsc, CmdError.code], hans⟩

/-- A run that draws is concluded alike in both states, if its result is written alike. -/
theorem EndsAgree.conclude {α : Type} {write : State → α → State} {r : Run α} {t : State} (hs : s.err = false)
    (hu : u.err = false) (hsc : s.errcode = 0) (huc : u.errcode = 0) (hans : s.answers = u.answers)
    (hdone : ∀ a att rest, EndsAgree i (write { s with attcnt := att, answers := rest } a).complete
      (write { u with attcnt := att, answers := rest } a).complete)
    (ht : s.conclude i write r = .next t) : ∃ v, u.conclude i write r = .next v ∧ EndsAgree i t v := by
  obtain ⟨a, att, rest, rfl, rfl⟩ | ⟨e, att, rest, rfl, rfl⟩ | ⟨req, att, rfl, rfl⟩ := State.conclude_next ht
  · exact ⟨_, rfl, hdone a att rest⟩
  · exact ⟨_, rfl, rfl, rfl, rfl, nofun, fun _ => rfl, fun _ => rfl⟩
  · exact ⟨_, rfl, rfl, hu.trans hs.symm, huc.trans hsc.symm, nofun, fun _ => rfl, fun _ => hans.symm⟩

end

theorem exec_isprime_of_wait {s : State} {rounds : Nat} {req : Request} (hr : rounds ≠ 0)
    (h : isProbablePrime s.opa rounds s.answers = .wait req) :
    exec (.isprime rounds) s = .next (s.waitFor (.isprime rounds) req) := by
  simp only [exec, execIsprime, hr, if_false, h]
  rfl

/-- The decrypted buffer depends on W and the value, and overwrites the whole message buffer. -/
theorem State.decryptedBuffer_congr {s u : State} (h : s.width = u.width) (v : Nat) :
    s.decryptedBuffer v = u.decryptedBuffer v := by
  simp only [State.decryptedBuffer, State.msgBytes, h]

theorem State.msgBytes_le_length_decryptedBuffer (s : State) (v : Nat) :
    s.msgBytes ≤ (s.decryptedBuffer v).length := by
  simp only [State.decryptedBuffer, List.length_append, List.length_replicate]
  omega

/-- Settles O52: each command's run is a function of its row, so it comes to the same end. -/
theorem commandsReadOnlyTheirRow : Obligations.CommandsReadOnlyTheirRow := by
  intro i s u t hsw huw hreads hs hu hsc huc ht
  change ∃ v, exec i u = .next v ∧ EndsAgree i t v
  obtain ⟨hwidth, hrow⟩ := hreads
  cases i with
  | modexp =>
    obtain ⟨hopa, hopb, hopc⟩ := hrow
    obtain ⟨h0, rfl⟩ | ⟨h0, rfl⟩ := exec_modexp_next ht
    · exact ⟨_, exec_modexp_zero_modulus (hopc ▸ h0), .fail (by simp) nofun⟩
    · refine ⟨_, if_neg (hopc ▸ h0), .complete hs hu hsc huc ⟨?_, rfl⟩ nofun⟩
      simp [hopa, hopb, hopc]
  | egcd =>
    obtain ⟨hopa, hopb, hna, hnb⟩ := hrow
    rw [exec_egcd_next ht]
    refine ⟨_, rfl, .complete hs hu hsc huc ?_ nofun⟩
    simp [WritesAgree, State.svalA, State.svalB, hopa, hopb, hna, hnb]
  | modinv =>
    obtain ⟨hopa, hopb, hna, hnb⟩ := hrow
    have hA : s.svalA = u.svalA := by rw [State.svalA, State.svalA, hopa, hna]
    have hB : s.svalB = u.svalB := by rw [State.svalB, State.svalB, hopb, hnb]
    obtain ⟨h0, rfl⟩ | ⟨h0, rfl⟩ | ⟨v, h0, rfl⟩ := exec_modinv_next ht <;> rw [hA, hB] at h0
    · have hcause : BadOperandCause .modinv u := (modInverse_eq_zeroModulus_iff _ _).mp h0
      exact ⟨_, exec_of_badOperandCause hcause, .fail (by simp) nofun⟩
    · exact ⟨_, exec_modinv_of_noInverse h0, .fail (by simp) nofun⟩
    · exact ⟨_, exec_modinv_of_value h0, .complete hs hu hsc huc ⟨rfl, rfl⟩ nofun⟩
  | isprime rounds =>
    obtain ⟨hopa, hans⟩ := hrow
    obtain ⟨rfl, rfl⟩ | ⟨h0, ⟨b, rest, htest, rfl⟩ | ⟨req, htest, rfl⟩⟩ := exec_isprime_next ht
    · exact ⟨_, exec_isprime_zero u, .fail (by simp) fun _ => hans⟩
    · rw [hopa, hans] at htest
      exact ⟨_, exec_isprime_of_done (Nat.one_le_iff_ne_zero.mpr h0) htest,
        .complete hs hu hsc huc ⟨rfl, rfl⟩ fun _ => rfl⟩
    · rw [hopa, hans] at htest
      exact ⟨_, exec_isprime_of_wait h0 htest, rfl, hu.trans hs.symm, huc.trans hsc.symm, nofun,
        by simp [hsc, CmdError.code], fun _ => hans.symm⟩
  | genprime k =>
    obtain ⟨hm, hans⟩ := hrow
    by_cases hbad : BadOperandCause (.genprime k) s
    · have hubad : BadOperandCause (.genprime k) u := by
        rw [BadOperandCause, ← hwidth]
        exact hbad
      exact EndsAgree.of_badOperandCause hbad hubad (fun _ => hans) ht
    · have hrange : ¬ (k < 2 ∨ s.width < k) := hbad
      rw [exec_genprime_of_range (by omega) (by omega)] at ht
      rw [exec_genprime_of_range (by omega) (by omega), ← hm, ← hans]
      exact EndsAgree.conclude hs hu hsc huc hans
        (fun _ _ _ => .complete hs hu hsc huc ⟨rfl, rfl, rfl, rfl⟩ fun _ => rfl) ht
  | genkeys bits =>
    obtain ⟨hm, hans⟩ := hrow
    by_cases hbad : BadOperandCause (.genkeys bits) s
    · have hubad : BadOperandCause (.genkeys bits) u := by
        rw [BadOperandCause, ← hwidth]
        exact hbad
      exact EndsAgree.of_badOperandCause hbad hubad (fun _ => hans) ht
    · have hrange : ¬ (bits % 2 = 1 ∨ bits < 8 ∨ s.width < bits) := hbad
      rw [exec_genkeys_of_range (by omega) (by omega) (by omega)] at ht
      rw [exec_genkeys_of_range (by omega) (by omega) (by omega), ← hm, ← hans]
      exact EndsAgree.conclude hs hu hsc huc hans
        (fun _ _ _ => .complete hs hu hsc huc ⟨rfl, rfl, rfl, rfl, rfl, rfl⟩ fun _ => rfl) ht
  | encrypt =>
    obtain ⟨hmsg, hlen, hn, he⟩ := hrow
    have hlist : s.msg.readList 0 s.msglen.toNat = u.msg.readList 0 u.msglen.toNat := by
      rw [← hlen]
      exact Memory.readList_congr fun a _ ha => hmsg a (by omega)
    have hbytes : s.msgBytes = u.msgBytes := by rw [State.msgBytes, State.msgBytes, hwidth]
    rw [exec_encrypt_eq, hlist, hlen, hn, he, hbytes] at ht
    rw [exec_encrypt_eq]
    split_ifs at ht ⊢ <;> obtain rfl := Host.Outcome.next.inj ht
    · exact ⟨_, rfl, .fail (by simp) nofun⟩
    · exact ⟨_, rfl, .fail (by simp) nofun⟩
    · exact ⟨_, rfl, .complete hs hu hsc huc ⟨rfl, rfl⟩ nofun⟩
  | decrypt =>
    obtain ⟨hopa, hn, hd⟩ := hrow
    have hbytes : s.msgBytes = u.msgBytes := by rw [State.msgBytes, State.msgBytes, hwidth]
    have hbuf := State.decryptedBuffer_congr hwidth
    obtain ⟨h0, rfl⟩ | ⟨h0, hfits, rfl⟩ := exec_decrypt_next ht
    · exact ⟨_, exec_decrypt_zero_modulus (hn ▸ h0), .fail (by simp) nofun⟩
    · have hlen := s.msgBytes_le_length_decryptedBuffer (modexp s.opa s.privD s.privN)
      rw [hopa, hn, hd, hbuf] at hfits hlen ⊢
      rw [hbytes] at hfits hlen
      rw [exec_decrypt_eq, if_neg (hn ▸ h0), if_pos hfits]
      refine ⟨_, rfl, .complete hs hu hsc huc ⟨fun k hk => ?_, rfl⟩ nofun⟩
      have hk : k < u.msgBytes := hbytes ▸ hk
      simp only [State.complete_msg, Memory.read_writeList _ _ _ _ hsw, Memory.read_writeList _ _ _ _ huw]
      rw [if_pos (by omega), if_pos (by omega)]

end Sys2Proof.Machine
end

section
/-!
Short runs: the script lines WR and WRMSG (30_encoding.md section 4, R98 and R99) and each command in the reset state
(70_reset_and_hazards.md section 2).
-/

namespace Sys2Proof.Machine

/-! ### Script lines -/

theorem State.receiveAll_append (s : State) (xs ys : List Input) :
    s.receiveAll (xs ++ ys) = (s.receiveAll xs).receiveAll ys :=
  List.foldl_append

/-- A host write of a writable location in an idle block, as an event. -/
theorem State.receive_hostWrite {s t : State} {addr : Nat} {loc : Location} {d : Word} (hs : s.seq = .idle)
    (hloc : locate s.width addr = some loc) (hw : s.writeLocation d loc = some t) :
    s.receive (.hostWrite addr d) = { t with port := some (.write .okay) } := by
  rw [State.receive, hostWrite_idle hs hloc hw]

theorem State.receive_limb {s : State} {r : BigReg} {j : Nat} (d : Word) (hw : Config.LegalWidth s.width)
    (hs : s.seq = .idle) (hr : r.hostWritable = true) (hj : j < s.limbs) :
    s.receive (.hostWrite (r.base + 4 * j) d) =
      { s.setReg r (setLimb (s.reg r) j d) with port := some (.write .okay) } :=
  State.receive_hostWrite hs (locate_limb s.width j r hw hj) (if_pos hr)

theorem State.setReg_width (s : State) (r : BigReg) (v : Nat) : (s.setReg r v).width = s.width := by
  cases r <;> rfl

theorem State.setReg_seq (s : State) (r : BigReg) (v : Nat) : (s.setReg r v).seq = s.seq := by
  cases r <;> rfl

theorem State.setReg_setReg_port (s : State) (r : BigReg) (x y : Nat) (p q : Option HostResponse) :
    { { s.setReg r x with port := p }.setReg r y with port := q } = { s.setReg r y with port := q } := by
  cases r <;> rfl

/-- Values of n limbs are equal when their limbs are (R65). -/
theorem eq_of_limbs_eq {x y n : Nat} (hx : x < 2 ^ (32 * n)) (hy : y < 2 ^ (32 * n))
    (h : ∀ k, k < n → limb x k = limb y k) : x = y := by
  rw [sum_limbs x n hx, sum_limbs y n hy]
  exact Finset.sum_congr rfl fun k hk => by rw [h k (Finset.mem_range.mp hk)]

/-- After the writes of limbs 0 to n-1 the register has these limbs, and nothing else has changed but the port. -/
theorem State.receiveAll_limbs {s : State} {r : BigReg} (v : Nat) (hw : Config.LegalWidth s.width)
    (hs : s.seq = .idle) (hr : r.hostWritable = true) (hreg : s.reg r < 2 ^ (32 * s.limbs)) (n : Nat)
    (hn : n ≤ s.limbs) :
    ∃ x p, s.receiveAll ((List.range n).map fun j => .hostWrite (r.base + 4 * j) (limb v j)) =
        { s.setReg r x with port := p } ∧
      x < 2 ^ (32 * s.limbs) ∧ (∀ k, k < n → limb x k = limb v k) ∧ (0 < n → p = some (.write .okay)) := by
  induction n with
  | zero =>
    refine ⟨s.reg r, s.port, ?_, hreg, nofun, nofun⟩
    rw [s.setReg_reg]
    rfl
  | succ n ih =>
    obtain ⟨x, p, heq, hx, hlimbs, -⟩ := ih (by omega)
    refine ⟨setLimb x n (limb v n), some (.write .okay), ?_, setLimb_lt _ _ _ _ hx (by omega), fun k hk => ?_,
      fun _ => rfl⟩
    · have hwidth := s.setReg_width r x
      have hseq := s.setReg_seq r x
      have hreg' : State.reg { s.setReg r x with port := p } r = x := s.reg_setReg_same r x
      have hstep := State.receive_limb (s := { s.setReg r x with port := p }) (j := n) (limb v n)
        (hwidth.symm ▸ hw) (hseq.trans hs) hr (by rw [State.limbs, hwidth]; exact hn)
      rw [hreg', State.setReg_setReg_port] at hstep
      rw [List.range_succ, List.map_append, State.receiveAll_append, heq]
      exact hstep
    · rw [limb_setLimb]
      split_ifs with hkn
      · rw [hkn]
      · exact hlimbs k (by omega)

/-- Byte i of word j of a message is byte 4*j+i of the message, or 0 where there is none (R99). -/
theorem getD_wordBytes_messageWord (bs : List Byte) (j : Nat) {i : Nat} (hi : i < 4) :
    (wordBytes (messageWord bs j)).getD i 0 = bs.getD (4 * j + i) 0 := by
  rw [messageWord, wordBytes_append]
  interval_cases i <;> rfl

/-- After the writes of words 0 to n-1 of a message the buffer starts with them, and nothing else has changed but the
port. -/
theorem State.receiveAll_messageWords {s : State} (bs : List Byte) (hw : Config.LegalWidth s.width)
    (hs : s.seq = .idle) (hwf : s.msg.wf = true) (n : Nat) (hn : n ≤ s.limbs) :
    ∃ m p, s.receiveAll ((List.range n).map fun j => .hostWrite (0x4000 + 4 * j) (messageWord bs j)) =
        { s with msg := m, port := p } ∧
      m.wf = true ∧ ∀ k, m.read k = if k < 4 * n then bs.getD k 0 else s.msg.read k := by
  induction n with
  | zero => exact ⟨s.msg, s.port, rfl, hwf, fun k => by simp⟩
  | succ n ih =>
    obtain ⟨m, p, heq, hm, hread⟩ := ih (by omega)
    refine ⟨m.writeList (4 * n) (wordBytes (messageWord bs n)), some (.write .okay), ?_,
      Memory.wf_writeList _ _ hm, fun k => ?_⟩
    · rw [List.range_succ, List.map_append, State.receiveAll_append, heq]
      exact State.receive_hostWrite (s := { s with msg := m, port := p }) hs
        (locate_msgWord s.width n hw (by simpa [State.limbs] using hn)) rfl
    · rw [Memory.read_writeList _ _ _ _ hm, length_wordBytes, hread]
      by_cases hin : 4 * n ≤ k ∧ k < 4 * n + 4
      · have hbyte := getD_wordBytes_messageWord bs n (i := k - 4 * n) (by omega)
        rw [if_pos hin, if_pos (by omega), hbyte, Nat.add_sub_cancel' hin.left]
      · rw [if_neg hin]
        by_cases hlow : k < 4 * n
        · rw [if_pos hlow, if_pos (by omega)]
        · rw [if_neg hlow, if_neg (by omega)]

/-- A buffer that reads as a message from index 0 on holds the message. -/
theorem Memory.readList_eq {m : Memory} {bs : List Byte} (h : ∀ k, k < bs.length → m.read k = bs.getD k 0) :
    m.readList 0 bs.length = bs := by
  refine List.ext_getElem (by simp) fun i hi hi' => ?_
  rw [← List.getD_eq_getElem _ 0 hi, ← List.getD_eq_getElem _ 0 hi', Memory.getD_readList _ _ _ _ hi', Nat.zero_add,
    h i hi']

/-- Settles O19: a register is its limbs, and a message its words, padded with zeros. -/
theorem scriptLinesWriteWhatTheySay : Obligations.ScriptLinesWriteWhatTheySay := by
  intro s hw hs
  have hwidth := s.width_eq_limbs hw
  refine ⟨fun r v hr hv hreg => ?reg, fun bs hwf hlen => ?msg⟩
  case reg =>
    rw [← hwidth] at hv hreg
    obtain ⟨x, p, heq, hx, hlimbs, hp⟩ := State.receiveAll_limbs v hw hs hr hreg s.limbs le_rfl
    rw [eq_of_limbs_eq hx hv hlimbs, hp (by omega)] at heq
    exact heq
  case msg =>
    have hwords : (bs.length + 3) / 4 ≤ s.limbs := by
      rw [State.msgBytes] at hlen
      omega
    obtain ⟨m, p, heq, -, hread⟩ := State.receiveAll_messageWords bs hw hs hwf _ hwords
    refine ⟨m, ?_, Memory.readList_eq fun k hk => ?_, fun k hk hk4 => ?_, fun k hk => ?_⟩
    · rw [scriptWrMsg, State.receiveAll_append, heq]
      exact State.receive_hostWrite (s := { s with msg := m, port := p }) hs (locate_csr _ .msglen) rfl
    · rw [hread, if_pos (by omega)]
    · rw [hread, if_pos hk4, List.getD_eq_default _ _ hk]
    · rw [hread, if_neg (by omega)]

/-! ### Commands in the reset state -/

/-- With no answer GENKEYS asks for its first candidate, which ATTCNT already counts (log entry 2). -/
theorem generateKeys_no_answer (bits : Nat) (maxatt : Word) :
    generateKeys bits maxatt [] = .wait (.randBits (bits / 2)) 1 := by
  rw [generateKeys, primePair_eq, generatePrime_no_answer (capReached_zero maxatt)]
  rfl

/-- Settles O21: the operands are all 0, and no answer is there. -/
theorem commandsInResetState : Obligations.CommandsInResetState := by
  rintro width word s hw rfl
  refine ⟨exec_modexp_zero_modulus rfl, rfl, ?_, fun rounds hr => ?_, fun k hk hkw => ?_, fun bits heven hb hbw => ?_,
    exec_encrypt_oversized (Nat.zero_le _) (Nat.zero_le _), exec_decrypt_zero_modulus rfl⟩
  · exact exec_modinv_of_noInverse (modInverse_of_gcd_ne_one (a := 0) (m := 0) (by decide))
  · exact exec_isprime_of_done hr (isProbablePrime_lt_two rounds [] Nat.zero_lt_two)
  · rw [exec_genprime_of_range hk hkw]
    exact congrArg _ (generatePrime_no_answer (capReached_zero _))
  · rw [exec_genkeys_of_range heven hb hbw]
    exact congrArg _ (generateKeys_no_answer bits _)

end Sys2Proof.Machine
end
